-- ==== Sys2Proof/Word.lean ====
section
/-! DEFINITION. The word types of PFV-BK and their plainest operations: 32-bit words and addresses,
bytes, block elements, and the fixed-size vectors the block registers and tables are made of
(00_scope.md R3, R6, R7). -/

namespace Sys2Proof

/-- A 32-bit word: a command word, a system address, a scalar register (00_scope.md R3). -/
abbrev Word := BitVec 32

/-- A byte of system memory; a sample (00_scope.md R3). -/
abbrev Byte := BitVec 8

/-- A 16-bit register half: a block element, a table entry, X, Y, DX, DY, LC0, LC1. -/
abbrev Half := BitVec 16

/-- The vector whose entry `i` is `f i`. -/
def tabulate {α : Type} {n : Nat} (f : Fin n → α) : Vector α n :=
  ⟨⟨(List.finRange n).map f⟩, by simp⟩

@[simp] theorem getElem_tabulate {α : Type} {n : Nat} (f : Fin n → α) (i : Nat) (h : i < n) :
    (tabulate f)[i] = f ⟨i, h⟩ := by
  simp [tabulate]

/-- A block register's content: 64 elements in raster order, element `8 * row + col`
(10_state.md R22). -/
abbrev Block := Vector Half 64

/-- A quantization table: 64 scale factors in zig-zag order (10_state.md R26). -/
abbrev QTable := Vector Half 64

/-- The block of 64 zeros. -/
def Block.zero : Block := tabulate fun _ => 0

/-- The identity table: every entry 1 (10_state.md R48). -/
def QTable.ones : QTable := tabulate fun _ => 1

end Sys2Proof
end

