-- ==== Sys2Proof/Syntax.lean ====
section
/-! DEFINITION. The commands of PFV-BK: one constructor per row of spec/opcode_table.json, with the
operand fields of 30_encoding.md R102 to R104. -/

namespace Sys2Proof

/-- A block register number 0..7 (30_encoding.md R104). -/
abbrev BReg := Fin 8

/-- A plane descriptor number 0..3. -/
abbrev Plane := Fin 4

/-- A quantization table number 0..3. -/
abbrev Table := Fin 4

/-- A loop counter: field n = 0 selects LC0, n = 1 selects LC1. -/
inductive Counter where
  | lc0
  | lc1
  deriving DecidableEq, Repr

/-- The 29 commands (30_encoding.md R105). -/
inductive Instr where
  | nop
  | halt
  | jmp (off24 : BitVec 24)
  | bz (off24 : BitVec 24)
  | bnz (off24 : BitVec 24)
  | setlc (n : Counter) (imm16 : Half)
  | djnz (n : Counter) (off23 : BitVec 23)
  | setx (imm16 : Half)
  | sety (imm16 : Half)
  | addx (imm16 : Half)
  | addy (imm16 : Half)
  | setmv (dx12 dy12 : BitVec 12)
  | ldpx (d : BReg) (p : Plane) (m h : Bool)
  | stpx (a : BReg) (p : Plane)
  | mov (d a : BReg)
  | clr (d : BReg)
  | sub (d a b : BReg)
  | addc (d a b : BReg)
  | sad (a b : BReg)
  | fdct (d a : BReg)
  | idct (d a : BReg) (c : Bool)
  | quant (d a : BReg) (t : Table)
  | dequant (d a : BReg) (t : Table)
  | qgen (t : Table) (q : BitVec 7)
  | encb (a : BReg)
  | decb (d : BReg)
  | encmv
  | decmv
  | msrch (ps pr : Plane) (radius : BitVec 6)
  deriving DecidableEq, Repr

end Sys2Proof
end

