-- ==== Sys2Proof/WellFormed.lean ====
section
/-! DEFINITION. Which commands have an encoding. The operand types already bound every field, so one
check is left: LDPX with H = 1 and M = 0 is no legal encoding (30_encoding.md R105, R106). QGEN with a
quality above 100 is a legal encoding (R107). -/

namespace Sys2Proof

/-- The command is a legal encoding (30_encoding.md R106). -/
def Instr.wellFormed : Instr → Bool
  | .ldpx _ _ m h => !(h && !m)
  | _ => true

/-- `wellFormed` as a proposition. -/
abbrev Instr.WellFormed (i : Instr) : Prop := i.wellFormed = true

end Sys2Proof
end

