-- ==== Sys2Proof/Decode.lean ====
section
/-! DEFINITION. The decoder of 30_encoding.md: the opcode map R105 as a list of rows with a match and a
mask, operand extraction R102 to R104, and the illegal encodings R106 by name. After it the encoder,
written from the same field tables. -/

namespace Sys2Proof

/-! ### Operand fields (R102 to R104) -/

/-- `w[lo + len - 1 : lo]` (00_scope.md R6). -/
def field (w : Word) (lo len : Nat) : BitVec len := w.extractLsb' lo len

/-- Bit `i` of the word. -/
def bitOf (w : Word) (i : Nat) : Bool := w.getLsbD i

/-- A three-bit block register field whose lowest bit is `lo`: `zext_3`. -/
def regField (w : Word) (lo : Nat) : BReg := (field w lo 3).toFin

/-- A two-bit plane or table field whose lowest bit is `lo`: `zext_2`. -/
def quadField (w : Word) (lo : Nat) : Fin 4 := (field w lo 2).toFin

/-- The loop counter selected by bit `i`. -/
def counterField (w : Word) (i : Nat) : Counter := if bitOf w i then .lc1 else .lc0

/-- Destination block register d, bits 23:21. -/
def dField (w : Word) : BReg := regField w 21

/-- First source block register a, bits 20:18. -/
def aField (w : Word) : BReg := regField w 18

/-- Second source block register b, bits 17:15. -/
def bField (w : Word) : BReg := regField w 15

/-! ### The opcode map (R105) -/

/-- One row of the opcode map: a word `w` is the row's command when `w &&& mask = pat`. -/
structure OpRow where
  pat : Word
  mask : Word
  read : Word → Instr

/-- The sequencer and control rows. -/
def controlRows : List OpRow :=
  [ ⟨0x00000000, 0xFFFFFFFF, fun _ => .nop⟩,
    ⟨0x01000000, 0xFFFFFFFF, fun _ => .halt⟩,
    ⟨0x02000000, 0xFF000000, fun w => .jmp (field w 0 24)⟩,
    ⟨0x03000000, 0xFF000000, fun w => .bz (field w 0 24)⟩,
    ⟨0x04000000, 0xFF000000, fun w => .bnz (field w 0 24)⟩,
    ⟨0x05000000, 0xFFFE0000, fun w => .setlc (counterField w 16) (field w 0 16)⟩,
    ⟨0x06000000, 0xFF000000, fun w => .djnz (counterField w 23) (field w 0 23)⟩,
    ⟨0x08000000, 0xFFFF0000, fun w => .setx (field w 0 16)⟩,
    ⟨0x09000000, 0xFFFF0000, fun w => .sety (field w 0 16)⟩,
    ⟨0x0A000000, 0xFFFF0000, fun w => .addx (field w 0 16)⟩,
    ⟨0x0B000000, 0xFFFF0000, fun w => .addy (field w 0 16)⟩,
    ⟨0x0C000000, 0xFF000000, fun w => .setmv (field w 12 12) (field w 0 12)⟩ ]

/-- The block rows (format B) and the two format N entropy commands. -/
def blockRows : List OpRow :=
  [ ⟨0x10000000, 0xFF1F87FF,
      fun w => .ldpx (dField w) (quadField w 13) (bitOf w 12) (bitOf w 11)⟩,
    ⟨0x11000000, 0xFFE39FFF, fun w => .stpx (aField w) (quadField w 13)⟩,
    ⟨0x12000000, 0xFF03FFFF, fun w => .mov (dField w) (aField w)⟩,
    ⟨0x13000000, 0xFF1FFFFF, fun w => .clr (dField w)⟩,
    ⟨0x18000000, 0xFF007FFF, fun w => .sub (dField w) (aField w) (bField w)⟩,
    ⟨0x19000000, 0xFF007FFF, fun w => .addc (dField w) (aField w) (bField w)⟩,
    ⟨0x1A000000, 0xFFE07FFF, fun w => .sad (aField w) (bField w)⟩,
    ⟨0x20000000, 0xFF03FFFF, fun w => .fdct (dField w) (aField w)⟩,
    ⟨0x21000000, 0xFF03EFFF, fun w => .idct (dField w) (aField w) (bitOf w 12)⟩,
    ⟨0x28000000, 0xFF039FFF, fun w => .quant (dField w) (aField w) (quadField w 13)⟩,
    ⟨0x29000000, 0xFF039FFF, fun w => .dequant (dField w) (aField w) (quadField w 13)⟩,
    ⟨0x2A000000, 0xFFFF9F80, fun w => .qgen (quadField w 13) (field w 0 7)⟩,
    ⟨0x30000000, 0xFFE3FFFF, fun w => .encb (aField w)⟩,
    ⟨0x31000000, 0xFF1FFFFF, fun w => .decb (dField w)⟩,
    ⟨0x32000000, 0xFFFFFFFF, fun _ => .encmv⟩,
    ⟨0x33000000, 0xFFFFFFFF, fun _ => .decmv⟩,
    ⟨0x38000000, 0xFFFF87C0,
      fun w => .msrch (quadField w 13) (quadField w 11) (field w 0 6)⟩ ]

/-- The opcode map of R105, in the table's order. -/
def opRows : List OpRow := controlRows ++ blockRows

/-- The row's condition `(w & mask) = match` (R105). -/
def OpRow.matches (r : OpRow) (w : Word) : Bool := w &&& r.mask == r.pat

/-- The row has the word's opcode, bits 31:24 (R101). -/
def OpRow.sameOpcode (r : OpRow) (w : Word) : Bool := field r.pat 24 8 == field w 24 8

/-! ### Decoding -/

/-- Why a word is no command (R106). Every one of them raises ILLEGAL_OP. -/
inductive DecodeError where
  /-- Fewer than four bytes. -/
  | truncated
  /-- The opcode is not in the opcode map. -/
  | unassignedOpcode
  /-- The opcode is in the map but a reserved bit is set. -/
  | reservedBitSet
  /-- LDPX with H = 1 and M = 0. -/
  | halveWithoutOffset
  deriving DecidableEq, Repr

/-- The command a word encodes, or why it encodes none (R105, R106). -/
def decodeWord (w : Word) : Except DecodeError Instr :=
  match opRows.find? (·.matches w) with
  | some r =>
    let i := r.read w
    if i.wellFormed then .ok i else .error .halveWithoutOffset
  | none => .error (if opRows.any (·.sameOpcode w) then .reservedBitSet else .unassignedOpcode)

/-- The little-endian word of four bytes, the first at the lowest address (20_memory.md R74). -/
def leWord (b0 b1 b2 b3 : Byte) : Word := b3 ++ b2 ++ b1 ++ b0

/-- The four bytes of a word in address order (20_memory.md R74). -/
def leBytes (w : Word) : List Byte :=
  [w.extractLsb' 0 8, w.extractLsb' 8 8, w.extractLsb' 16 8, w.extractLsb' 24 8]

/-- Decode the command at the front of a list of bytes; a decoder always consumes four (R100). -/
def decode : List Byte → Except DecodeError (Instr × List Byte)
  | b0 :: b1 :: b2 :: b3 :: rest => (decodeWord (leWord b0 b1 b2 b3)).map (·, rest)
  | _ => .error .truncated

/-- The instruction the decoder reads from an instruction whose bits are `w`, numbered as
spec/opcode_table.json numbers them; bits from `nbits` on are 0. -/
def decodeTableWord (nbits w : Nat) : Option Instr :=
  (decode (leBytes (BitVec.ofNat 32 (w % 2 ^ nbits)))).toOption.map (·.1)

/-! ### Encoding -/

/-- Field n of formats L and D. -/
def Counter.bit : Counter → BitVec 1
  | .lc0 => 0
  | .lc1 => 1

/-- Format B: OP, d, a, b, aux (R102). -/
def formatB (op : BitVec 8) (d a b : BReg) (aux : BitVec 15) : Word :=
  op ++ BitVec.ofNat 3 d ++ BitVec.ofNat 3 a ++ BitVec.ofNat 3 b ++ aux

/-- Aux with a plane or table number in bits 14:13 and the given bits 12:0 (R103). -/
def auxQuad (t : Fin 4) (low : BitVec 13) : BitVec 15 := BitVec.ofNat 2 t ++ low

/-- The word that encodes a command (R102, R103). -/
def encode : Instr → Word
  | .nop => 0x00#8 ++ 0#24
  | .halt => 0x01#8 ++ 0#24
  | .jmp off => 0x02#8 ++ off
  | .bz off => 0x03#8 ++ off
  | .bnz off => 0x04#8 ++ off
  | .setlc n imm => 0x05#8 ++ 0#7 ++ n.bit ++ imm
  | .djnz n off => 0x06#8 ++ n.bit ++ off
  | .setx imm => 0x08#8 ++ 0#8 ++ imm
  | .sety imm => 0x09#8 ++ 0#8 ++ imm
  | .addx imm => 0x0A#8 ++ 0#8 ++ imm
  | .addy imm => 0x0B#8 ++ 0#8 ++ imm
  | .setmv dx dy => 0x0C#8 ++ dx ++ dy
  | .ldpx d p m h => formatB 0x10 d 0 0 (auxQuad p (BitVec.ofBool m ++ BitVec.ofBool h ++ 0#11))
  | .stpx a p => formatB 0x11 0 a 0 (auxQuad p 0)
  | .mov d a => formatB 0x12 d a 0 0
  | .clr d => formatB 0x13 d 0 0 0
  | .sub d a b => formatB 0x18 d a b 0
  | .addc d a b => formatB 0x19 d a b 0
  | .sad a b => formatB 0x1A 0 a b 0
  | .fdct d a => formatB 0x20 d a 0 0
  | .idct d a c => formatB 0x21 d a 0 (auxQuad 0 (BitVec.ofBool c ++ 0#12))
  | .quant d a t => formatB 0x28 d a 0 (auxQuad t 0)
  | .dequant d a t => formatB 0x29 d a 0 (auxQuad t 0)
  | .qgen t q => formatB 0x2A 0 0 0 (auxQuad t (0#6 ++ q))
  | .encb a => formatB 0x30 0 a 0 0
  | .decb d => formatB 0x31 d 0 0 0
  | .encmv => 0x32#8 ++ 0#24
  | .decmv => 0x33#8 ++ 0#24
  | .msrch ps pr r => formatB 0x38 0 0 0 (auxQuad ps (BitVec.ofNat 2 pr ++ 0#5 ++ r))

end Sys2Proof
end

