-- ==== Sys2Proof/Config.lean ====
section
/-! DEFINITION. What a platform fixes around the units (00_scope.md R4) and the one free value of the
model, the outcome of a memory race (20_memory.md R84). The platform's parameters are plain data, held
in the machine's state and changed by no step, so that every statement about all states holds for
every platform. -/

namespace Sys2Proof

/-- What a unit's byte access to a region of system memory meets. -/
inductive RegionKind where
  /-- BusOK is false: the access raises BUS_ERROR (20_memory.md R76). -/
  | hole
  /-- The platform maps a unit's MMIO block here: outside the model (20_memory.md R71, treatment
  `refuse` in 93_implementation_defined.md). -/
  | mmio
  /-- Memory with read side effects: outside the model (20_memory.md R77, treatment `refuse`). -/
  | sideEffect
  deriving DecidableEq, Repr

/-- A range of system addresses that is not plain memory. -/
structure Region where
  base : Nat
  size : Nat
  kind : RegionKind
  deriving DecidableEq, Repr

/-- The platform's parameters (00_scope.md R4). An address in no region is plain memory on which every
access completes. -/
structure Platform where
  /-- BusOK, and the two kinds of address the spec refuses. -/
  regions : List Region
  /-- MMIO_BASE[u], the host address of unit u's 4 KiB register block. -/
  mmioBase : List Nat
  /-- IRQ_ROUTE[u], the host line unit u's interrupt output is wired to. -/
  irqRoute : List Nat
  deriving DecidableEq, Repr

/-- Which access of a step a byte access is: it tells the accesses to one byte in one step apart, so that
each has its own draw in a race (20_memory.md R84, "a draw per byte read"). -/
inductive Access where
  /-- Byte `i` of the command fetch. -/
  | fetch (i : Nat)
  /-- Sample `i` of the window of LDPX or of the source window of MSRCH. -/
  | sample (i : Nat)
  /-- Sample `i` of the window of candidate `c` of MSRCH. -/
  | candidate (c i : Nat)
  /-- A bitstream byte (each is read at most once in a command, 43_entropy.md R195). -/
  | stream
  /-- A byte written with `left` bytes of the same command still to write after it. -/
  | store (left : Nat)
  /-- A byte the host reads. -/
  | host
  deriving DecidableEq, Repr

/-- FREE VALUE: which of the values that 20_memory.md R84 admits a racing read returns, and which of two
racing writes stays, as a function of the step's draw number, the byte's address and the access within the
step. Nothing constrains it (log 7). -/
opaque Config.raceDraw : (draw addr : Nat) → Access → Nat

end Sys2Proof
end

