-- ==== Sys2Proof/Machine/State.lean ====
section
/-! DEFINITION. The state of the machine as plain data: every unit's architectural state
(10_state.md R20 to R43), the system memory they share (20_memory.md R70), the platform's parameters
(00_scope.md R4) and the outside world's pending events; with the state after reset (R48). -/

namespace Sys2Proof.Machine

/-- The fault codes of STATUS.FCODE (60_exceptions.md R250). -/
inductive FaultCode where
  | none
  | busError
  | illegalOp
  | uninitBlock
  | pixBounds
  | bsOverflow
  | bsTruncated
  | bsCorrupt
  | badParam
  deriving DecidableEq, Repr

/-- A plane descriptor (10_state.md R29). -/
structure PlaneDesc where
  base : Word
  stride : Half
  width : Half
  height : Half
  deriving DecidableEq, Repr

/-- The architectural state of one unit (10_state.md R20). -/
structure UnitState where
  /-- B0..B7 (R22). -/
  blocks : Vector Block 8
  /-- BVALID[0..7] (R23). -/
  bvalid : Vector Bool 8
  /-- QT0..QT3 (R26). -/
  qt : Vector QTable 4
  /-- PD0..PD3 (R29). -/
  pd : Vector PlaneDesc 4
  /-- X, unsigned (R33). -/
  x : Half
  /-- Y, unsigned (R33). -/
  y : Half
  /-- DX, two's complement (R34). -/
  dx : Half
  /-- DY, two's complement (R34). -/
  dy : Half
  /-- LC0 (R35). -/
  lc0 : Half
  /-- LC1 (R35). -/
  lc1 : Half
  /-- ACC (R36). -/
  acc : Word
  /-- The flag Z (R37). -/
  z : Bool
  /-- pc, the address of the next command (R38). -/
  pc : Word
  /-- BSP, the next bitstream byte (R39). -/
  bsp : Word
  /-- BSE, one past the bitstream window (R39). -/
  bse : Word
  /-- CTRL.IE (R40). -/
  ie : Bool
  /-- CTRL.SSTEP (R40). -/
  sstep : Bool
  /-- STATUS.BUSY (R41). -/
  busy : Bool
  /-- STATUS.DONE (R41). -/
  done : Bool
  /-- STATUS.FAULT (R41). -/
  fault : Bool
  /-- STATUS.FCODE (R41). -/
  fcode : FaultCode
  /-- FAULT_PC (R42). -/
  faultPc : Word
  /-- FAULT_INFO (R42). -/
  faultInfo : Word
  /-- CMDCNT (R43). -/
  cmdcnt : Word
  deriving DecidableEq, Repr

/-- System memory: the bytes that differ from what an unlisted address reads as, by rising address
(20_memory.md R70). -/
abbrev Memory := List Host.Cell

/-- What the outside world does, or which unit moves, next (70_reset_and_hazards.md R319). -/
inductive Event where
  /-- Unit `u` performs one step. -/
  | unitStep (u : Nat)
  /-- The host (or another bus agent that is no unit) writes a byte of system memory. -/
  | memWrite (addr : Word) (v : Byte)
  /-- The host reads a byte of system memory. -/
  | memRead (addr : Word)
  /-- The host looks at one of its interrupt lines (60_exceptions.md R265). -/
  | lineRead (line : Nat)
  /-- The host reads `size` bytes at a host address of an MMIO block. -/
  | mmioRead (addr size : Nat)
  /-- The host writes `size` bytes at a host address of an MMIO block. -/
  | mmioWrite (addr size : Nat) (v : Word)
  /-- Hardware reset of unit `u` (70_reset_and_hazards.md R290). -/
  | hwReset (u : Nat)
  deriving DecidableEq, Repr

/-- What reads and writes system memory (20_memory.md R84). -/
inductive Agent where
  /-- The host, or another bus agent that is no unit. -/
  | host
  | unit (u : Nat)
  deriving DecidableEq, Repr

/-- A write of a byte that some agent need not see yet (20_memory.md R81 to R84). -/
structure RaceWrite where
  addr : Nat
  writer : Agent
  /-- The byte's value just before this write. -/
  under : Byte
  /-- The units for which nothing orders the write before the accesses of their runs. -/
  hidden : List Nat
  /-- The host has seen the end of the run that made the write. -/
  seen : Bool
  /-- The writer is a unit that has started another run since. -/
  past : Bool
  deriving DecidableEq, Repr

/-- The machine: N_UNITS units, the memory they share, the platform and the pending events. -/
structure State where
  /-- The state of the selected unit: the one `exec` runs a command on. -/
  unit : UnitState
  /-- The selected unit's index u (10_state.md R32). -/
  self : Nat
  /-- The other units in index order, the selected one left out: N_UNITS is one more than its length. -/
  others : List UnitState
  /-- System memory. -/
  mem : Memory
  /-- The platform's parameters, changed by no step. -/
  plat : Platform
  /-- The model's own: pending events, the next one first. -/
  agenda : List Event
  /-- The model's own: the writes that some agent need not see yet; of the writes of one byte, each before
  those it overwrote (20_memory.md R84). -/
  races : List RaceWrite
  /-- The model's own: the number of the next step's free race draws. -/
  draws : Nat
  /-- The model's own: what the host's last read of a register, a byte or an interrupt line returned. -/
  hostData : Word
  deriving DecidableEq, Repr

/-- Why the machine stops with a fault. A fault of a unit (60_exceptions.md R250) is no such stop: it is
a next state with STATUS.FAULT = 1. -/
inductive Fault where
  /-- Raised by an event that names a unit the system does not have (its index is N_UNITS or more).
  Safe: the spec has no such agent, so no behaviour of it is lost. -/
  | noSuchUnit (u : Nat)
  deriving DecidableEq, Repr

/-- Why the machine gives no meaning. -/
inductive Refusal where
  /-- Raised by an arm of `exec` that has no meaning yet. Safe. -/
  | notModelled (mnemonic : String)
  /-- Raised by a host MMIO access that is not an aligned 32-bit one (10_state.md R44, treatment
  `refuse`). Safe. -/
  | hostAccessNotWord (addr size : Nat)
  /-- Raised by a host access to an address in no unit's register block: it reaches no unit. Safe. -/
  | hostAddressOfNoUnit (addr : Nat)
  /-- Raised by a unit's access to a system address where the platform maps an MMIO block
  (20_memory.md R71, treatment `refuse`). Safe. -/
  | mmioThroughMemory (addr : Word)
  /-- Raised by a unit's read of memory with read side effects (20_memory.md R77, treatment
  `refuse`). Safe. -/
  | sideEffectMemory (addr : Word)
  /-- Raised by a host read of a system address that is no plain memory: the spec says nothing of it.
  Safe. -/
  | hostReadNotMemory (addr : Word)
  deriving DecidableEq, Repr

/-- A plane descriptor after reset (10_state.md R48). -/
def PlaneDesc.reset : PlaneDesc := { base := 0, stride := 0, width := 0, height := 0 }

/-- A unit after a hardware or soft reset: every row of 10_state.md R48. -/
def UnitState.reset : UnitState :=
  { blocks := tabulate fun _ => Block.zero
    bvalid := tabulate fun _ => false
    qt := tabulate fun _ => QTable.ones
    pd := tabulate fun _ => PlaneDesc.reset
    x := 0, y := 0, dx := 0, dy := 0, lc0 := 0, lc1 := 0
    acc := 0, z := false, pc := 0, bsp := 0, bse := 0
    ie := false, sstep := false
    busy := false, done := false, fault := false, fcode := .none
    faultPc := 0, faultInfo := 0, cmdcnt := 0 }

/-- The platform of the reset state. DESIGN CHOICE (log 2): one unit, whose register block is at host
address 0 and whose interrupt is line 0, and every system address bus-OK plain memory. -/
def platformAtReset : Platform := { regions := [], mmioBase := [0], irqRoute := [0] }

/-- The machine right after reset (10_state.md R48, 70_reset_and_hazards.md R290): the unit idle, memory
with nothing listed, no event pending. -/
def State.reset : State :=
  { unit := UnitState.reset, self := 0, others := []
    mem := [], plat := platformAtReset
    agenda := [], races := [], draws := 0, hostData := 0 }

end Sys2Proof.Machine
end

