-- ==== Sys2Proof/Machine/Memory.lean ====
section
/-! DEFINITION. System memory as a canonical list of cells: reading a byte, writing a byte, and the
predicate that the form is canonical (20_memory.md R70). -/

namespace Sys2Proof.Machine

/-- What an address that is not listed reads as. DESIGN CHOICE (log 3): the spec leaves the contents of
memory before the host writes it open, and the model lists the bytes that are not 0. -/
def Memory.unlisted : Byte := 0

/-- The byte at an address. -/
def Memory.read : Memory → Nat → Byte
  | [], _ => Memory.unlisted
  | (b, w) :: m, a => if a = b then w else if a < b then Memory.unlisted else Memory.read m a

/-- Put a cell before the cells of higher addresses, unless it holds what an unlisted address reads as. -/
def Memory.consCell (a : Nat) (v : Byte) (m : Memory) : Memory :=
  if v = Memory.unlisted then m else (a, v) :: m

/-- Write the byte at an address. -/
def Memory.write : Memory → Nat → Byte → Memory
  | [], a, v => Memory.consCell a v []
  | (b, w) :: m, a, v =>
    if a < b then Memory.consCell a v ((b, w) :: m)
    else if a = b then Memory.consCell a v m
    else (b, w) :: Memory.write m a v

/-- Every address of the list is above `lo` (when there is a bound), addresses rise strictly, and no
cell holds what an unlisted address reads as. -/
def Memory.wfFrom : Option Nat → Memory → Bool
  | _, [] => true
  | lo, (b, w) :: m =>
    (match lo with | some l => decide (l < b) | none => true)
      && decide (w ≠ Memory.unlisted) && decide (b < 2 ^ 32) && Memory.wfFrom (some b) m

/-- The canonical form: equal memories are equal lists. -/
def Memory.wf (m : Memory) : Bool := Memory.wfFrom none m

end Sys2Proof.Machine
end

