-- ==== Sys2Proof/Machine/Ops.lean ====
section
/-! DEFINITION. The named operations every command is made of: selecting a unit, byte accesses to system
memory (20_memory.md R76, R84), writing block registers and tables, and how a command ends: completion
(40_control.md R130) or fault entry (60_exceptions.md R256). -/

namespace Sys2Proof.Machine

/-- The result of a step or of a command. -/
abbrev Result := Host.Outcome State Fault Refusal

/-- Why a command ends without completing. -/
inductive Stop where
  /-- `raise Fault(code, info)` (00_scope.md R8). -/
  | raise (code : FaultCode) (info : Word)
  /-- The access is outside the model. -/
  | refuse (r : Refusal)
  deriving DecidableEq, Repr

/-! ### Units -/

/-- All units in index order (00_scope.md R5). -/
def State.units (s : State) : List UnitState := s.others.insertIdx s.self s.unit

/-- N_UNITS (00_scope.md R4). -/
def State.nUnits (s : State) : Nat := s.others.length + 1

/-- Make unit `u` the selected one; no unit's state changes. -/
def State.select (s : State) (u : Nat) : Option State :=
  match s.units[u]? with
  | none => none
  | some x => some { s with unit := x, self := u, others := s.units.eraseIdx u }

/-! ### The selected unit's registers -/

/-- `pc <- pc + 4` (40_control.md R130). -/
def UnitState.advance (u : UnitState) : UnitState := { u with pc := u.pc + 4 }

/-- `pc <- target`. -/
def UnitState.jumpTo (u : UnitState) (target : Word) : UnitState := { u with pc := target }

/-- `B[n] <- v`: all 64 elements, and BVALID[n] becomes 1 (00_scope.md R8, 10_state.md R23). -/
def UnitState.setBlock (u : UnitState) (n : BReg) (v : Block) : UnitState :=
  { u with blocks := u.blocks.set n v, bvalid := u.bvalid.set n true }

/-- The host's write-1-to-clear of BVALID[n]: the register becomes 0 too (10_state.md R24). -/
def UnitState.clearBlock (u : UnitState) (n : BReg) : UnitState :=
  { u with blocks := u.blocks.set n Block.zero, bvalid := u.bvalid.set n false }

/-- `QT[t] <- q`. -/
def UnitState.setTable (u : UnitState) (t : Table) (q : QTable) : UnitState :=
  { u with qt := u.qt.set t q }

/-- The counter selected by field n (30_encoding.md R104). -/
def UnitState.counter (u : UnitState) : Counter → Half
  | .lc0 => u.lc0
  | .lc1 => u.lc1

/-- Write the counter selected by field n. -/
def UnitState.setCounter (u : UnitState) (n : Counter) (v : Half) : UnitState :=
  match n with
  | .lc0 => { u with lc0 := v }
  | .lc1 => { u with lc1 := v }

/-- The interrupt output: `IRQ = CTRL.IE ∧ (STATUS.DONE ∨ STATUS.FAULT)` (60_exceptions.md R265). -/
def UnitState.irq (u : UnitState) : Bool := u.ie && (u.done || u.fault)

/-- The units that IRQ_ROUTE wires to a host interrupt line and whose output is high
(60_exceptions.md R265). -/
def State.drivers (s : State) (line : Nat) : List Nat :=
  (List.range s.nUnits).filter fun u =>
    match s.units[u]?, s.plat.irqRoute[u]? with
    | some x, some l => l == line && x.irq
    | _, _ => false

/-- The level of a host interrupt line. R265 gives each unit's output; that a line shared by several
units is high when one of them drives it is a DESIGN CHOICE (log 20). -/
def State.hostLine (s : State) (line : Nat) : Bool := !(s.drivers line).isEmpty

/-! ### Byte accesses to system memory -/

/-- The kind of the first region that holds an address; `none` for plain memory. -/
def State.regionKind (s : State) (a : Word) : Option RegionKind :=
  (s.plat.regions.find? fun r =>
    decide (r.base ≤ a.toNat) && decide (a.toNat < r.base + r.size)).map (·.kind)

/-- BusOK (00_scope.md R4): false on a hole. -/
def State.busOK (s : State) (a : Word) : Bool := s.regionKind a != some .hole

/-- What stops a read of the byte at address `a` before it is made, if anything does (20_memory.md R76, R71,
R77). -/
def State.denies (s : State) (a : Word) : Option Stop :=
  match s.regionKind a with
  | none => none
  | some .hole => some (.raise .busError a)
  | some .mmio => some (.refuse (.mmioThroughMemory a))
  | some .sideEffect => some (.refuse (.sideEffectMemory a))

/-- What stops a write of the byte at address `a`, if anything does: memory with read side effects may be
written (20_memory.md R77 leaves out only an address a unit reads). -/
def State.deniesWrite (s : State) (a : Word) : Option Stop :=
  match s.regionKind a with
  | none | some .sideEffect => none
  | some .hole => some (.raise .busError a)
  | some .mmio => some (.refuse (.mmioThroughMemory a))

/-! ### Races (20_memory.md R80 to R84, log 7) -/

/-- Unit `r` exists and is running. -/
def State.isBusy (s : State) (r : Nat) : Bool :=
  match s.units[r]? with
  | some u => u.busy
  | none => false

/-- The run in which the write was made is still going on. -/
def State.ongoing (s : State) (e : RaceWrite) : Bool :=
  match e.writer with
  | .host => false
  | .unit u => !e.seen && !e.past && s.isBusy u

/-- Nothing orders the listed write before agent `r`'s accesses: for the host, the run that made it is still
going on (20_memory.md R82, 60_exceptions.md R264); for a unit, its current run did not start after the
host's write or after the host saw the end of the run that made it (R81, R83). -/
def State.hides (s : State) (r : Agent) (e : RaceWrite) : Bool :=
  match r with
  | .host => s.ongoing e
  | .unit u => e.hidden.contains u

/-- The listed writes of a byte, each before those it overwrote. -/
def State.racesAt (s : State) (a : Nat) : List RaceWrite := s.races.filter (·.addr == a)

/-- The values beside the one in memory that a read of byte `a` by agent `r` may return: what the byte was
before each write not ordered before the read, down to the newest write that is (R84). -/
def State.staleFor (s : State) (r : Agent) (a : Nat) : List Byte :=
  ((s.racesAt a).takeWhile (s.hides r)).map (·.under)

/-- Those of the selected unit. -/
def State.staleAt (s : State) (a : Nat) : List Byte := s.staleFor (.unit s.self) a

/-- The value a read of a byte by agent `r` returns: the byte, unless a race admits other values, and then
any one of them (R84; the choice is the free value `Config.raceDraw`). -/
def State.observeAs (s : State) (r : Agent) (t : Access) (a : Word) : Byte :=
  match s.staleFor r a.toNat with
  | [] => s.mem.read a.toNat
  | old :: olds =>
    (old :: olds).getD (Config.raceDraw s.draws a.toNat t % (olds.length + 2))
      (s.mem.read a.toNat)

/-- What a read by the selected unit returns. -/
def State.observe (s : State) (t : Access) (a : Word) : Byte := s.observeAs (.unit s.self) t a

/-- A write of byte `a` by agent `w` now is concurrent with the one in memory: nothing orders that one
before `w`'s accesses (R84, R85). -/
def State.contested (s : State) (w : Agent) (a : Nat) : Bool :=
  match s.racesAt a with
  | [] => false
  | e :: _ => s.hides w e

/-- Of two concurrent writes the one in memory stays (R84: "the final value is one of the two"). -/
def State.keepsOther (s : State) (w : Agent) (t : Access) (a : Word) : Bool :=
  s.contested w a.toNat && Config.raceDraw s.draws a.toNat t % 2 == 1

/-- A write by agent `w` that nothing orders before the other agents' accesses yet. -/
def State.newWrite (s : State) (w : Agent) (a : Nat) (under : Byte) : RaceWrite :=
  { addr := a, writer := w, under := under
    hidden := (List.range s.nUnits).filter fun u => .unit u != w
    seen := false, past := false }

/-- List a write `new` of the value `v` just before the newest write of its byte. -/
def putUnder (new : RaceWrite) (v : Byte) : List RaceWrite → List RaceWrite
  | [] => []
  | e :: es =>
    if e.addr = new.addr then { e with under := v } :: { new with under := e.under } :: es
    else e :: putUnder new v es

/-- Agent `w` writes a byte: its own later reads see it (R80), nothing orders it before the other agents'
accesses yet (R81 to R83), and when it races with the write in memory either may be the one that stays
(R84). -/
def State.writeAs (s : State) (w : Agent) (t : Access) (a : Word) (v : Byte) : State :=
  let new := s.newWrite w a.toNat (s.mem.read a.toNat)
  if s.keepsOther w t a then { s with races := putUnder new v s.races }
  else { s with mem := s.mem.write a.toNat v, races := new :: s.races }

/-! ### A unit's byte accesses -/

/-- `MemRead(a, 1)` (00_scope.md R8). -/
def State.readByte (s : State) (t : Access) (a : Word) : Except Stop Byte :=
  match s.denies a with
  | some e => .error e
  | none => .ok (s.observe t a)

/-- Read bytes one at a time in the order of the list (20_memory.md R76). -/
def State.readBytes (s : State) : List (Access × Word) → Except Stop (List Byte)
  | [] => .ok []
  | (t, a) :: rest =>
    match s.readByte t a with
    | .error e => .error e
    | .ok b =>
      match s.readBytes rest with
      | .error e => .error e
      | .ok bs => .ok (b :: bs)

/-- A byte write by the selected unit, with `left` bytes of its command to follow. -/
def State.storeByte (s : State) (left : Nat) (a : Word) (v : Byte) : State :=
  s.writeAs (.unit s.self) (.store left) a v

/-- `MemWrite` of bytes one at a time in the order of the list: the state after the bytes written, and
why the writing stopped, if it did (20_memory.md R76, 60_exceptions.md R258). -/
def State.storeBytes (s : State) : List (Word × Byte) → State × Option Stop
  | [] => (s, none)
  | (a, v) :: rest =>
    match s.deniesWrite a with
    | some e => (s, some e)
    | none => (s.storeByte rest.length a v).storeBytes rest

/-! ### How a command ends -/

/-- Completion: CMDCNT counts the command, and a single step ends the run (40_control.md R130). -/
def UnitState.complete (u : UnitState) : UnitState :=
  let u := { u with cmdcnt := u.cmdcnt + 1 }
  if u.busy && u.sstep then { u with busy := false, done := true } else u

/-- Fault entry: the ONE operation that takes a fault (60_exceptions.md R256). pc already is the faulting
command's address and stays it; DONE, CMDCNT and every other register keep their values. -/
def UnitState.enterFault (u : UnitState) (code : FaultCode) (info : Word) : UnitState :=
  { u with
    busy := false, fault := true, fcode := code
    faultPc := u.pc, faultInfo := info }

/-- End a command that wrote the registers to `r`'s unit, or that stopped: the unit completes, or takes
the fault with its registers as `s` has them, or the step has no meaning. -/
def State.endCommand (s : State) (r : Except Stop UnitState) : Result :=
  match r with
  | .ok u => .next { s with unit := u.complete, draws := s.draws + 1 }
  | .error (.raise code info) =>
    .next { s with unit := s.unit.enterFault code info, draws := s.draws + 1 }
  | .error (.refuse why) => .refused why

/-- End a command that stores bytes and then writes registers: on a stop the bytes before it stay
written and no register changes but by the fault entry (60_exceptions.md R258). -/
def State.endStore (s : State) (bytes : List (Word × Byte)) (regs : UnitState → UnitState) :
    Result :=
  match s.storeBytes bytes with
  | (t, none) => t.endCommand (.ok (regs t.unit))
  | (t, some e) => t.endCommand (.error e)

end Sys2Proof.Machine
end

