-- ==== Sys2Proof/Machine/Operands.lean ====
section
/-! DEFINITION. Operand forms: number conversions (00_scope.md R7), branch targets (40_control.md R133),
reading a source block (00_scope.md R8), motion offsets, windows of planes and their bounds
(44_motion_residual.md R220 to R223), and sums over a block. -/

namespace Sys2Proof.Machine

/-! ### Numbers (00_scope.md R7) -/

/-- `sat16(v) = min(32767, max(-32768, v))`. -/
def sat16 (v : Int) : Int := min 32767 (max (-32768) v)

/-- `clamp8(v) = min(255, max(0, v))`. -/
def clamp8 (v : Int) : Int := min 255 (max 0 v)

/-- `v >> s`, which is `floor(v / 2^s)` (arithmetic shift). -/
def asr (v : Int) (s : Nat) : Int := v / 2 ^ s

/-- `trunc(v / 2)`, rounding toward zero. -/
def half (v : Int) : Int := Int.tdiv v 2

/-- A 16-bit register half from an integer (its low 16 bits, two's complement). -/
def half16 (v : Int) : Half := BitVec.ofInt 16 v

/-! ### Branch targets -/

/-- `(pc + 4 + 4·sext(off)) mod 2^32` (40_control.md R133). -/
def branchTarget {n : Nat} (pc : Word) (off : BitVec n) : Word :=
  BitVec.ofInt 32 (pc.toNat + 4 + 4 * off.toInt)

/-! ### Blocks -/

/-- Element `i` of a block as a signed integer (10_state.md R22). -/
def elem (b : Block) (i : Fin 64) : Int := b[i].toInt

/-- The raster index of row `r`, column `c` (10_state.md R22). -/
def rasterIdx (r c : Fin 8) : Fin 64 := ⟨8 * r.val + c.val, by omega⟩

/-- The entry at row `r`, column `c` as a signed integer. -/
def entry (b : Block) (r c : Fin 8) : Int := elem b (rasterIdx r c)

/-- The row of a raster index. -/
def rowOf (i : Fin 64) : Fin 8 := ⟨i.val / 8, by omega⟩

/-- The column of a raster index. -/
def colOf (i : Fin 64) : Fin 8 := ⟨i.val % 8, by omega⟩

/-- `ReadBlock(n)`: UNINIT_BLOCK when BVALID[n] = 0, otherwise the 64 elements (00_scope.md R8). -/
def UnitState.readBlock (u : UnitState) (n : BReg) : Except Stop Block :=
  if u.bvalid[n] then .ok u.blocks[n]
  else .error (.raise .uninitBlock (BitVec.ofNat 32 n.val))

/-- `ReadBlock(a)` and then `ReadBlock(b)`: a is checked before b (60_exceptions.md R253). -/
def UnitState.readBlocks (u : UnitState) (a b : BReg) : Except Stop (Block × Block) :=
  match u.readBlock a with
  | .error e => .error e
  | .ok va =>
    match u.readBlock b with
    | .error e => .error e
    | .ok vb => .ok (va, vb)

/-- The sum of `f i` over the 64 elements of a block. -/
def sum64 (f : Fin 64 → Nat) : Nat := ((List.finRange 64).map f).sum

/-- The sum of `f i` over a row or a column of a block. -/
def sum8 (f : Fin 8 → Int) : Int :=
  f 0 + f 1 + f 2 + f 3 + f 4 + f 5 + f 6 + f 7

/-! ### Motion offsets -/

/-- The offset LDPX applies under its mode bits M and H (44_motion_residual.md R222, R223). -/
def UnitState.motionOffset (u : UnitState) (m h : Bool) : Int × Int :=
  match m, h with
  | true, false => (u.dx.toInt, u.dy.toInt)
  | true, true => (half u.dx.toInt, half u.dy.toInt)
  | false, _ => (0, 0)

/-! ### Windows (44_motion_residual.md R220, R221) -/

/-- `InBounds(p, x, y, s)` in unbounded integers (R221). -/
def PlaneDesc.inBounds (d : PlaneDesc) (x y : Int) (size : Nat) : Bool :=
  decide (0 ≤ x) && decide (0 ≤ y) && decide (x + size ≤ d.width.toNat)
    && decide (y + size ≤ d.height.toNat)

/-- The address of the sample at (x, y): `(BASE + y·STRIDE + x) mod 2^32` (10_state.md R29). -/
def PlaneDesc.pixAddr (d : PlaneDesc) (x y : Int) : Word :=
  BitVec.ofInt 32 (d.base.toNat + y * d.stride.toNat + x)

/-- The address of sample `i` of the window of the given size at (x, y), in raster order (R220). -/
def PlaneDesc.windowAddr (d : PlaneDesc) (x y : Int) (size i : Nat) : Word :=
  d.pixAddr (x + (i % size : Nat)) (y + (i / size : Nat))

/-- FAULT_INFO of PIX_BOUNDS: `((y mod 2^16) << 16) | (x mod 2^16)` (R221). -/
def windowInfo (x y : Int) : Word := BitVec.ofInt 16 y ++ BitVec.ofInt 16 x

/-- Read the window of the given size at (x, y), in raster order, read `i` of it being access `t i`
(R220). -/
def State.readWindow (s : State) (d : PlaneDesc) (x y : Int) (size : Nat) (t : Nat → Access) :
    Except Stop (List Byte) :=
  s.readBytes ((List.range (size * size)).map fun i => (t i, d.windowAddr x y size i))

end Sys2Proof.Machine
end

