-- ==== Sys2Proof/Machine/Flags.lean ====
section
/-! DEFINITION. The flag Z: how each of its writers computes it (10_state.md R37). There is no other
flag. -/

namespace Sys2Proof.Machine

/-- Z of QUANT, ENCB and DECB: 1 when all 64 elements are 0. -/
def zOfBlock (b : Block) : Bool := b.toList.all (· == 0)

/-- Z of SAD and MSRCH: 1 when ACC = 0. -/
def zOfAcc (acc : Word) : Bool := acc == 0

/-- Z of ENCMV and DECMV: 1 when DX = 0 and DY = 0. -/
def zOfOffset (dx dy : Half) : Bool := dx == 0 && dy == 0

end Sys2Proof.Machine
end

