-- ==== Sys2Proof/Machine/Control.lean ====
section
/-! DEFINITION. The sequencer and control commands (40_control.md R131 to R143). -/

namespace Sys2Proof.Machine

/-- NOP (R131). -/
def execNop (s : State) : Result := s.endCommand (.ok s.unit.advance)

/-- HALT: pc past it, BUSY 0, DONE 1 (R132). -/
def execHalt (s : State) : Result :=
  s.endCommand (.ok { s.unit.advance with busy := false, done := true })

/-- Jump to the target when the condition holds, otherwise go on (R133). -/
def UnitState.branchIf {n : Nat} (u : UnitState) (taken : Bool) (off : BitVec n) : UnitState :=
  if taken then u.jumpTo (branchTarget u.pc off) else u.advance

/-- JMP (R134). -/
def execJmp (off24 : BitVec 24) (s : State) : Result :=
  s.endCommand (.ok (s.unit.branchIf true off24))

/-- BZ: taken when Z = 1 (R135). -/
def execBz (off24 : BitVec 24) (s : State) : Result :=
  s.endCommand (.ok (s.unit.branchIf s.unit.z off24))

/-- BNZ: taken when Z = 0 (R136). -/
def execBnz (off24 : BitVec 24) (s : State) : Result :=
  s.endCommand (.ok (s.unit.branchIf (!s.unit.z) off24))

/-- SETLC (R137). -/
def execSetlc (n : Counter) (imm16 : Half) (s : State) : Result :=
  s.endCommand (.ok (s.unit.setCounter n imm16).advance)

/-- DJNZ: decrement modulo 2^16, branch when the result is not 0 (R138). -/
def execDjnz (n : Counter) (off23 : BitVec 23) (s : State) : Result :=
  let c := s.unit.counter n - 1
  s.endCommand (.ok ((s.unit.setCounter n c).branchIf (c != 0) off23))

/-- SETX (R139). -/
def execSetx (imm16 : Half) (s : State) : Result :=
  s.endCommand (.ok { s.unit.advance with x := imm16 })

/-- SETY (R140). -/
def execSety (imm16 : Half) (s : State) : Result :=
  s.endCommand (.ok { s.unit.advance with y := imm16 })

/-- ADDX, modulo 2^16 (R141). -/
def execAddx (imm16 : Half) (s : State) : Result :=
  s.endCommand (.ok { s.unit.advance with x := s.unit.x + imm16 })

/-- ADDY, modulo 2^16 (R142). -/
def execAddy (imm16 : Half) (s : State) : Result :=
  s.endCommand (.ok { s.unit.advance with y := s.unit.y + imm16 })

/-- SETMV: both components sign-extended (R143). -/
def execSetmv (dx12 dy12 : BitVec 12) (s : State) : Result :=
  s.endCommand (.ok { s.unit.advance with dx := dx12.signExtend 16, dy := dy12.signExtend 16 })

end Sys2Proof.Machine
end

