-- ==== Sys2Proof/Machine/Quantizer.lean ====
section
/-! DEFINITION. The quantizer commands QUANT, DEQUANT and QGEN (42_quantizer.md R170 to R176). -/

namespace Sys2Proof.Machine

/-- The zig-zag permutation, first half (R170). -/
def zigzagLow : List Nat :=
  [ 0, 1, 8, 16, 9, 2, 3, 10, 17, 24, 32, 25, 18, 11, 4, 5,
    12, 19, 26, 33, 40, 48, 41, 34, 27, 20, 13, 6, 7, 14, 21, 28 ]

/-- The zig-zag permutation, second half (R170). -/
def zigzagHigh : List Nat :=
  [ 35, 42, 49, 56, 57, 50, 43, 36, 29, 22, 15, 23, 30, 37, 44, 51,
    58, 59, 52, 45, 38, 31, 39, 46, 53, 60, 61, 54, 47, 55, 62, 63 ]

/-- The inverse permutation, first half (R170). -/
def zigzagInvLow : List Nat :=
  [ 0, 1, 5, 6, 14, 15, 27, 28, 2, 4, 7, 13, 16, 26, 29, 42,
    3, 8, 12, 17, 25, 30, 41, 43, 9, 11, 18, 24, 31, 40, 44, 53 ]

/-- The inverse permutation, second half (R170). -/
def zigzagInvHigh : List Nat :=
  [ 10, 19, 23, 32, 39, 45, 52, 54, 20, 22, 33, 38, 46, 51, 55, 60,
    21, 34, 37, 47, 50, 56, 59, 61, 35, 36, 48, 49, 57, 58, 62, 63 ]

/-- `ZZ[k]`: the raster index of zig-zag index k (R170). -/
def zz (k : Fin 64) : Fin 64 := Fin.ofNat 64 ((zigzagLow ++ zigzagHigh).getD k.val 0)

/-- `ZZinv[i]`: the zig-zag index of raster index i (R170). -/
def zzInv (i : Fin 64) : Fin 64 := Fin.ofNat 64 ((zigzagInvLow ++ zigzagInvHigh).getD i.val 0)

/-- One quantized level: round to nearest, ties away from zero (R171). -/
def quantLevel (v : Int) (q : Nat) : Int := v.sign * ((v.natAbs + q / 2) / q : Nat)

/-- `quant(A, Q)`: the element at raster index i uses the factor at zig-zag index ZZinv[i] (R171). -/
def quant (a : Block) (q : QTable) : Block :=
  tabulate fun i => half16 (quantLevel (elem a i) q[zzInv i].toNat)

/-- `dequant(A, Q)` (R172). -/
def dequant (a : Block) (q : QTable) : Block :=
  tabulate fun i => half16 (sat16 (elem a i * q[zzInv i].toNat))

/-- `qgen(Qv)` (R175). -/
def qgen (quality : Nat) : QTable :=
  tabulate fun k => BitVec.ofNat 16 (max 1 (((16 + k.val) * (100 - quality) + 25) / 50))

/-- QUANT (R173). -/
def execQuant (d a : BReg) (t : Table) (s : State) : Result :=
  s.endCommand ((s.unit.readBlock a).map fun src =>
    let r := quant src s.unit.qt[t]
    { (s.unit.setBlock d r).advance with z := zOfBlock r })

/-- DEQUANT (R174). -/
def execDequant (d a : BReg) (t : Table) (s : State) : Result :=
  s.endCommand ((s.unit.readBlock a).map fun src =>
    (s.unit.setBlock d (dequant src s.unit.qt[t])).advance)

/-- QGEN: BAD_PARAM with the command word when the quality is above 100 (R176). -/
def execQgen (t : Table) (q : BitVec 7) (s : State) : Result :=
  s.endCommand (
    if 100 < q.toNat then .error (.raise .badParam (encode (.qgen t q)))
    else .ok (s.unit.setTable t (qgen q.toNat)).advance)

end Sys2Proof.Machine
end

