-- ==== Sys2Proof/Machine/Entropy.lean ====
section
/-! DEFINITION. The block entropy coder commands ENCB, DECB, ENCMV and DECMV (43_entropy.md R190 to
R200). Bits are a list of Booleans, first bit first. -/

namespace Sys2Proof.Machine

/-! ### Codes -/

/-- `ue(v)`: with n the number of binary digits of v + 1, n - 1 zeros and then the n digits, most
significant first (R190). -/
def ue (v : Nat) : List Bool :=
  let n := (v + 1).log2 + 1
  List.replicate (n - 1) false ++ (List.range n).map fun i => (v + 1).testBit (n - 1 - i)

/-- `sm(x)` (R191). -/
def sm (x : Int) : Nat := if 0 < x then (2 * x - 1).toNat else (-2 * x).toNat

/-- `ism(m)`, the inverse of `sm` (R191). -/
def ism (m : Nat) : Int := if m % 2 = 1 then ((m + 1) / 2 : Nat) else -((m / 2 : Nat) : Int)

/-- `se(x) = ue(sm(x))` (R191). -/
def se (x : Int) : List Bool := ue (sm x)

/-- Byte `q` of a packed bit string: bit b_j goes to bit `7 - (j mod 8)` of byte `j div 8`, and bits
after the last are 0 (R192). -/
def packByte (bits : List Bool) (q : Nat) : Byte :=
  BitVec.ofBoolListBE ((List.range 8).map fun i => bits.getD (8 * q + i) false)

/-- `pack(b)`: `ceil(L / 8)` bytes (R192). -/
def pack (bits : List Bool) : List Byte :=
  (List.range ((bits.length + 7) / 8)).map (packByte bits)

/-- The levels of a block in zig-zag order. -/
def zigzagLevels (b : Block) : List Int := (List.finRange 64).map fun k => elem b (zz k)

/-- One codeword triple: the zeros before the level plus one, its magnitude minus one, its sign
(R193). -/
def levelBits (run : Nat) (v : Int) : List Bool :=
  ue (run + 1) ++ ue (v.natAbs - 1) ++ [decide (v < 0)]

/-- The triples of the remaining levels after `run` zeros, and then the end of block `ue(0)`. Zeros after
the last nonzero level give nothing (R193). -/
def codeLevels : Nat → List Int → List Bool
  | _, [] => ue 0
  | run, v :: vs =>
    if v = 0 then codeLevels (run + 1) vs else levelBits run v ++ codeLevels 0 vs

/-- `blockbits(A)` (R193). -/
def blockBits (b : Block) : List Bool := codeLevels 0 (zigzagLevels b)

/-- `mvbits(dx, dy)` (R194). -/
def mvBits (dx dy : Int) : List Bool := se dx ++ se dy

/-! ### Reading the bitstream window (R195, R196) -/

/-- The byte that holds bit `j` of the window: BS_TRUNCATED at or beyond BSE, otherwise a byte read
(R196). -/
def State.streamByte (s : State) (j : Nat) : Except Stop Byte :=
  let a := s.unit.bsp.toNat + j / 8
  if s.unit.bse.toNat ≤ a then .error (.raise .bsTruncated (BitVec.ofNat 32 j))
  else s.readByte .stream (BitVec.ofNat 32 a)

/-- `ReadBit()` at position `j` (R196). -/
def State.readBit (s : State) (j : Nat) : Except Stop Bool :=
  (s.streamByte j).map fun cur => cur.getLsbD (7 - j % 8)

/-- `raise Fault(BS_CORRUPT, j)`. -/
def corrupt {α : Type} (j : Nat) : Except Stop α := .error (.raise .bsCorrupt (BitVec.ofNat 32 j))

/-- Read zeros until a 1: the number of zeros and the position after the 1; BS_CORRUPT when no zero is
left to be allowed (R196). -/
def State.readZeros (s : State) : (allowed zeros j : Nat) → Except Stop (Nat × Nat)
  | 0, _, j => corrupt j
  | allowed + 1, zeros, j => do
    let bit ← s.readBit j
    if bit then .ok (zeros, j + 1) else s.readZeros allowed (zeros + 1) (j + 1)

/-- Read `n` more binary digits after the number `w` (R196). -/
def State.readDigits (s : State) : (n w j : Nat) → Except Stop (Nat × Nat)
  | 0, w, j => .ok (w, j)
  | n + 1, w, j => do
    let bit ← s.readBit j
    s.readDigits n (2 * w + bit.toNat) (j + 1)

/-- `ReadUE()` from position `j`: the value and the position after it; the 17th zero is corrupt
(R196). -/
def State.readUe (s : State) (j : Nat) : Except Stop (Nat × Nat) := do
  let (zeros, j) ← s.readZeros 17 0 j
  let (w, j) ← s.readDigits zeros 1 j
  .ok (w - 1, j)

/-- `ReadSE()` from position `j` (R196). -/
def State.readSe (s : State) (j : Nat) : Except Stop (Int × Nat) := do
  let (m, j) ← s.readUe j
  .ok (ism m, j)

/-- `Finish()`: the padding bits must be 0; the number of bytes consumed (R196). At most seven bits are
left. -/
def State.readPadding (s : State) : (left j : Nat) → Except Stop Nat
  | 0, j => .ok (j / 8)
  | left + 1, j =>
    if j % 8 = 0 then .ok (j / 8)
    else do
      let bit ← s.readBit j
      if bit then corrupt (j + 1) else s.readPadding left (j + 1)

/-- The decode loop from zig-zag index `k` and position `j`, with the levels read so far in `r`
(R198). Each round but the last uses up an index, so 65 rounds are enough. -/
def State.decodeLevels (s : State) : (rounds k j : Nat) → Block → Except Stop (Block × Nat)
  | 0, _, j, _ => corrupt j
  | rounds + 1, k, j, r => do
    let (r1, j) ← s.readUe j
    if r1 = 0 then .ok (r, j)
    else if 63 < k + (r1 - 1) then corrupt j
    else do
      let at_ := k + (r1 - 1)
      let (m, j) ← s.readUe j
      let neg ← s.readBit j
      let mag := m + 1
      if 32768 < mag ∨ (mag = 32768 ∧ neg = false) then corrupt (j + 1)
      else
        s.decodeLevels rounds (at_ + 1) (j + 1)
          (r.set (zz (Fin.ofNat 64 at_)) (half16 (if neg then -(mag : Int) else mag)))

/-- Decode one block from the window: its levels and the bytes consumed (R198). -/
def State.decodeBlock (s : State) : Except Stop (Block × Nat) := do
  let (r, j) ← s.decodeLevels 65 0 0 Block.zero
  let n ← s.readPadding 7 j
  .ok (r, n)

/-- A component of a motion offset must be an int16; `j` is the position after it (R200). -/
def checkInt16 (x : Int) (j : Nat) : Except Stop PUnit :=
  if x < -32768 ∨ 32767 < x then corrupt j else .ok ()

/-- Decode one motion offset from the window: its components and the bytes consumed (R200). -/
def State.decodeOffset (s : State) : Except Stop (Int × Int × Nat) := do
  let (x, j) ← s.readSe 0
  checkInt16 x j
  let (y, j) ← s.readSe j
  checkInt16 y j
  let n ← s.readPadding 7 j
  .ok (x, y, n)

/-! ### Writing the bitstream window -/

/-- The cells of consecutive bytes from an address on, addresses modulo 2^32 (R197). -/
def streamCells (a : Word) : List Byte → List (Word × Byte)
  | [] => []
  | b :: bs => (a, b) :: streamCells (a + 1) bs

/-- On success an entropy command advances BSP by the n bytes, puts n in ACC and writes Z (R195). -/
def UnitState.countBytes (u : UnitState) (n : Nat) (z : Bool) : UnitState :=
  { u with bsp := u.bsp + BitVec.ofNat 32 n, acc := BitVec.ofNat 32 n, z := z }

/-- Write a bit string to the window: BS_OVERFLOW before any byte when it does not fit, in unbounded
sums, otherwise its bytes in order (R197, R199, R203). -/
def State.emitBits (s : State) (bits : List Bool) (z : Bool) : Result :=
  let data := pack bits
  if s.unit.bse.toNat < s.unit.bsp.toNat + data.length then
    s.endCommand (.error (.raise .bsOverflow (BitVec.ofNat 32 data.length)))
  else
    s.endStore (streamCells s.unit.bsp data) fun u => (u.countBytes data.length z).advance

/-! ### Commands -/

/-- ENCB (R197). -/
def execEncb (a : BReg) (s : State) : Result :=
  match s.unit.readBlock a with
  | .error e => s.endCommand (.error e)
  | .ok src => s.emitBits (blockBits src) (zOfBlock src)

/-- DECB (R198). -/
def execDecb (d : BReg) (s : State) : Result :=
  s.endCommand (s.decodeBlock.map fun (r, n) =>
    ((s.unit.setBlock d r).countBytes n (zOfBlock r)).advance)

/-- ENCMV (R199). -/
def execEncmv (s : State) : Result :=
  s.emitBits (mvBits s.unit.dx.toInt s.unit.dy.toInt) (zOfOffset s.unit.dx s.unit.dy)

/-- DECMV (R200). -/
def execDecmv (s : State) : Result :=
  s.endCommand (s.decodeOffset.map fun (x, y, n) =>
    { (s.unit.countBytes n (zOfOffset (half16 x) (half16 y))).advance with
      dx := half16 x, dy := half16 y })

end Sys2Proof.Machine
end

