-- ==== Sys2Proof/Machine/Motion.lean ====
section
/-! DEFINITION. The sample movement, residual and motion search commands (44_motion_residual.md R223 to
R230). -/

namespace Sys2Proof.Machine

/-! ### Sample movement -/

/-- 64 loaded sample bytes as a block: `zext_8` of each (R223). -/
def blockOfSamples (bytes : List Byte) : Block :=
  tabulate fun i => (bytes.getD i.val 0).setWidth 16

/-- The position of the window LDPX reads (R223). -/
def UnitState.loadPosition (u : UnitState) (m h : Bool) : Int × Int :=
  (u.x.toNat + (u.motionOffset m h).1, u.y.toNat + (u.motionOffset m h).2)

/-- LDPX (R223). H = 1 with M = 0 is no legal encoding: such a word is ILLEGAL_OP before any effect
(30_encoding.md R106), and so is this command. -/
def execLdpx (d : BReg) (p : Plane) (m h : Bool) (s : State) : Result :=
  s.endCommand (
    if h && !m then .error (.raise .illegalOp (encode (.ldpx d p m h)))
    else
      let at_ := s.unit.loadPosition m h
      if s.unit.pd[p].inBounds at_.1 at_.2 8 then
        (s.readWindow s.unit.pd[p] at_.1 at_.2 8 .sample).map fun bytes =>
          (s.unit.setBlock d (blockOfSamples bytes)).advance
      else .error (.raise .pixBounds (windowInfo at_.1 at_.2)))

/-- The bytes STPX writes, in raster order: `clamp8` of each element (R224). -/
def storeCells (d : PlaneDesc) (x y : Half) (b : Block) : List (Word × Byte) :=
  (List.finRange 64).map fun i =>
    (d.windowAddr x.toNat y.toNat 8 i.val, BitVec.ofInt 8 (clamp8 (elem b i)))

/-- STPX: the register is checked first, then the window (R224). The motion offset is not applied. -/
def execStpx (a : BReg) (p : Plane) (s : State) : Result :=
  match s.unit.readBlock a with
  | .error e => s.endCommand (.error e)
  | .ok src =>
    if s.unit.pd[p].inBounds s.unit.x.toNat s.unit.y.toNat 8 then
      s.endStore (storeCells s.unit.pd[p] s.unit.x s.unit.y src) UnitState.advance
    else s.endCommand (.error (.raise .pixBounds (windowInfo s.unit.x.toNat s.unit.y.toNat)))

/-- MOV (R225). -/
def execMov (d a : BReg) (s : State) : Result :=
  s.endCommand ((s.unit.readBlock a).map fun src => (s.unit.setBlock d src).advance)

/-- CLR (R226). -/
def execClr (d : BReg) (s : State) : Result :=
  s.endCommand (.ok (s.unit.setBlock d Block.zero).advance)

/-! ### Residual arithmetic -/

/-- `sat16(A[i] - B[i])` for every element (R227). -/
def subBlock (a b : Block) : Block := tabulate fun i => half16 (sat16 (elem a i - elem b i))

/-- `clamp8(A[i] + B[i])` for every element (R228). -/
def addClampBlock (a b : Block) : Block := tabulate fun i => half16 (clamp8 (elem a i + elem b i))

/-- The sum of `|A[i] - B[i]|` (R229). -/
def sadBlock (a b : Block) : Nat := sum64 fun i => (elem a i - elem b i).natAbs

/-- SUB (R227). -/
def execSub (d a b : BReg) (s : State) : Result :=
  s.endCommand ((s.unit.readBlocks a b).map fun v =>
    (s.unit.setBlock d (subBlock v.1 v.2)).advance)

/-- ADDC (R228). -/
def execAddc (d a b : BReg) (s : State) : Result :=
  s.endCommand ((s.unit.readBlocks a b).map fun v =>
    (s.unit.setBlock d (addClampBlock v.1 v.2)).advance)

/-- SAD (R229). -/
def execSad (a b : BReg) (s : State) : Result :=
  s.endCommand ((s.unit.readBlocks a b).map fun v =>
    let acc : Word := BitVec.ofNat 32 (sadBlock v.1 v.2)
    { s.unit.advance with acc := acc, z := zOfAcc acc })

/-! ### Motion search (R230) -/

/-- A candidate offset that has been evaluated: its sum of absolute differences and the offset. -/
structure Found where
  sad : Nat
  dx : Int
  dy : Int
  deriving DecidableEq, Repr

/-- The offsets -R..R, in rising order. -/
def offsetRange (radius : Nat) : List Int :=
  (List.range (2 * radius + 1)).map fun i : Nat => (i : Int) - radius

/-- The candidates in order: (0, 0), and then the others with dy outer and dx inner, as (dx, dy). -/
def candidates (radius : Nat) : List (Int × Int) :=
  (0, 0) :: ((offsetRange radius).flatMap fun dy =>
    (offsetRange radius).filterMap fun dx => if dx = 0 ∧ dy = 0 then none else some (dx, dy))

/-- The sum of absolute differences of two windows of samples. -/
def sadSamples : List Byte → List Byte → Nat
  | a :: as, b :: bs => ((a.toNat : Int) - b.toNat).natAbs + sadSamples as bs
  | _, _ => 0

/-- The better of the best candidate so far and a new one: ties stay with the earlier. -/
def keepBetter (best : Option Found) (f : Found) : Option Found :=
  match best with
  | none => some f
  | some b => if f.sad < b.sad then some f else some b

/-- Evaluate the candidates in order from number `c` on: those whose 16x16 window is not inside the
reference plane are skipped. -/
def State.searchFrom (s : State) (src : List Byte) (pr : PlaneDesc) :
    (c : Nat) → List (Int × Int) → Option Found → Except Stop (Option Found)
  | _, [], best => .ok best
  | c, (dx, dy) :: rest, best =>
    let x := s.unit.x.toNat + dx
    let y := s.unit.y.toNat + dy
    if pr.inBounds x y 16 then
      match s.readWindow pr x y 16 (.candidate c) with
      | .error e => .error e
      | .ok win =>
        s.searchFrom src pr (c + 1) rest
          (keepBetter best { sad := sadSamples src win, dx := dx, dy := dy })
    else s.searchFrom src pr (c + 1) rest best

/-- Search for the best offset of the 16x16 window at (X, Y): PIX_BOUNDS when the source window is out of
its plane or no candidate is in bounds. -/
def State.search (s : State) (ps pr : PlaneDesc) (radius : Nat) : Except Stop Found := do
  let outside : Stop := .raise .pixBounds (windowInfo s.unit.x.toNat s.unit.y.toNat)
  if ps.inBounds s.unit.x.toNat s.unit.y.toNat 16 then do
    let src ← s.readWindow ps s.unit.x.toNat s.unit.y.toNat 16 .sample
    let best ← s.searchFrom src pr 0 (candidates radius) none
    match best with
    | some f => .ok f
    | none => .error outside
  else .error outside

/-- MSRCH (R230). -/
def execMsrch (ps pr : Plane) (radius : BitVec 6) (s : State) : Result :=
  s.endCommand ((s.search s.unit.pd[ps] s.unit.pd[pr] radius.toNat).map fun best =>
    let acc : Word := BitVec.ofNat 32 best.sad
    { s.unit.advance with
      dx := half16 best.dx, dy := half16 best.dy, acc := acc, z := zOfAcc acc })

end Sys2Proof.Machine
end

