-- ==== Sys2Proof/Machine/Transform.lean ====
section
/-! DEFINITION. The transform commands FDCT and IDCT (41_transform.md R150 to R154). -/

namespace Sys2Proof.Machine

/-- The integer DCT basis, row k (frequency), column n (position) (R150). -/
def dctRows : List (List Int) :=
  [ [2896, 2896, 2896, 2896, 2896, 2896, 2896, 2896],
    [4017, 3406, 2276, 799, -799, -2276, -3406, -4017],
    [3784, 1567, -1567, -3784, -3784, -1567, 1567, 3784],
    [3406, -799, -4017, -2276, 2276, 4017, 799, -3406],
    [2896, -2896, -2896, 2896, 2896, -2896, -2896, 2896],
    [2276, -4017, 799, 3406, -3406, -799, 4017, -2276],
    [1567, -3784, 3784, -1567, -1567, 3784, -3784, 1567],
    [799, -2276, 3406, -4017, 4017, -3406, 2276, -799] ]

/-- `DCTC[k][n]` (R150). -/
def dctc (k n : Fin 8) : Int := (dctRows.getD k.val []).getD n.val 0

/-- Pass 1 of the forward transform: `T[r][u]` (R151). -/
def fdctRow (b : Block) (r u : Fin 8) : Int :=
  asr (sum8 (fun c => dctc u c * entry b r c) + 512) 10

/-- Pass 2 of the forward transform before saturation (R151). -/
def fdctCol (b : Block) (v u : Fin 8) : Int :=
  asr (sum8 (fun r => dctc v r * fdctRow b r u) + 32768) 16

/-- The forward transform (R151). -/
def fdct (b : Block) : Block :=
  tabulate fun i => half16 (sat16 (fdctCol b (rowOf i) (colOf i)))

/-- Pass 1 of the inverse transform: `T[v][c]` (R152). -/
def idctRow (b : Block) (v c : Fin 8) : Int :=
  asr (sum8 (fun u => dctc u c * entry b v u) + 512) 10

/-- Pass 2 of the inverse transform before clamping or saturation (R152). -/
def idctCol (b : Block) (r c : Fin 8) : Int :=
  asr (sum8 (fun v => dctc v r * idctRow b v c) + 32768) 16

/-- The inverse transform with output mode C (R152). -/
def idct (b : Block) (clamp : Bool) : Block :=
  tabulate fun i =>
    let x := idctCol b (rowOf i) (colOf i)
    half16 (if clamp then clamp8 x else sat16 x)

/-- FDCT (R153). -/
def execFdct (d a : BReg) (s : State) : Result :=
  s.endCommand ((s.unit.readBlock a).map fun src => (s.unit.setBlock d (fdct src)).advance)

/-- IDCT (R154). -/
def execIdct (d a : BReg) (c : Bool) (s : State) : Result :=
  s.endCommand ((s.unit.readBlock a).map fun src => (s.unit.setBlock d (idct src c)).advance)

end Sys2Proof.Machine
end

