-- ==== Sys2Proof/Machine/Dispatch.lean ====
section
/-! DEFINITION. The dispatch: one arm per command (40_control.md R130, "execute the rule of the matched
command"). -/

namespace Sys2Proof.Machine

def exec (i : Instr) (s : State) : Host.Outcome State Fault Refusal :=
  match i with
  | .nop => Sys2Proof.Machine.execNop s
  | .halt => Sys2Proof.Machine.execHalt s
  | .jmp off => Sys2Proof.Machine.execJmp off s
  | .bz off => Sys2Proof.Machine.execBz off s
  | .bnz off => Sys2Proof.Machine.execBnz off s
  | .setlc n imm => Sys2Proof.Machine.execSetlc n imm s
  | .djnz n off => Sys2Proof.Machine.execDjnz n off s
  | .setx imm => Sys2Proof.Machine.execSetx imm s
  | .sety imm => Sys2Proof.Machine.execSety imm s
  | .addx imm => Sys2Proof.Machine.execAddx imm s
  | .addy imm => Sys2Proof.Machine.execAddy imm s
  | .setmv dx dy => Sys2Proof.Machine.execSetmv dx dy s
  | .ldpx d p m h => Sys2Proof.Machine.execLdpx d p m h s
  | .stpx a p => Sys2Proof.Machine.execStpx a p s
  | .mov d a => Sys2Proof.Machine.execMov d a s
  | .clr d => Sys2Proof.Machine.execClr d s
  | .sub d a b => Sys2Proof.Machine.execSub d a b s
  | .addc d a b => Sys2Proof.Machine.execAddc d a b s
  | .sad a b => Sys2Proof.Machine.execSad a b s
  | .fdct d a => Sys2Proof.Machine.execFdct d a s
  | .idct d a c => Sys2Proof.Machine.execIdct d a c s
  | .quant d a t => Sys2Proof.Machine.execQuant d a t s
  | .dequant d a t => Sys2Proof.Machine.execDequant d a t s
  | .qgen t q => Sys2Proof.Machine.execQgen t q s
  | .encb a => Sys2Proof.Machine.execEncb a s
  | .decb d => Sys2Proof.Machine.execDecb d s
  | .encmv => Sys2Proof.Machine.execEncmv s
  | .decmv => Sys2Proof.Machine.execDecmv s
  | .msrch ps pr radius => Sys2Proof.Machine.execMsrch ps pr radius s

end Sys2Proof.Machine
end

