-- ==== Sys2Proof/Machine/Mmio.lean ====
section
/-! DEFINITION. The host's view of a unit: the MMIO register map and what host reads and writes of it do
(10_state.md R31, R32, R40 to R47), the start protocol and reset (70_reset_and_hazards.md R290 to R296). -/

namespace Sys2Proof.Machine

/-! ### The register map (10_state.md R44) -/

/-- The registers of the 4 KiB block. -/
inductive MmioReg where
  | id
  | unitId
  | ctrl
  | status
  | pc
  | faultPc
  | faultInfo
  | cmdcnt
  | bsp
  | bse
  | pos
  | mv
  | lc
  | acc
  | flags
  | bvalid
  | pdBase (p : Plane)
  | pdStride (p : Plane)
  | pdWidth (p : Plane)
  | pdHeight (p : Plane)
  /-- Word `j` of block register `n`. -/
  | blk (n : BReg) (j : Fin 32)
  /-- Word `j` of quantization table `t`. -/
  | qt (t : Table) (j : Fin 32)
  /-- Reads 0, ignores writes. -/
  | reserved
  deriving DecidableEq, Repr

/-- The registers at offsets 0x000 to 0x03C. -/
def mmioScalar (off : Nat) : MmioReg :=
  match off with
  | 0x000 => .id
  | 0x004 => .unitId
  | 0x008 => .ctrl
  | 0x00C => .status
  | 0x010 => .pc
  | 0x014 => .faultPc
  | 0x018 => .faultInfo
  | 0x01C => .cmdcnt
  | 0x020 => .bsp
  | 0x024 => .bse
  | 0x028 => .pos
  | 0x02C => .mv
  | 0x030 => .lc
  | 0x034 => .acc
  | 0x038 => .flags
  | 0x03C => .bvalid
  | _ => .reserved

/-- The plane descriptor register at offset `0x040 + k`, for k below 0x40. -/
def mmioPlane (k : Nat) : MmioReg :=
  let p : Plane := Fin.ofNat 4 (k / 0x10)
  match k % 0x10 with
  | 0x0 => .pdBase p
  | 0x4 => .pdStride p
  | 0x8 => .pdWidth p
  | 0xC => .pdHeight p
  | _ => .reserved

/-- The register at a 4-aligned offset of the block (10_state.md R44). -/
def mmioReg (off : Nat) : MmioReg :=
  if off < 0x040 then mmioScalar off
  else if off < 0x080 then mmioPlane (off - 0x040)
  else if off < 0x400 then .reserved
  else if off < 0x800 then
    .blk (Fin.ofNat 8 ((off - 0x400) / 0x80)) (Fin.ofNat 32 ((off - 0x400) % 0x80 / 4))
  else if off < 0xA00 then
    .qt (Fin.ofNat 4 ((off - 0x800) / 0x80)) (Fin.ofNat 32 ((off - 0x800) % 0x80 / 4))
  else .reserved

/-! ### Packing of fields -/

/-- The number of a fault code (60_exceptions.md R250). -/
def FaultCode.num : FaultCode → BitVec 8
  | .none => 0
  | .busError => 1
  | .illegalOp => 2
  | .uninitBlock => 3
  | .pixBounds => 4
  | .bsOverflow => 5
  | .bsTruncated => 6
  | .bsCorrupt => 7
  | .badParam => 8

/-- Two halves as a word: `hi` in bits 31:16, `lo` in bits 15:0. -/
def packHalves (lo hi : Half) : Word := hi ++ lo

/-- Bits 15:0 of a word. -/
def lowHalf (v : Word) : Half := v.extractLsb' 0 16

/-- Bits 31:16 of a word. -/
def highHalf (v : Word) : Half := v.extractLsb' 16 16

/-- The index of the even entry of word `j`: 2j. -/
def evenIdx (j : Fin 32) : Fin 64 := ⟨2 * j.val, by omega⟩

/-- The index of the odd entry of word `j`: 2j + 1. -/
def oddIdx (j : Fin 32) : Fin 64 := ⟨2 * j.val + 1, by omega⟩

/-- CTRL as the host reads it: START and SRST read 0 (10_state.md R40). -/
def UnitState.ctrlWord (u : UnitState) : Word :=
  0#28 ++ BitVec.ofBool u.sstep ++ BitVec.ofBool u.ie ++ 0#2

/-- STATUS as the host reads it (10_state.md R41). -/
def UnitState.statusWord (u : UnitState) : Word :=
  0#16 ++ u.fcode.num ++ 0#5 ++ BitVec.ofBool u.fault ++ BitVec.ofBool u.done
    ++ BitVec.ofBool u.busy

/-- The eight valid bits, BVALID[n] in bit n (10_state.md R44). -/
def UnitState.bvalidWord (u : UnitState) : Word :=
  (BitVec.ofBoolListLE u.bvalid.toList).setWidth 32

/-! ### Reads -/

/-- What a host read of a register returns, for unit number `self` of `n` units (10_state.md R31, R32, R44
to R47). -/
def UnitState.mmioRead (u : UnitState) (n self : Nat) : MmioReg → Word
  | .id => 0x50465601
  | .unitId => packHalves (BitVec.ofNat 16 self) (BitVec.ofNat 16 n)
  | .ctrl => u.ctrlWord
  | .status => u.statusWord
  | .pc => u.pc
  | .faultPc => u.faultPc
  | .faultInfo => u.faultInfo
  | .cmdcnt => u.cmdcnt
  | .bsp => u.bsp
  | .bse => u.bse
  | .pos => packHalves u.x u.y
  | .mv => packHalves u.dx u.dy
  | .lc => packHalves u.lc0 u.lc1
  | .acc => u.acc
  | .flags => (BitVec.ofBool u.z).setWidth 32
  | .bvalid => u.bvalidWord
  | .pdBase p => u.pd[p].base
  | .pdStride p => u.pd[p].stride.setWidth 32
  | .pdWidth p => u.pd[p].width.setWidth 32
  | .pdHeight p => u.pd[p].height.setWidth 32
  | .blk n j => packHalves u.blocks[n][evenIdx j] u.blocks[n][oddIdx j]
  | .qt t j => packHalves u.qt[t][evenIdx j] u.qt[t][oddIdx j]
  | .reserved => 0

/-! ### Writes -/

/-- A scale factor as it is stored: 0 becomes 1 (10_state.md R27). -/
def floorAtOne (v : Half) : Half := if v = 0 then 1 else v

/-- The start protocol, after the same write's IE and SSTEP have taken effect
(70_reset_and_hazards.md R294). -/
def UnitState.start (u : UnitState) : UnitState :=
  if u.busy || u.fault then u else { u with done := false, busy := true }

/-- A host write to CTRL: SRST resets the unit whatever else the write holds (70 R292); otherwise IE and
SSTEP are written and START is handled (10_state.md R40, 70 R294). -/
def UnitState.writeCtrl (u : UnitState) (v : Word) : UnitState :=
  if v.getLsbD 1 then UnitState.reset
  else
    let u := { u with ie := v.getLsbD 2, sstep := v.getLsbD 3 }
    if v.getLsbD 0 then u.start else u

/-- A host write to STATUS: write 1 to clear DONE and FAULT; clearing FAULT clears FCODE
(10_state.md R41). -/
def UnitState.writeStatus (u : UnitState) (v : Word) : UnitState :=
  { u with
    done := u.done && !v.getLsbD 1
    fault := u.fault && !v.getLsbD 2
    fcode := if v.getLsbD 2 then .none else u.fcode }

/-- A host write of 1 to bits of BVALID clears those registers (10_state.md R24). -/
def UnitState.clearBlocks (u : UnitState) (v : Word) : UnitState :=
  { u with
    blocks := tabulate fun n => if v.getLsbD n.val then Block.zero else u.blocks[n]
    bvalid := tabulate fun n => u.bvalid[n] && !v.getLsbD n.val }

/-- Write fields of plane descriptor `p`. -/
def UnitState.setPlane (u : UnitState) (p : Plane) (f : PlaneDesc → PlaneDesc) : UnitState :=
  { u with pd := u.pd.set p (f u.pd[p]) }

/-- A host write to a register that is written only while the unit is idle (10_state.md R44 to R47). -/
def UnitState.writeIdle (u : UnitState) (v : Word) : MmioReg → UnitState
  | .pc => { u with pc := v &&& 0xFFFFFFFC }
  | .cmdcnt => { u with cmdcnt := v }
  | .bsp => { u with bsp := v }
  | .bse => { u with bse := v }
  | .pos => { u with x := lowHalf v, y := highHalf v }
  | .mv => { u with dx := lowHalf v, dy := highHalf v }
  | .lc => { u with lc0 := lowHalf v, lc1 := highHalf v }
  | .acc => { u with acc := v }
  | .flags => { u with z := v.getLsbD 0 }
  | .bvalid => u.clearBlocks v
  | .pdBase p => u.setPlane p fun d => { d with base := v }
  | .pdStride p => u.setPlane p fun d => { d with stride := lowHalf v }
  | .pdWidth p => u.setPlane p fun d => { d with width := lowHalf v }
  | .pdHeight p => u.setPlane p fun d => { d with height := lowHalf v }
  | .blk n j =>
    u.setBlock n ((u.blocks[n].set (evenIdx j) (lowHalf v)).set (oddIdx j) (highHalf v))
  | .qt t j =>
    u.setTable t ((u.qt[t].set (evenIdx j) (floorAtOne (lowHalf v))).set (oddIdx j)
      (floorAtOne (highHalf v)))
  | .id | .unitId | .ctrl | .status | .faultPc | .faultInfo | .reserved => u

/-- A host write of a register: CTRL and STATUS at any time, every other one only while BUSY = 0
(10_state.md R46, 70_reset_and_hazards.md R296). -/
def UnitState.mmioWrite (u : UnitState) (v : Word) : MmioReg → UnitState
  | .ctrl => u.writeCtrl v
  | .status => u.writeStatus v
  | r => if u.busy then u else u.writeIdle v r

/-! ### Host accesses to a unit -/

/-- The unit whose 4 KiB block holds a host address, and the offset in it (10_state.md R44), searching the
bases from unit number `u` on. Where blocks overlap the lowest unit number answers: DESIGN CHOICE
(log 19), the spec leaves MMIO_BASE to the platform. -/
def unitAtHostAddr (addr : Nat) : (u : Nat) → List Nat → Option (Nat × Nat)
  | _, [] => none
  | u, base :: bases =>
    if base ≤ addr ∧ addr < base + 0x1000 then some (u, addr - base)
    else unitAtHostAddr addr (u + 1) bases

/-- What the start of a run of unit `u` does to a listed write: `u` sees the host's writes (20_memory.md
R81) and those of runs whose end the host has seen (R83), and `u`'s own are of an earlier run. -/
def RaceWrite.atStart (u : Nat) (e : RaceWrite) : RaceWrite :=
  { e with
    hidden := if e.writer = .host ∨ e.seen then e.hidden.filter (· != u) else e.hidden
    past := e.past || e.writer == .unit u }

/-- What the host's seeing the end of a run of unit `u` does to a listed write (20_memory.md R82). -/
def RaceWrite.whenSeen (u : Nat) (e : RaceWrite) : RaceWrite :=
  if e.writer = .unit u then { e with seen := true } else e

/-- Every agent sees the write. -/
def RaceWrite.settled (e : RaceWrite) : Bool :=
  e.hidden.isEmpty && (e.writer == .host || e.seen || e.past)

/-- Take writes off the list that every agent sees, with those they overwrote. -/
def pruneRaces : List RaceWrite → List RaceWrite
  | [] => []
  | e :: es =>
    if e.settled then (pruneRaces es).filter (·.addr != e.addr) else e :: pruneRaces es

/-- A run of the selected unit starts. -/
def State.settleAtStart (s : State) : State :=
  { s with races := pruneRaces (s.races.map (RaceWrite.atStart s.self)) }

/-- The host sees the end of a run of unit `u`. -/
def State.seeEnd (s : State) (u : Nat) : State :=
  { s with races := pruneRaces (s.races.map (RaceWrite.whenSeen u)) }

/-- STATUS shows the end of a run: BUSY = 0 with DONE = 1 or FAULT = 1 (20_memory.md R82). A run that a
reset ended shows neither, so its end is not seen by R82: DESIGN CHOICE (log 21). -/
def UnitState.ended (u : UnitState) : Bool := !u.busy && (u.done || u.fault)

/-- Replace the selected unit after a host access; a run that starts here orders writes before it. -/
def State.afterHostWrite (s : State) (u : UnitState) : State :=
  if u.busy && !s.unit.busy then { s.settleAtStart with unit := u } else { s with unit := u }

/-- Carry out an action on the unit that a host access reaches, with that unit selected. The host address
must be 4-aligned; with a base that is not, `mmioReg` takes the BLK or QT word that holds the offset, and
any other unaligned offset is reserved: DESIGN CHOICE (log 19). -/
def State.hostAccess (s : State) (addr size : Nat) (act : State → MmioReg → State) : Result :=
  if size = 4 ∧ addr % 4 = 0 then
    match unitAtHostAddr addr 0 s.plat.mmioBase with
    | none => .refused (.hostAddressOfNoUnit addr)
    | some (u, off) =>
      match s.select u with
      | none => .fault (.noSuchUnit u)
      | some t => .next (act t (mmioReg off))
  else .refused (.hostAccessNotWord addr size)

/-- A host read of a unit's register block: no state of a unit changes (10_state.md R46), and a read of
STATUS may show the host the end of a run (20_memory.md R82). -/
def State.hostRead (s : State) (addr size : Nat) : Result :=
  s.hostAccess addr size fun t r =>
    let t' := { t with hostData := t.unit.mmioRead t.nUnits t.self r }
    if r = .status ∧ t.unit.ended then t'.seeEnd t.self else t'

/-- A host write to a unit's register block (10_state.md R44 to R47). -/
def State.hostWrite (s : State) (addr size : Nat) (v : Word) : Result :=
  s.hostAccess addr size fun t r => t.afterHostWrite (t.unit.mmioWrite v r)

/-- Hardware reset of unit `u`, between two steps; memory and the other units keep their state
(70_reset_and_hazards.md R290, R291). -/
def State.hardwareReset (s : State) (u : Nat) : Result :=
  match s.select u with
  | none => .fault (.noSuchUnit u)
  | some t => .next { t with unit := UnitState.reset }

/-- The host, or a bus agent that is no unit, writes a byte of memory (20_memory.md R81, R84). -/
def State.hostMemWrite (s : State) (a : Word) (v : Byte) : State :=
  { s.writeAs .host (.store 0) a v with draws := s.draws + 1 }

/-- The host reads a byte of plain memory: while the run that wrote it is going on it may read an earlier
value (20_memory.md R82, R84, 60_exceptions.md R264). -/
def State.hostMemRead (s : State) (a : Word) : Result :=
  match s.regionKind a with
  | none => .next { s with hostData := (s.observeAs .host .host a).setWidth 32, draws := s.draws + 1 }
  | some _ => .refused (.hostReadNotMemory a)

/-- The host looks at an interrupt line: it is high only after the writes of the runs that drive it can be
seen (20_memory.md R82, 60_exceptions.md R265). -/
def State.hostLineRead (s : State) (line : Nat) : State :=
  { (s.drivers line).foldl State.seeEnd s with hostData := if s.hostLine line then 1 else 0 }

end Sys2Proof.Machine
end

