-- ==== Sys2Proof/Machine/Sequencer.lean ====
section
/-! DEFINITION. The sequencer: fetching a command word, one step of the selected unit (40_control.md
R130), and the events of the outside world between steps (70_reset_and_hazards.md R319). -/

namespace Sys2Proof.Machine

/-- The command fetch `MemRead(pc, 4)`: bytes pc, pc + 1, pc + 2, pc + 3 in turn, little-endian
(20_memory.md R74, R76). -/
def State.fetch (s : State) : Except Stop Word :=
  match s.readBytes ((List.range 4).map fun i => (.fetch i, s.unit.pc + BitVec.ofNat 32 i)) with
  | .error e => .error e
  | .ok bs => .ok (leWord (bs.getD 0 0) (bs.getD 1 0) (bs.getD 2 0) (bs.getD 3 0))

/-- Run the command a word encodes; ILLEGAL_OP with the word, before any effect, when it encodes none
(30_encoding.md R106, 60_exceptions.md R251). -/
def State.runWord (s : State) (w : Word) : Result :=
  match decodeWord w with
  | .error _ => s.endCommand (.error (.raise .illegalOp w))
  | .ok i => exec i s

/-- One step of the selected unit. An idle unit does nothing and waits for START
(60_exceptions.md R275). -/
def State.unitStep (s : State) : Result :=
  if s.unit.busy then
    match s.fetch with
    | .error e => s.endCommand (.error e)
    | .ok w => s.runWord w
  else .next s

/-- One event of the outside world, already taken off the agenda. -/
def State.handle (s : State) : Event → Result
  | .unitStep u =>
    match s.select u with
    | none => .fault (.noSuchUnit u)
    | some t => t.unitStep
  | .memWrite a v => .next (s.hostMemWrite a v)
  | .memRead a => s.hostMemRead a
  | .lineRead line => .next (s.hostLineRead line)
  | .mmioRead addr size => s.hostRead addr size
  | .mmioWrite addr size v => s.hostWrite addr size v
  | .hwReset u => s.hardwareReset u

/-- What the machine does next: the first event of the agenda, or, with none pending, a step of the
selected unit. -/
def State.advanceMachine (s : State) : Result :=
  match s.agenda with
  | [] => s.unitStep
  | e :: rest => { s with agenda := rest }.handle e

/-- A region that holds one of the four addresses from `pc` on. -/
def Region.holdsFetch (r : Region) (pc : Word) : Bool :=
  (List.range 4).any fun i =>
    let a := (pc + BitVec.ofNat 32 i).toNat
    decide (r.base ≤ a) && decide (a < r.base + r.size)

/-- Write consecutive bytes to memory, addresses modulo 2^32. -/
def Memory.writeBytes (m : Memory) (a : Word) : List Byte → Memory
  | [] => m
  | b :: bs => Memory.writeBytes (m.write a.toNat b) (a + 1) bs

/-- The state with the 32-bit word `w` placed where the next step fetches: the word at pc, no event
pending, the unit started (70_reset_and_hazards.md R294), and no region or race over the word. -/
def State.placeWord (s : State) (w : Word) : State :=
  { s with
    mem := s.mem.writeBytes s.unit.pc (leBytes w)
    plat := { s.plat with
      regions := s.plat.regions.filter fun r => !Region.holdsFetch r s.unit.pc }
    races := s.races.filter fun e =>
      !(List.range 4).any fun i => e.addr == (s.unit.pc + BitVec.ofNat 32 i).toNat
    agenda := []
    unit := { s.unit with busy := true, done := false, fault := false, fcode := .none } }

end Sys2Proof.Machine
end

