-- ==== Sys2Proof/Machine/Step.lean ====
section
/-! DEFINITION. The step of the machine, and the placing of one command word where the next step fetches
it. -/

namespace Sys2Proof.Machine

/-- One step of the machine: the next event of the agenda, or a step of the selected unit
(40_control.md R130, 70_reset_and_hazards.md R319). -/
def step (s : State) : Host.Outcome State Fault Refusal := s.advanceMachine

/-- `s` with the instruction whose bits are `w` (bits from `nbits` on being 0) placed where `step` fetches
next, and everything a unit needs to run it: see log 4. -/
def State.withFetchWord (s : State) (nbits w : Nat) : State :=
  s.placeWord (BitVec.ofNat 32 (w % 2 ^ nbits))

end Sys2Proof.Machine
end

