-- ==== Sys2Proof/Safety.lean ====
section
/-! DEFINITION. What statements about the machine speak of: the invariant of a legal state, the names of
a unit's registers with what each command may write (for frames), and when accesses complete. -/

namespace Sys2Proof.Machine

/-! ### Legal states -/

/-- The status bits as 10_state.md R41 says they are: BUSY excludes DONE and FAULT, DONE and FAULT exclude
each other, and FCODE is a fault's code exactly while FAULT = 1. -/
abbrev UnitState.StatusLegal (u : UnitState) : Prop :=
  (u.busy = true → u.done = false ∧ u.fault = false)
    ∧ ¬ (u.done = true ∧ u.fault = true)
    ∧ (u.fault = true ↔ u.fcode ≠ .none)

/-- A unit as commands, host accesses and reset leave it: pc is 4-aligned (10_state.md R38), every table
entry is at least 1 (R27), the status bits are legal (R41), and an invalid block register is all zero
(R24). -/
abbrev UnitState.Legal (u : UnitState) : Prop :=
  u.pc.toNat % 4 = 0
    ∧ (∀ (t : Table) (k : Fin 64), 1 ≤ u.qt[t][k].toNat)
    ∧ u.StatusLegal
    ∧ ∀ n : BReg, u.bvalid[n] = false → u.blocks[n] = Block.zero

/-- The invariant of the machine: every unit is legal, the selected unit's index is one of the units', and
memory has its canonical form. -/
abbrev State.Inv (s : State) : Prop :=
  s.unit.Legal ∧ (∀ u ∈ s.others, u.Legal) ∧ s.self ≤ s.others.length ∧ s.mem.wf = true

/-! ### Registers by name -/

/-- The registers of a unit (10_state.md R20). -/
inductive RegName where
  | block (n : BReg)
  | valid (n : BReg)
  | table (t : Table)
  | plane (p : Plane)
  | x
  | y
  | dx
  | dy
  | lc (n : Counter)
  | acc
  | z
  | pc
  | bsp
  | bse
  | ie
  | sstep
  | busy
  | done
  | fault
  | fcode
  | faultPc
  | faultInfo
  | cmdcnt
  deriving DecidableEq, Repr

/-- The register has the same value in both. -/
def RegName.same (u v : UnitState) : RegName → Prop
  | .block n => v.blocks[n] = u.blocks[n]
  | .valid n => v.bvalid[n] = u.bvalid[n]
  | .table t => v.qt[t] = u.qt[t]
  | .plane p => v.pd[p] = u.pd[p]
  | .x => v.x = u.x
  | .y => v.y = u.y
  | .dx => v.dx = u.dx
  | .dy => v.dy = u.dy
  | .lc n => v.counter n = u.counter n
  | .acc => v.acc = u.acc
  | .z => v.z = u.z
  | .pc => v.pc = u.pc
  | .bsp => v.bsp = u.bsp
  | .bse => v.bse = u.bse
  | .ie => v.ie = u.ie
  | .sstep => v.sstep = u.sstep
  | .busy => v.busy = u.busy
  | .done => v.done = u.done
  | .fault => v.fault = u.fault
  | .fcode => v.fcode = u.fcode
  | .faultPc => v.faultPc = u.faultPc
  | .faultInfo => v.faultInfo = u.faultInfo
  | .cmdcnt => v.cmdcnt = u.cmdcnt

/-- The registers the step around every command may write: pc, CMDCNT, and, when a single step ends the
run, BUSY and DONE (40_control.md R130). -/
def stepRegs : List RegName := [.pc, .cmdcnt, .busy, .done]

/-- The registers a fault writes (60_exceptions.md R256; pc is written with the value it has). -/
def faultRegs : List RegName := [.busy, .fault, .fcode, .faultPc, .faultInfo]

/-- The registers a command's own rule writes, beside `stepRegs` (10_state.md R25, R28, R33 to R39). -/
def writesOf : Instr → List RegName
  | .nop | .halt | .jmp _ | .bz _ | .bnz _ | .stpx _ _ => []
  | .setlc n _ | .djnz n _ => [.lc n]
  | .setx _ | .addx _ => [.x]
  | .sety _ | .addy _ => [.y]
  | .setmv _ _ => [.dx, .dy]
  | .ldpx d _ _ _ | .mov d _ | .clr d | .sub d _ _ | .addc d _ _ | .fdct d _ | .idct d _ _
  | .dequant d _ _ => [.block d, .valid d]
  | .quant d _ _ => [.block d, .valid d, .z]
  | .sad _ _ => [.acc, .z]
  | .qgen t _ => [.table t]
  | .encb _ | .encmv => [.bsp, .acc, .z]
  | .decb d => [.block d, .valid d, .bsp, .acc, .z]
  | .decmv => [.dx, .dy, .bsp, .acc, .z]
  | .msrch _ _ _ => [.dx, .dy, .acc, .z]

/-- The command stores to system memory (60_exceptions.md R258). -/
def storesOf : Instr → Bool
  | .stpx _ _ | .encb _ | .encmv => true
  | _ => false

/-- The command may change pc by other than `pc + 4` (10_state.md R38). -/
def branches : Instr → Bool
  | .jmp _ | .bz _ | .bnz _ | .djnz _ _ => true
  | _ => false

/-- What no command of a unit touches, whether it completes or faults: the other units, the platform, the
pending events and the host's data (00_scope.md R5). -/
abbrev State.SameOutside (s t : State) : Prop :=
  t.self = s.self ∧ t.others = s.others ∧ t.plat = s.plat ∧ t.agenda = s.agenda
    ∧ t.hostData = s.hostData

/-! ### Accesses -/

/-- A byte read at the address completes: BusOK holds and the address is plain memory
(20_memory.md R76). -/
abbrev State.Plain (s : State) (a : Word) : Prop := s.denies a = none

/-- A byte write at the address completes (20_memory.md R76). -/
abbrev State.Writable (s : State) (a : Word) : Prop := s.deniesWrite a = none

/-- No racing write leaves the byte open for the selected unit (20_memory.md R84). -/
abbrev State.Settled (s : State) (a : Word) : Prop := s.staleAt a.toNat = []

/-- The address is plain memory and its byte is settled: reading it gives the byte memory holds. -/
abbrev State.Readable (s : State) (a : Word) : Prop := s.Plain a ∧ s.Settled a

/-- The address may be written and its byte is settled: a byte written there stays. -/
abbrev State.Storable (s : State) (a : Word) : Prop := s.Writable a ∧ s.Settled a

/-- The platform maps nothing of what the spec leaves outside the model (20_memory.md R71, R77). -/
abbrev State.NothingRefused (s : State) : Prop := ∀ r ∈ s.plat.regions, r.kind = .hole

/-- The machine goes on. -/
def goesOn (r : Result) : Prop := ∃ t, r = .next t

end Sys2Proof.Machine
end

