-- ==== Sys2Proof/Certificates/Slice0/Obligations.lean ====
section
/-! DEFINITION. The statements about PFV-BK, one definition per obligation. Each docstring names the rules
of spec/ it formalises. A unit is `s.unit`; `elem b i` is element i of a block as a signed integer;
`s.mem.read a` is the byte at address a.

Premises that speak of the model's own conventions, each one a log entry: `s.agenda = []` (no event from
outside is pending: log 5), `s.Plain a` (a byte read at a completes: logs 1 and 8), `s.Writable a` (a byte
write at a completes), `s.Settled a` (no racing write leaves the byte open: log 7), `s.Readable a` (a read
completes and the byte is settled), and `s.mem.wf` (memory is in its canonical form: log 3). -/

open Sys2Proof Sys2Proof.Machine

/-- The command takes the fault of the given code and information and does nothing else
(60_exceptions.md R256). -/
def faultsWith (s : State) (i : Instr) (code : FaultCode) (info : Word) : Prop :=
  ∃ t, exec i s = .next t ∧ t.unit.fcode = code ∧ t.unit.faultInfo = info
    ∧ t.unit.faultPc = s.unit.pc ∧ t.unit.fault = true ∧ t.unit.busy = false ∧ t.mem = s.mem
    ∧ ∀ r : RegName, r ∉ faultRegs → r.same s.unit t.unit

/-! ### Encoding -/

/-- R105, R106: a word decodes exactly when it matches a row of the opcode map and is not LDPX with H = 1
and M = 0. -/
def Obligations.WordDecodesIffRowMatches : Prop :=
  ∀ w : Word, (∃ i, decodeWord w = .ok i) ↔
    (∃ r ∈ opRows, w &&& r.mask = r.pat)
      ∧ ¬ (w.extractLsb' 24 8 = 0x10 ∧ w.getLsbD 11 = true ∧ w.getLsbD 12 = false)

/-- R102 to R105: every legal command, with every operand at every value, is decoded from the word that
encodes it. -/
def Obligations.DecodeOfEncode : Prop :=
  ∀ i : Instr, i.WellFormed → decodeWord (encode i) = .ok i

/-- R105, R106: every word that decodes is the one encoding of its command, so no bit of it is dropped. -/
def Obligations.EncodeOfDecode : Prop :=
  ∀ (w : Word) (i : Instr), decodeWord w = .ok i → encode i = w ∧ i.WellFormed

/-- Words that the spec writes out with their commands (40 R134 to R143, 44 R223 to R230, 42 R176). -/
def Obligations.SpecWordsDecode : Prop :=
  decodeWord 0x02000003 = .ok (.jmp 3)
    ∧ decodeWord 0x05010004 = .ok (.setlc .lc1 4)
    ∧ decodeWord 0x067FFFFC = .ok (.djnz .lc0 (-4))
    ∧ decodeWord 0x0CFFC000 = .ok (.setmv (-4) 0)
    ∧ decodeWord 0x10001000 = .ok (.ldpx 0 0 true false)
    ∧ decodeWord 0x110C4000 = .ok (.stpx 3 2)
    ∧ decodeWord 0x18408000 = .ok (.sub 2 0 1)
    ∧ decodeWord 0x2A002032 = .ok (.qgen 1 50)
    ∧ decodeWord 0x38000804 = .ok (.msrch 0 1 4)

/-! ### The step -/

/-- R130, R74, R319: when the next event is a step of a unit, or no event is pending and the unit is the
selected one (log 5, log 6), and that unit is busy and its four bytes at pc are readable and form a word
that decodes to `i`, the step runs exactly `i` on that unit: it adds nothing around it. -/
def Obligations.StepRunsTheDecodedCommand : Prop :=
  ∀ (s v : State) (i : Instr),
    (s.agenda = [] ∧ v = s
      ∨ ∃ u rest, s.agenda = .unitStep u :: rest
        ∧ ({ s with agenda := rest } : State).select u = some v) →
    v.unit.busy = true →
    (∀ k < 4, v.Readable (v.unit.pc + BitVec.ofNat 32 k)) →
    decodeWord (v.mem.read (v.unit.pc + 3).toNat ++ v.mem.read (v.unit.pc + 2).toNat
      ++ v.mem.read (v.unit.pc + 1).toNat ++ v.mem.read v.unit.pc.toNat) = .ok i →
    step s = exec i v

/-- R106, R251, R256: a fetched word that is no legal encoding raises ILLEGAL_OP with the word as its
information, and nothing but the fault entry happens. -/
def Obligations.IllegalWordFaults : Prop :=
  ∀ (s : State) (w : Word), s.agenda = [] → s.unit.busy = true →
    (∀ k < 4, s.Readable (s.unit.pc + BitVec.ofNat 32 k)) →
    w = s.mem.read (s.unit.pc + 3).toNat ++ s.mem.read (s.unit.pc + 2).toNat
      ++ s.mem.read (s.unit.pc + 1).toNat ++ s.mem.read s.unit.pc.toNat →
    (∀ i, decodeWord w ≠ .ok i) →
    ∃ t, step s = .next t ∧ t.unit.fcode = .illegalOp ∧ t.unit.faultInfo = w
      ∧ t.unit.faultPc = s.unit.pc ∧ t.unit.fault = true ∧ t.unit.busy = false
      ∧ (∀ r : RegName, r ∉ faultRegs → r.same s.unit t.unit) ∧ t.mem = s.mem ∧ s.SameOutside t

/-- R252, R76: when byte k of the command is the first of the four whose BusOK is false, the step raises
BUS_ERROR with FAULT_PC the command's address and that byte's address as its information. -/
def Obligations.FetchBusErrorNamesFirstByte : Prop :=
  ∀ (s : State) (k : Nat), s.agenda = [] → s.unit.busy = true → k < 4 →
    s.busOK (s.unit.pc + BitVec.ofNat 32 k) = false →
    (∀ j < k, s.Plain (s.unit.pc + BitVec.ofNat 32 j)) →
    ∃ t, step s = .next t ∧ t.unit.fcode = .busError ∧ t.unit.faultPc = s.unit.pc
      ∧ t.unit.faultInfo = s.unit.pc + BitVec.ofNat 32 k ∧ t.unit.fault = true
      ∧ t.unit.busy = false ∧ (∀ r : RegName, r ∉ faultRegs → r.same s.unit t.unit) ∧ t.mem = s.mem

/-- R275, R146, R256: with no event pending (log 5) an idle unit's step changes nothing at all (log 16);
and with nothing on the platform that the spec leaves outside the model (log 8), the machine always goes
on: no command is refused and no state is stuck. -/
def Obligations.EveryStepGoesOn : Prop :=
  ∀ s : State, s.agenda = [] → (s.unit.busy = false → step s = .next s)
    ∧ (s.NothingRefused → goesOn (step s))

/-! ### Reset and the invariant -/

/-- R48: every register of a unit after a hardware reset (`State.reset`) and after a soft reset (a host
write of SRST = 1). -/
def Obligations.ResetValues : Prop :=
  ∀ r : UnitState, (r = State.reset.unit
      ∨ ∃ (u : UnitState) (v : Word), v.getLsbD 1 = true ∧ r = u.mmioWrite v .ctrl) →
  (∀ (n : BReg) (i : Fin 64), elem r.blocks[n] i = 0)
    ∧ (∀ n : BReg, r.bvalid[n] = false)
    ∧ (∀ (t : Table) (k : Fin 64), r.qt[t][k].toNat = 1)
    ∧ (∀ p : Plane, r.pd[p] = ⟨0, 0, 0, 0⟩)
    ∧ [r.x, r.y, r.dx, r.dy, r.lc0, r.lc1] = [0, 0, 0, 0, 0, 0]
    ∧ [r.acc, r.pc, r.bsp, r.bse, r.faultPc, r.faultInfo, r.cmdcnt] = [0, 0, 0, 0, 0, 0, 0]
    ∧ [r.z, r.ie, r.sstep, r.busy, r.done, r.fault] = [false, false, false, false, false, false]
    ∧ r.fcode = .none

/-- The invariant holds at reset. The platform and the empty memory of `State.reset` are the model's choice
(logs 2 and 3); the registers are R48's. -/
def Obligations.InvAtReset : Prop := State.reset.Inv

/-- R24, R27, R38, R41: every step, whatever the unit runs and whatever the host does, keeps the invariant:
pc 4-aligned, every table entry at least 1, BUSY, DONE, FAULT and FCODE legal together, invalid blocks
zero, and memory canonical. -/
def Obligations.EveryStepKeepsInv : Prop :=
  ∀ s t : State, s.Inv → step s = .next t → t.Inv

/-! ### What every command leaves unchanged -/

/-- R9, R37, R43, R256, R257: a command that answers a next state either completes (CMDCNT + 1, and only
its own registers and the step's change; pc + 4 unless it branches) or faults (FAULT 1, BUSY 0, FAULT_PC
the command's address, and no register but the fault's changes). -/
def Obligations.CommandWritesOnlyItsRegisters : Prop :=
  ∀ (i : Instr) (s t : State), exec i s = .next t →
    (t.unit.cmdcnt = s.unit.cmdcnt + 1
        ∧ (branches i = false → t.unit.pc = s.unit.pc + 4)
        ∧ ∀ r : RegName, r ∉ stepRegs → r ∉ writesOf i → r.same s.unit t.unit)
      ∨ (t.unit.fault = true ∧ t.unit.fcode ≠ .none ∧ t.unit.busy = false
        ∧ t.unit.faultPc = s.unit.pc ∧ ∀ r : RegName, r ∉ faultRegs → r.same s.unit t.unit)

/-- R5, R70, R71: a command changes nothing outside its unit but memory and the model's own race
bookkeeping (log 7); and a command that is not STPX, ENCB or ENCMV changes no byte of memory and no race. -/
def Obligations.OnlyStoresTouchMemory : Prop :=
  ∀ (i : Instr) (s t : State), exec i s = .next t →
    s.SameOutside t ∧ (storesOf i = false → t.mem = s.mem ∧ t.races = s.races)

/-- R130, R272: with SSTEP set, a command of a running unit that completes ends the run with DONE = 1 and
BUSY = 0; with SSTEP clear, every command but HALT that completes leaves BUSY and DONE alone. -/
def Obligations.SingleStepEndsTheRun : Prop :=
  ∀ (i : Instr) (s t : State), exec i s = .next t → t.unit.cmdcnt = s.unit.cmdcnt + 1 →
    (s.unit.busy = true → s.unit.sstep = true → t.unit.busy = false ∧ t.unit.done = true)
      ∧ (s.unit.sstep = false → i ≠ .halt →
          t.unit.busy = s.unit.busy ∧ t.unit.done = s.unit.done)

/-! ### Control commands -/

/-- R131: NOP completes, moving pc by 4 and counting one command; no other register changes but BUSY and DONE
at the end of a single step (R130), and without SSTEP those do not change either. -/
def Obligations.NopOnlyAdvances : Prop :=
  ∀ s : State, ∃ t, exec .nop s = .next t ∧ t.unit.pc = s.unit.pc + 4
    ∧ t.unit.cmdcnt = s.unit.cmdcnt + 1 ∧ t.mem = s.mem
    ∧ (∀ r : RegName, r ∉ stepRegs → r.same s.unit t.unit)
    ∧ (s.unit.sstep = false → t.unit.busy = s.unit.busy ∧ t.unit.done = s.unit.done)

/-- R132: HALT ends the run: pc past it, BUSY 0, DONE 1, counted in CMDCNT; with IE set the
interrupt line is high. -/
def Obligations.HaltEndsTheRun : Prop :=
  ∀ s : State, ∃ t, exec .halt s = .next t ∧ t.unit.pc = s.unit.pc + 4
    ∧ t.unit.busy = false ∧ t.unit.done = true ∧ t.unit.cmdcnt = s.unit.cmdcnt + 1
    ∧ t.mem = s.mem ∧ (s.unit.ie = true → t.unit.irq = true)
    ∧ ∀ r : RegName, r ∉ stepRegs → r.same s.unit t.unit

/-- R133 to R136: JMP goes to `(pc + 4 + 4·off24) mod 2^32`; BZ does so exactly when Z = 1 and BNZ exactly
when Z = 0, and otherwise they go on at pc + 4; none writes any other register. -/
def Obligations.JumpsAndBranches : Prop :=
  ∀ (off : BitVec 24) (s : State), ∃ tj tz tn,
    exec (.jmp off) s = .next tj ∧ exec (.bz off) s = .next tz ∧ exec (.bnz off) s = .next tn
      ∧ (tj.unit.pc.toNat : Int) = (s.unit.pc.toNat + 4 + 4 * off.toInt) % 2 ^ 32
      ∧ tz.unit.pc = (if s.unit.z then tj.unit.pc else s.unit.pc + 4)
      ∧ tn.unit.pc = (if s.unit.z then s.unit.pc + 4 else tj.unit.pc)
      ∧ ∀ t ∈ [tj, tz, tn], t.mem = s.mem ∧ ∀ r : RegName, r ∉ stepRegs → r.same s.unit t.unit

/-- R137: SETLC writes the counter that n selects, and nothing else. -/
def Obligations.SetlcLoadsTheCounter : Prop :=
  ∀ (n : Counter) (imm : Half) (s : State), ∃ t, exec (.setlc n imm) s = .next t
    ∧ t.unit.counter n = imm ∧ t.unit.pc = s.unit.pc + 4 ∧ t.mem = s.mem
    ∧ ∀ r : RegName, r ∉ stepRegs → r ≠ .lc n → r.same s.unit t.unit

/-- R138, R133: DJNZ decrements the counter modulo 2^16 and branches exactly when the result is not 0; Z
and the other counter keep their values. -/
def Obligations.DjnzDecrementsAndBranches : Prop :=
  ∀ (n : Counter) (off : BitVec 23) (s : State), ∃ t, exec (.djnz n off) s = .next t
    ∧ (t.unit.counter n).toNat = ((s.unit.counter n).toNat + 65535) % 65536
    ∧ (if (s.unit.counter n).toNat = 1 then t.unit.pc = s.unit.pc + 4
       else (t.unit.pc.toNat : Int) = (s.unit.pc.toNat + 4 + 4 * off.toInt) % 2 ^ 32)
    ∧ t.mem = s.mem ∧ ∀ r : RegName, r ∉ stepRegs → r ≠ .lc n → r.same s.unit t.unit

/-- R139 to R142: SETX and SETY load X and Y; ADDX and ADDY add to them modulo 2^16. -/
def Obligations.PositionCommands : Prop :=
  ∀ (imm : Half) (s : State), ∃ tx ty ax ay,
    exec (.setx imm) s = .next tx ∧ exec (.sety imm) s = .next ty
      ∧ exec (.addx imm) s = .next ax ∧ exec (.addy imm) s = .next ay
      ∧ tx.unit.x = imm ∧ ty.unit.y = imm
      ∧ ax.unit.x.toNat = (s.unit.x.toNat + imm.toNat) % 65536
      ∧ ay.unit.y.toNat = (s.unit.y.toNat + imm.toNat) % 65536
      ∧ (∀ t ∈ [tx, ax], t.unit.pc = s.unit.pc + 4 ∧ t.mem = s.mem
          ∧ ∀ r : RegName, r ∉ stepRegs → r ≠ .x → r.same s.unit t.unit)
      ∧ (∀ t ∈ [ty, ay], t.unit.pc = s.unit.pc + 4 ∧ t.mem = s.mem
          ∧ ∀ r : RegName, r ∉ stepRegs → r ≠ .y → r.same s.unit t.unit)

/-- R143: SETMV stores both 12-bit components sign-extended in DX and DY. -/
def Obligations.SetmvSignExtends : Prop :=
  ∀ (dx dy : BitVec 12) (s : State), ∃ t, exec (.setmv dx dy) s = .next t
    ∧ t.unit.dx.toInt = dx.toInt ∧ t.unit.dy.toInt = dy.toInt
    ∧ t.unit.pc = s.unit.pc + 4 ∧ t.mem = s.mem
    ∧ ∀ r : RegName, r ∉ stepRegs → r ≠ .dx → r ≠ .dy → r.same s.unit t.unit

/-! ### Block registers -/

/-- R253, R23, R256: every command that reads a block register whose valid bit is 0 raises UNINIT_BLOCK
with its number, source a before source b, and writes no other register and no memory. -/
def Obligations.InvalidSourceFaults : Prop :=
  ∀ (s : State) (a b d : BReg) (p : Plane) (t : Table) (c : Bool) (n : BReg) (i : Instr),
    ((i ∈ [.mov d a, .fdct d a, .idct d a c, .quant d a t, .dequant d a t, .encb a, .stpx a p]
        ∧ s.unit.bvalid[a] = false ∧ n = a)
      ∨ (i ∈ [.sub d a b, .addc d a b, .sad a b]
        ∧ ((s.unit.bvalid[a] = false ∧ n = a)
          ∨ (s.unit.bvalid[a] = true ∧ s.unit.bvalid[b] = false ∧ n = b)))) →
    ∃ s', exec i s = .next s' ∧ s'.unit.fcode = .uninitBlock
      ∧ s'.unit.faultInfo.toNat = n.val ∧ s'.unit.faultPc = s.unit.pc ∧ s'.unit.fault = true
      ∧ s'.unit.busy = false ∧ (∀ r : RegName, r ∉ faultRegs → r.same s.unit s'.unit) ∧ s'.mem = s.mem

/-- R225, R226: MOV copies a valid register, also onto itself; CLR writes 64 zeros and makes the register
valid. -/
def Obligations.MovCopiesAndClrZeroes : Prop :=
  ∀ (d a : BReg) (s : State),
    (s.unit.bvalid[a] = true → ∃ t, exec (.mov d a) s = .next t
      ∧ t.unit.blocks[d] = s.unit.blocks[a] ∧ t.unit.bvalid[d] = true
      ∧ t.unit.pc = s.unit.pc + 4)
    ∧ ∃ t, exec (.clr d) s = .next t ∧ (∀ i, elem t.unit.blocks[d] i = 0)
      ∧ t.unit.bvalid[d] = true ∧ t.unit.pc = s.unit.pc + 4

/-- R227, R228: SUB saturates the difference to int16 and ADDC clamps the sum to [0, 255], element by
element, whatever registers source and destination are. -/
def Obligations.SubSaturatesAndAddcClamps : Prop :=
  ∀ (d a b : BReg) (s : State), s.unit.bvalid[a] = true → s.unit.bvalid[b] = true →
    ∃ ts ta, exec (.sub d a b) s = .next ts ∧ exec (.addc d a b) s = .next ta
      ∧ (∀ i, elem ts.unit.blocks[d] i
          = min 32767 (max (-32768) (elem s.unit.blocks[a] i - elem s.unit.blocks[b] i)))
      ∧ (∀ i, elem ta.unit.blocks[d] i
          = min 255 (max 0 (elem s.unit.blocks[a] i + elem s.unit.blocks[b] i)))
      ∧ ∀ t ∈ [ts, ta], t.unit.bvalid[d] = true ∧ t.unit.pc = s.unit.pc + 4

/-- R229, R36, R37: SAD puts the sum of absolute differences, at most 4194240, in ACC, and Z says whether
it is 0. -/
def Obligations.SadSumsDifferences : Prop :=
  ∀ (a b : BReg) (s : State), s.unit.bvalid[a] = true → s.unit.bvalid[b] = true →
    ∃ t, exec (.sad a b) s = .next t
      ∧ (t.unit.acc.toNat : Int)
          = ∑ i : Fin 64, |elem s.unit.blocks[a] i - elem s.unit.blocks[b] i|
      ∧ t.unit.acc.toNat ≤ 4194240
      ∧ (t.unit.z = true ↔ t.unit.acc = 0) ∧ t.unit.pc = s.unit.pc + 4

/-! ### Transform -/

/-- R150, R151, R153: FDCT computes the two rounded passes with the integer basis and saturates to int16;
row v, column u of the destination is the coefficient of frequencies v and u. -/
def Obligations.FdctComputesTheTransform : Prop :=
  ∀ (d a : BReg) (s : State), s.unit.bvalid[a] = true →
    ∃ t, exec (.fdct d a) s = .next t ∧ t.unit.bvalid[d] = true ∧ t.unit.pc = s.unit.pc + 4
      ∧ ∀ v u : Fin 8, elem t.unit.blocks[d] (rasterIdx v u)
          = sat16 (((∑ r : Fin 8, dctc v r *
              (((∑ c : Fin 8, dctc u c * elem s.unit.blocks[a] (rasterIdx r c)) + 512) / 1024))
            + 32768) / 65536)

/-- R152, R154: IDCT computes the two rounded passes of the inverse transform and clamps to [0, 255] when
C = 1 or saturates to int16 when C = 0. -/
def Obligations.IdctComputesTheTransform : Prop :=
  ∀ (d a : BReg) (c : Bool) (s : State), s.unit.bvalid[a] = true →
    ∃ t, exec (.idct d a c) s = .next t ∧ t.unit.bvalid[d] = true ∧ t.unit.pc = s.unit.pc + 4
      ∧ ∀ r k : Fin 8, elem t.unit.blocks[d] (rasterIdx r k)
          = (if c then clamp8 else sat16) (((∑ v : Fin 8, dctc v r *
              (((∑ u : Fin 8, dctc u k * elem s.unit.blocks[a] (rasterIdx v u)) + 512) / 1024))
            + 32768) / 65536)

/-- R156: for a block whose every element is in [-255, 255], every T of the first pass is in [-5769, 5769]
and every coefficient F in [-2039, 2039], so FDCT never saturates on samples or residuals. -/
def Obligations.FdctOfSamplesNeverSaturates : Prop :=
  ∀ b : Block, (∀ i, -255 ≤ elem b i ∧ elem b i ≤ 255) →
    (∀ r u : Fin 8, -5769 ≤ fdctRow b r u ∧ fdctRow b r u ≤ 5769)
      ∧ (∀ v u : Fin 8, -2039 ≤ fdctCol b v u ∧ fdctCol b v u ≤ 2039)
      ∧ ∀ v u : Fin 8, elem (fdct b) (rasterIdx v u) = fdctCol b v u

/-! ### Quantizer -/

/-- R170, R171, R173, R37: QUANT divides the element at raster index ZZ[k] by the table's entry k, rounding
to nearest with ties away from zero, and Z says whether every level is 0. The entries are at least 1 in
every legal state (R27). -/
def Obligations.QuantRoundsToNearest : Prop :=
  ∀ (d a : BReg) (q : Table) (s : State), s.unit.bvalid[a] = true →
    (∀ k : Fin 64, 1 ≤ s.unit.qt[q][k].toNat) →
    ∃ t, exec (.quant d a q) s = .next t ∧ t.unit.bvalid[d] = true ∧ t.unit.pc = s.unit.pc + 4
      ∧ (∀ k : Fin 64,
          let v := elem s.unit.blocks[a] (zz k)
          let f : Int := s.unit.qt[q][k].toNat
          elem t.unit.blocks[d] (zz k) = v.sign * ((|v| + f / 2) / f))
      ∧ (t.unit.z = true ↔ ∀ i, elem t.unit.blocks[d] i = 0)

/-- R172, R174: DEQUANT multiplies the element at raster index ZZ[k] by the table's entry k and saturates
to int16; Z keeps its value. -/
def Obligations.DequantMultiplies : Prop :=
  ∀ (d a : BReg) (q : Table) (s : State), s.unit.bvalid[a] = true →
    ∃ t, exec (.dequant d a q) s = .next t ∧ t.unit.bvalid[d] = true
      ∧ t.unit.pc = s.unit.pc + 4 ∧ t.unit.z = s.unit.z
      ∧ ∀ k : Fin 64, elem t.unit.blocks[d] (zz k)
          = min 32767 (max (-32768)
              (elem s.unit.blocks[a] (zz k) * (s.unit.qt[q][k].toNat : Int)))

/-- R175, R176: QGEN with a quality of at most 100 writes the derived table, every entry in 1..158; above
100 it raises BAD_PARAM with the command word and the table keeps its value. -/
def Obligations.QgenDerivesTheTable : Prop :=
  ∀ (q : Table) (v : BitVec 7) (s : State), ∃ t, exec (.qgen q v) s = .next t
    ∧ (if v.toNat ≤ 100 then
        t.unit.pc = s.unit.pc + 4 ∧ t.unit.cmdcnt = s.unit.cmdcnt + 1
          ∧ ∀ k : Fin 64, t.unit.qt[q][k].toNat
              = max 1 (((16 + k.val) * (100 - v.toNat) + 25) / 50)
            ∧ 1 ≤ t.unit.qt[q][k].toNat ∧ t.unit.qt[q][k].toNat ≤ 158
      else
        t.unit.fcode = .badParam ∧ t.unit.fault = true ∧ t.unit.busy = false
          ∧ t.unit.faultInfo = 0x2A000000 + BitVec.ofNat 32 (q.val * 8192 + v.toNat)
          ∧ t.unit.faultPc = s.unit.pc ∧ ∀ r : RegName, r ∉ faultRegs → r.same s.unit t.unit)

/-- R177, R179: a higher quality never gives a larger scale factor; and with the table of quality 100
(every entry 1) quantizing and then dequantizing gives back every block. -/
def Obligations.QgenMonotoneAndIdentity : Prop :=
  (∀ (v w : Nat) (k : Fin 64), v ≤ w → w ≤ 100 → (qgen w)[k].toNat ≤ (qgen v)[k].toNat)
    ∧ (∀ k : Fin 64, (qgen 100)[k].toNat = 1)
    ∧ ∀ b : Block, dequant (quant b (qgen 100)) (qgen 100) = b

/-! ### Entropy coder -/

/-- R190: the code of v has 2n - 1 bits, n the number of binary digits of v + 1: n - 1 zeros and then the
digits of v + 1, most significant first. -/
def Obligations.UeIsExpGolomb : Prop :=
  ∀ v n : Nat, 2 ^ n ≤ v + 1 → v + 1 < 2 ^ (n + 1) →
    (ue v).length = 2 * n + 1
      ∧ (∀ i < n, (ue v)[i]? = some false)
      ∧ ∀ i ≤ n, (ue v)[n + i]? = some (decide ((v + 1) / 2 ^ (n - i) % 2 = 1))

/-- R201: the length of a codeword triple; a magnitude takes at most 31 bits; the all-zero block codes in
one bit, the byte 0x80; a block codes in 1 to 281 bytes, and in 2241 bits, 281 bytes, when every level is
-32768. -/
def Obligations.BlockCodeLengthBounds : Prop :=
  (∀ (run : Nat) (v : Int), v ≠ 0 →
      (levelBits run v).length = (ue (run + 1)).length + (ue (v.natAbs - 1)).length + 1)
    ∧ (∀ m : Nat, 1 ≤ m → m ≤ 32768 → (ue (m - 1)).length ≤ 31)
    ∧ (∀ b : Block, (∀ i, elem b i = 0) → blockBits b = [true] ∧ pack (blockBits b) = [0x80])
    ∧ (∀ b : Block, 1 ≤ (pack (blockBits b)).length ∧ (pack (blockBits b)).length ≤ 281)
    ∧ ∀ b : Block, (∀ i, elem b i = -32768) →
        (blockBits b).length = 2241 ∧ (pack (blockBits b)).length = 281

/-- R192, R193, R195, R197: ENCB of a valid register whose n code bytes fit the window writes exactly those
bytes at BSP, BSP + 1, ... (each of them that no race leaves open); BSP advances by n, ACC is n, Z says
whether the block is all zero, and no other byte changes. -/
def Obligations.EncbWritesTheBlockCode : Prop :=
  ∀ (a : BReg) (s : State), s.unit.bvalid[a] = true → s.mem.wf = true →
    s.unit.bsp.toNat + (pack (blockBits s.unit.blocks[a])).length ≤ s.unit.bse.toNat →
    (∀ j < (pack (blockBits s.unit.blocks[a])).length,
      s.Writable (s.unit.bsp + BitVec.ofNat 32 j)) →
    ∃ t, exec (.encb a) s = .next t
      ∧ (∀ j (h : j < (pack (blockBits s.unit.blocks[a])).length),
          s.Settled (s.unit.bsp + BitVec.ofNat 32 j) →
          t.mem.read (s.unit.bsp.toNat + j) = (pack (blockBits s.unit.blocks[a]))[j])
      ∧ (∀ x, (x < s.unit.bsp.toNat
            ∨ s.unit.bsp.toNat + (pack (blockBits s.unit.blocks[a])).length ≤ x) →
          t.mem.read x = s.mem.read x)
      ∧ t.unit.bsp.toNat = s.unit.bsp.toNat + (pack (blockBits s.unit.blocks[a])).length
      ∧ t.unit.acc.toNat = (pack (blockBits s.unit.blocks[a])).length
      ∧ (t.unit.z = true ↔ ∀ i, elem s.unit.blocks[a] i = 0)
      ∧ t.unit.pc = s.unit.pc + 4

/-- R194, R199: ENCMV does the same with the code of DX and DY; Z says whether both are 0. -/
def Obligations.EncmvWritesTheOffsetCode : Prop :=
  ∀ s : State, s.mem.wf = true →
    s.unit.bsp.toNat + (pack (mvBits s.unit.dx.toInt s.unit.dy.toInt)).length
      ≤ s.unit.bse.toNat →
    (∀ j < (pack (mvBits s.unit.dx.toInt s.unit.dy.toInt)).length,
      s.Writable (s.unit.bsp + BitVec.ofNat 32 j)) →
    ∃ t, exec .encmv s = .next t
      ∧ (∀ j (h : j < (pack (mvBits s.unit.dx.toInt s.unit.dy.toInt)).length),
          s.Settled (s.unit.bsp + BitVec.ofNat 32 j) →
          t.mem.read (s.unit.bsp.toNat + j)
            = (pack (mvBits s.unit.dx.toInt s.unit.dy.toInt))[j])
      ∧ (∀ x, (x < s.unit.bsp.toNat
            ∨ s.unit.bsp.toNat + (pack (mvBits s.unit.dx.toInt s.unit.dy.toInt)).length ≤ x) →
          t.mem.read x = s.mem.read x)
      ∧ t.unit.bsp.toNat
          = s.unit.bsp.toNat + (pack (mvBits s.unit.dx.toInt s.unit.dy.toInt)).length
      ∧ t.unit.acc.toNat = (pack (mvBits s.unit.dx.toInt s.unit.dy.toInt)).length
      ∧ t.unit.acc.toNat ≤ 9
      ∧ (t.unit.z = true ↔ s.unit.dx = 0 ∧ s.unit.dy = 0)
      ∧ t.unit.pc = s.unit.pc + 4

/-- R197, R199, R203, R255: an encode whose n bytes do not fit raises BS_OVERFLOW with n before any byte is
written. -/
def Obligations.EncodeOverflowWritesNothing : Prop :=
  ∀ (s : State) (i : Instr) (data : List Byte),
    ((∃ a : BReg, i = .encb a ∧ s.unit.bvalid[a] = true
        ∧ data = pack (blockBits s.unit.blocks[a]))
      ∨ (i = .encmv ∧ data = pack (se s.unit.dx.toInt ++ se s.unit.dy.toInt))) →
    s.unit.bse.toNat < s.unit.bsp.toNat + data.length →
    ∃ t, exec i s = .next t ∧ t.unit.fcode = .bsOverflow
      ∧ t.unit.faultInfo.toNat = data.length ∧ t.unit.faultPc = s.unit.pc
      ∧ t.unit.fault = true ∧ t.unit.busy = false ∧ t.mem = s.mem
      ∧ ∀ r : RegName, r ∉ faultRegs → r.same s.unit t.unit

/-- R203, R258: whatever an encode does (complete, overflow, or stop at a bus error), it changes no byte
below BSP and none at or above BSE. -/
def Obligations.EncodeStaysInTheWindow : Prop :=
  ∀ (s t : State) (i : Instr), ((∃ a, i = .encb a) ∨ i = .encmv) → s.mem.wf = true →
    exec i s = .next t →
    ∀ x, (x < s.unit.bsp.toNat ∨ s.unit.bse.toNat ≤ x) → t.mem.read x = s.mem.read x

/-- R198, R204: when the window holds the code of a block, DECB decodes that block, consumes exactly the
code's bytes, and sets Z as the encoder did. -/
def Obligations.DecbDecodesTheBlockCode : Prop :=
  ∀ (d : BReg) (s : State) (b : Block),
    s.unit.bsp.toNat + (pack (blockBits b)).length ≤ s.unit.bse.toNat →
    (∀ j (h : j < (pack (blockBits b)).length), s.Readable (s.unit.bsp + BitVec.ofNat 32 j)
      ∧ s.mem.read (s.unit.bsp.toNat + j) = (pack (blockBits b))[j]) →
    ∃ t, exec (.decb d) s = .next t ∧ t.unit.blocks[d] = b ∧ t.unit.bvalid[d] = true
      ∧ t.unit.bsp.toNat = s.unit.bsp.toNat + (pack (blockBits b)).length
      ∧ t.unit.acc.toNat = (pack (blockBits b)).length
      ∧ (t.unit.z = true ↔ ∀ i, elem b i = 0)
      ∧ t.unit.pc = s.unit.pc + 4

/-- R200, R204: when the window holds the code of an int16 offset, DECMV restores it. -/
def Obligations.DecmvDecodesTheOffsetCode : Prop :=
  ∀ (s : State) (x y : Half),
    s.unit.bsp.toNat + (pack (se x.toInt ++ se y.toInt)).length ≤ s.unit.bse.toNat →
    (∀ j (h : j < (pack (se x.toInt ++ se y.toInt)).length),
      s.Readable (s.unit.bsp + BitVec.ofNat 32 j)
        ∧ s.mem.read (s.unit.bsp.toNat + j) = (pack (se x.toInt ++ se y.toInt))[j]) →
    ∃ t, exec .decmv s = .next t ∧ t.unit.dx = x ∧ t.unit.dy = y
      ∧ t.unit.bsp.toNat = s.unit.bsp.toNat + (pack (se x.toInt ++ se y.toInt)).length
      ∧ t.unit.acc.toNat = (pack (se x.toInt ++ se y.toInt)).length
      ∧ (t.unit.z = true ↔ x = 0 ∧ y = 0)
      ∧ t.unit.pc = s.unit.pc + 4

/-- R204: ENCB of a block followed, with BSP set back to the same start, by DECB gives the block back, with
the same byte count and the same Z, whichever registers the two name; ENCMV and then DECMV restore DX and
DY, whatever the two registers held in between. -/
def Obligations.EncodeThenDecodeRoundTrip : Prop :=
  (∀ (a d : BReg) (s : State), s.unit.bvalid[a] = true → s.mem.wf = true →
    s.unit.bsp.toNat + (pack (blockBits s.unit.blocks[a])).length ≤ s.unit.bse.toNat →
    (∀ j < (pack (blockBits s.unit.blocks[a])).length,
      s.Readable (s.unit.bsp + BitVec.ofNat 32 j)) →
    ∃ t t', exec (.encb a) s = .next t
      ∧ exec (.decb d) { t with unit := { t.unit with bsp := s.unit.bsp } } = .next t'
      ∧ t'.unit.blocks[d] = s.unit.blocks[a] ∧ t'.unit.bvalid[d] = true
      ∧ t'.unit.acc = t.unit.acc ∧ t'.unit.z = t.unit.z ∧ t'.unit.bsp = t.unit.bsp)
    ∧ ∀ (s : State) (x y : Half), s.mem.wf = true →
      s.unit.bsp.toNat + (pack (mvBits s.unit.dx.toInt s.unit.dy.toInt)).length
        ≤ s.unit.bse.toNat →
      (∀ j < (pack (mvBits s.unit.dx.toInt s.unit.dy.toInt)).length,
        s.Readable (s.unit.bsp + BitVec.ofNat 32 j)) →
      ∃ t t', exec .encmv s = .next t
        ∧ exec .decmv { t with unit := { t.unit with bsp := s.unit.bsp, dx := x, dy := y } }
            = .next t'
        ∧ t'.unit.dx = s.unit.dx ∧ t'.unit.dy = s.unit.dy
        ∧ t'.unit.acc = t.unit.acc ∧ t'.unit.z = t.unit.z ∧ t'.unit.bsp = t.unit.bsp

/-- R205: DECB accepts only what ENCB produces, and DECMV only what ENCMV produces: when one completes, in a
window whose bytes are settled, the bytes it consumed are the code of what it decoded. -/
def Obligations.DecodeAcceptsOnlyCodes : Prop :=
  ∀ s t : State, (∀ k, s.unit.bsp.toNat + k < s.unit.bse.toNat →
      s.Settled (s.unit.bsp + BitVec.ofNat 32 k)) →
    t.unit.cmdcnt = s.unit.cmdcnt + 1 →
    (∀ d : BReg, exec (.decb d) s = .next t →
      (pack (blockBits t.unit.blocks[d])).length = t.unit.acc.toNat
        ∧ ∀ j (h : j < (pack (blockBits t.unit.blocks[d])).length),
            s.mem.read (s.unit.bsp.toNat + j) = (pack (blockBits t.unit.blocks[d]))[j])
    ∧ (exec .decmv s = .next t →
      (pack (mvBits t.unit.dx.toInt t.unit.dy.toInt)).length = t.unit.acc.toNat
        ∧ ∀ j (h : j < (pack (mvBits t.unit.dx.toInt t.unit.dy.toInt)).length),
            s.mem.read (s.unit.bsp.toNat + j)
              = (pack (mvBits t.unit.dx.toInt t.unit.dy.toInt))[j])

/-- The bitstream window holds these bits from its start, all readable (43_entropy.md R192, R196). -/
def windowHolds (s : State) (bits : List Bool) : Prop :=
  s.unit.bsp.toNat + (bits.length + 7) / 8 ≤ s.unit.bse.toNat
    ∧ ∀ j (h : j < bits.length), s.Readable (s.unit.bsp + BitVec.ofNat 32 (j / 8))
      ∧ (s.mem.read (s.unit.bsp.toNat + j / 8)).getLsbD (7 - j % 8) = bits[j]

/-- The codeword triples of (zeros before, level) pairs (43_entropy.md R193). -/
def tripleBits (l : List (Nat × Int)) : List Bool := l.flatMap fun t => levelBits t.1 t.2

/-- The zig-zag positions the triples take up. -/
def tripleSpan (l : List (Nat × Int)) : Nat := (l.map fun t => t.1 + 1).sum

/-- Triples that ENCB can produce: nonzero int16 levels in at most 64 positions. -/
def legalTriples (l : List (Nat × Int)) : Prop :=
  (∀ t ∈ l, t.2 ≠ 0 ∧ -32768 ≤ t.2 ∧ t.2 ≤ 32767) ∧ tripleSpan l ≤ 64

/-- The bits end with a 1 in the padding after `n` code bits: `z` zeros and then the 1, before the next byte
boundary (43_entropy.md R196 `Finish`). -/
def badPadding (n z : Nat) : Prop := n % 8 ≠ 0 ∧ n % 8 + z < 8

/-- Bits at whose last one DECB finds that they are no block code: after legal triples, a 17th zero in
the run or in the magnitude, a run past position 63, a level outside int16, or a 1 in the padding
(43_entropy.md R196, R198). -/
def corruptBlock (bits : List Bool) : Prop :=
  ∃ l, legalTriples l ∧
    (bits = tripleBits l ++ List.replicate 17 false
    ∨ (∃ r, 1 ≤ r ∧ r + 1 < 2 ^ 17 ∧ 64 < tripleSpan l + r ∧ bits = tripleBits l ++ ue r)
    ∨ (∃ run, tripleSpan l + run ≤ 63
        ∧ bits = tripleBits l ++ ue (run + 1) ++ List.replicate 17 false)
    ∨ (∃ run mag neg, tripleSpan l + run ≤ 63 ∧ 32768 ≤ mag ∧ mag < 2 ^ 17
        ∧ (mag = 32768 → neg = false)
        ∧ bits = tripleBits l ++ ue (run + 1) ++ ue (mag - 1) ++ [neg])
    ∨ ∃ z, badPadding ((tripleBits l).length + 1) z
        ∧ bits = tripleBits l ++ ue 0 ++ List.replicate z false ++ [true])

/-- Bits at whose last one DECMV finds that they are no motion code: a 17th zero or a component outside
int16, in DX or after a DX in DY, or a 1 in the padding (43_entropy.md R196, R200). -/
def corruptOffset (bits : List Bool) : Prop :=
  (∃ x : List Bool, (x = [] ∨ ∃ dx : Half, x = se dx.toInt)
      ∧ (bits = x ++ List.replicate 17 false
        ∨ ∃ m, m + 1 < 2 ^ 17 ∧ (ism m < -32768 ∨ 32767 < ism m) ∧ bits = x ++ ue m))
    ∨ ∃ (dx dy : Half) (z : Nat), badPadding (mvBits dx.toInt dy.toInt).length z
        ∧ bits = mvBits dx.toInt dy.toInt ++ List.replicate z false ++ [true]

/-- Bits that DECB reads to the last one: a block code, or bits that it then finds corrupt. -/
def blockStream (bits : List Bool) : Prop := (∃ b : Block, bits = blockBits b) ∨ corruptBlock bits

/-- Bits that DECMV reads to the last one: a motion code, or bits that it then finds corrupt. -/
def offsetStream (bits : List Bool) : Prop :=
  (∃ x y : Half, bits = mvBits x.toInt y.toInt) ∨ corruptOffset bits

/-- R196, R198, R200, R255: a decode raises BS_CORRUPT at the bit at which its bits are no code any more, with
the number of bits consumed as information; and BS_TRUNCATED, with the number of bits of the window, when
the window ends before the bits do; an empty window (also one with BSE below BSP) is truncated at 0 and
nothing is read, whether or not the byte at BSP is bus-OK. -/
def Obligations.BrokenCodesFault : Prop :=
  (∀ (s : State) (d : BReg) (bits : List Bool), windowHolds s bits → corruptBlock bits →
      faultsWith s (.decb d) .bsCorrupt (BitVec.ofNat 32 bits.length))
    ∧ (∀ (s : State) (bits : List Bool), windowHolds s bits → corruptOffset bits →
      faultsWith s .decmv .bsCorrupt (BitVec.ofNat 32 bits.length))
    ∧ (∀ (s : State) (bits rest : List Bool), rest ≠ [] → windowHolds s bits →
      s.unit.bsp.toNat * 8 + bits.length = s.unit.bse.toNat * 8 →
      (blockStream (bits ++ rest) →
        ∀ d, faultsWith s (.decb d) .bsTruncated (BitVec.ofNat 32 bits.length))
      ∧ (offsetStream (bits ++ rest) →
        faultsWith s .decmv .bsTruncated (BitVec.ofNat 32 bits.length)))
    ∧ ∀ (s : State) (i : Instr), ((∃ d, i = .decb d) ∨ i = .decmv) →
      s.unit.bse.toNat ≤ s.unit.bsp.toNat → faultsWith s i .bsTruncated 0

/-- R207, R252, R259: a decode that raises BUS_ERROR raises it at an address from BSP up to but not including
BSE; and a decode that needs a byte of its window whose BusOK is false, all it read before being the
start of a code or of corrupt bits, raises BUS_ERROR with that byte's address and does nothing else. -/
def Obligations.DecodeReadsStayInTheWindow : Prop :=
  (∀ (s t : State) (i : Instr), ((∃ d, i = .decb d) ∨ i = .decmv) → exec i s = .next t →
    t.unit.cmdcnt = s.unit.cmdcnt → t.unit.fcode = .busError →
    s.unit.bsp.toNat ≤ t.unit.faultInfo.toNat ∧ t.unit.faultInfo.toNat < s.unit.bse.toNat)
  ∧ ∀ (s : State) (n : Nat) (bits rest : List Bool), rest ≠ [] → bits.length = 8 * n →
    windowHolds s bits → s.unit.bsp.toNat + n < s.unit.bse.toNat →
    s.busOK (s.unit.bsp + BitVec.ofNat 32 n) = false →
    (blockStream (bits ++ rest) →
      ∀ d, faultsWith s (.decb d) .busError (s.unit.bsp + BitVec.ofNat 32 n))
    ∧ (offsetStream (bits ++ rest) →
      faultsWith s .decmv .busError (s.unit.bsp + BitVec.ofNat 32 n))

/-! ### Sample movement and motion search -/

/-- R29, R72, R220: sample i of a window is the byte at `(BASE + (y + i div s)·STRIDE + x + i mod s)
mod 2^32`. R222, R223: LDPX in any legal mode, with its window inside the plane and every byte readable,
loads the 64 samples zero-extended; M adds the motion offset and H halves it toward zero. R252, R256: when
byte k of that window is the first in raster order whose BusOK is false, LDPX raises BUS_ERROR with its
address and does nothing else. -/
def Obligations.LdpxLoadsTheWindow : Prop :=
  (∀ (pd : PlaneDesc) (x y : Int) (size i : Nat),
      ((pd.windowAddr x y size i).toNat : Int)
        = (pd.base.toNat + (y + (i / size : Nat)) * pd.stride.toNat + (x + (i % size : Nat)))
          % 2 ^ 32)
    ∧ ∀ (d : BReg) (p : Plane) (m h : Bool) (s : State) (x y : Int), ¬ (h = true ∧ m = false) →
      x = s.unit.x.toNat
        + (if m then (if h then Int.tdiv s.unit.dx.toInt 2 else s.unit.dx.toInt) else 0) →
      y = s.unit.y.toNat
        + (if m then (if h then Int.tdiv s.unit.dy.toInt 2 else s.unit.dy.toInt) else 0) →
      0 ≤ x → 0 ≤ y → x + 8 ≤ s.unit.pd[p].width.toNat → y + 8 ≤ s.unit.pd[p].height.toNat →
      ((∀ i < 64, s.Readable (s.unit.pd[p].windowAddr x y 8 i)) →
        ∃ t, exec (.ldpx d p m h) s = .next t ∧ t.unit.bvalid[d] = true
          ∧ t.unit.pc = s.unit.pc + 4
          ∧ ∀ i : Fin 64, elem t.unit.blocks[d] i
              = (s.mem.read (s.unit.pd[p].windowAddr x y 8 i).toNat).toNat)
      ∧ ∀ k < 64, s.busOK (s.unit.pd[p].windowAddr x y 8 k) = false →
        (∀ i < k, s.Plain (s.unit.pd[p].windowAddr x y 8 i)) →
        faultsWith s (.ldpx d p m h) .busError (s.unit.pd[p].windowAddr x y 8 k)

/-- R221, R223, R224, R230, R254: LDPX, STPX and MSRCH whose (first) window is not inside the plane raise
PIX_BOUNDS with the position as information, before any access. -/
def Obligations.WindowOutsidePlaneFaults : Prop :=
  ∀ (s : State) (i : Instr) (p : Plane) (x y : Int) (size : Nat),
    ((∃ d m h, i = .ldpx d p m h ∧ ¬ (h = true ∧ m = false) ∧ size = 8
        ∧ x = s.unit.x.toNat
          + (if m then (if h then Int.tdiv s.unit.dx.toInt 2 else s.unit.dx.toInt) else 0)
        ∧ y = s.unit.y.toNat
          + (if m then (if h then Int.tdiv s.unit.dy.toInt 2 else s.unit.dy.toInt) else 0))
      ∨ (∃ a : BReg, i = .stpx a p ∧ s.unit.bvalid[a] = true ∧ size = 8
        ∧ x = s.unit.x.toNat ∧ y = s.unit.y.toNat)
      ∨ (∃ pr r, i = .msrch p pr r ∧ size = 16 ∧ x = s.unit.x.toNat ∧ y = s.unit.y.toNat)) →
    ¬ (0 ≤ x ∧ 0 ≤ y ∧ x + size ≤ s.unit.pd[p].width.toNat
        ∧ y + size ≤ s.unit.pd[p].height.toNat) →
    ∃ t, exec i s = .next t ∧ t.unit.fcode = .pixBounds
      ∧ (t.unit.faultInfo.toNat : Int) = (y % 65536) * 65536 + x % 65536
      ∧ t.unit.faultPc = s.unit.pc ∧ t.unit.fault = true ∧ t.unit.busy = false
      ∧ t.mem = s.mem ∧ ∀ r : RegName, r ∉ faultRegs → r.same s.unit t.unit

/-- R224, R314: STPX of a valid register, with its window inside the plane and every byte writable, writes
clamp8 of each element at its address (each byte that no race leaves open); where rows overlap the last
write in raster order stays; no byte outside the 64 addresses changes, and the motion offset is not
applied. R84: a byte of the window that a race leaves open holds what it held or a written sample. -/
def Obligations.StpxStoresClampedSamples : Prop :=
  ∀ (a : BReg) (p : Plane) (s : State) (addr : Nat → Word), s.unit.bvalid[a] = true →
    s.mem.wf = true →
    (∀ i, addr i = s.unit.pd[p].windowAddr s.unit.x.toNat s.unit.y.toNat 8 i) →
    s.unit.x.toNat + 8 ≤ s.unit.pd[p].width.toNat →
    s.unit.y.toNat + 8 ≤ s.unit.pd[p].height.toNat →
    (∀ i < 64, s.Writable (addr i)) →
    ∃ t, exec (.stpx a p) s = .next t ∧ t.unit.pc = s.unit.pc + 4
      ∧ (∀ i : Fin 64, (∀ j : Fin 64, i < j → addr j ≠ addr i) → s.Settled (addr i) →
          ((t.mem.read (addr i).toNat).toNat : Int) = min 255 (max 0 (elem s.unit.blocks[a] i)))
      ∧ ∀ x, t.mem.read x = s.mem.read x ∨ ∃ i : Fin 64, (addr i).toNat = x
          ∧ ((t.mem.read x).toNat : Int) = min 255 (max 0 (elem s.unit.blocks[a] i))

/-- R258, R252, R256: when the byte of sample k is the first of STPX's whose BusOK is false, STPX raises
BUS_ERROR with its address; the bytes of the samples before it stay written, no other byte changes, and
no register but the fault's does. The same for ENCB and ENCMV when byte m of their n bytes is the first
whose BusOK is false: bytes 0 to m - 1 are written and no other byte changes. (A byte that a race leaves
open need not hold what was written, R84.) -/
def Obligations.StoreBusErrorKeepsThePrefix : Prop :=
  (∀ (a : BReg) (p : Plane) (s : State) (addr : Nat → Word) (k : Fin 64),
    s.unit.bvalid[a] = true → s.mem.wf = true →
    (∀ i, addr i = s.unit.pd[p].windowAddr s.unit.x.toNat s.unit.y.toNat 8 i) →
    s.unit.x.toNat + 8 ≤ s.unit.pd[p].width.toNat →
    s.unit.y.toNat + 8 ≤ s.unit.pd[p].height.toNat →
    s.busOK (addr k) = false → (∀ i < k.val, s.Writable (addr i)) →
    ∃ t, exec (.stpx a p) s = .next t ∧ t.unit.fcode = .busError ∧ t.unit.faultInfo = addr k
      ∧ t.unit.faultPc = s.unit.pc ∧ t.unit.fault = true ∧ t.unit.busy = false
      ∧ (∀ r : RegName, r ∉ faultRegs → r.same s.unit t.unit)
      ∧ (∀ i : Fin 64, i < k → (∀ j : Fin 64, i < j → j < k → addr j ≠ addr i) →
          s.Settled (addr i) →
          ((t.mem.read (addr i).toNat).toNat : Int)
            = min 255 (max 0 (elem s.unit.blocks[a] i)))
      ∧ ∀ x, (∀ i : Fin 64, i < k → (addr i).toNat ≠ x) → t.mem.read x = s.mem.read x)
  ∧ ∀ (s : State) (i : Instr) (data : List Byte) (m : Nat),
    ((∃ a : BReg, i = .encb a ∧ s.unit.bvalid[a] = true
        ∧ data = pack (blockBits s.unit.blocks[a]))
      ∨ (i = .encmv ∧ data = pack (mvBits s.unit.dx.toInt s.unit.dy.toInt))) →
    s.mem.wf = true → s.unit.bsp.toNat + data.length ≤ s.unit.bse.toNat → m < data.length →
    s.busOK (s.unit.bsp + BitVec.ofNat 32 m) = false →
    (∀ j < m, s.Writable (s.unit.bsp + BitVec.ofNat 32 j)) →
    ∃ t, exec i s = .next t ∧ t.unit.fcode = .busError
      ∧ t.unit.faultInfo = s.unit.bsp + BitVec.ofNat 32 m
      ∧ t.unit.faultPc = s.unit.pc ∧ t.unit.fault = true ∧ t.unit.busy = false
      ∧ (∀ r : RegName, r ∉ faultRegs → r.same s.unit t.unit)
      ∧ (∀ j (h : j < data.length), j < m → s.Settled (s.unit.bsp + BitVec.ofNat 32 j) →
          t.mem.read (s.unit.bsp.toNat + j) = data[j])
      ∧ ∀ x, (x < s.unit.bsp.toNat ∨ s.unit.bsp.toNat + m ≤ x) → t.mem.read x = s.mem.read x

/-- The sum of absolute differences of the 16x16 window at (X, Y) of plane ps and the window of plane pr
displaced by (dx, dy), as memory holds them (44_motion_residual.md R230). -/
def windowSad (s : State) (ps pr : Plane) (dx dy : Int) : Int :=
  ∑ i ∈ Finset.range 256,
    |((s.mem.read (s.unit.pd[ps].windowAddr s.unit.x.toNat s.unit.y.toNat 16 i).toNat).toNat : Int)
      - (s.mem.read (s.unit.pd[pr].windowAddr (s.unit.x.toNat + dx) (s.unit.y.toNat + dy) 16
          i).toNat).toNat|

/-- The offset is one of the (2R + 1)^2 of a search of radius R and its window lies inside the reference
plane (44_motion_residual.md R230). -/
def isCandidate (s : State) (pr : Plane) (radius dx dy : Int) : Prop :=
  -radius ≤ dx ∧ dx ≤ radius ∧ -radius ≤ dy ∧ dy ≤ radius
    ∧ 0 ≤ s.unit.x.toNat + dx ∧ 0 ≤ s.unit.y.toNat + dy
    ∧ s.unit.x.toNat + dx + 16 ≤ s.unit.pd[pr].width.toNat
    ∧ s.unit.y.toNat + dy + 16 ≤ s.unit.pd[pr].height.toNat

/-- The order of candidates: (0, 0) first, then dy from -R to R, and dx from -R to R within each dy
(44_motion_residual.md R230). -/
def comesBefore (dx dy dx' dy' : Int) : Prop :=
  ¬ (dx' = 0 ∧ dy' = 0) ∧ ((dx = 0 ∧ dy = 0) ∨ dy < dy' ∨ (dy = dy' ∧ dx < dx'))

/-- R230, R36, R37: MSRCH, with its source window inside its plane, some candidate in bounds and every byte
it reads readable, chooses a candidate of least SAD, the earliest among equals, and writes DX, DY, ACC
and Z. -/
def Obligations.MsrchFindsTheBestOffset : Prop :=
  ∀ (ps pr : Plane) (radius : BitVec 6) (s : State),
    s.unit.x.toNat + 16 ≤ s.unit.pd[ps].width.toNat →
    s.unit.y.toNat + 16 ≤ s.unit.pd[ps].height.toNat →
    (∀ i < 256,
      s.Readable (s.unit.pd[ps].windowAddr s.unit.x.toNat s.unit.y.toNat 16 i)) →
    (∀ dx dy, isCandidate s pr radius.toNat dx dy → ∀ i < 256, s.Readable
      (s.unit.pd[pr].windowAddr (s.unit.x.toNat + dx) (s.unit.y.toNat + dy) 16 i)) →
    (∃ dx dy, isCandidate s pr radius.toNat dx dy) →
    ∃ t, exec (.msrch ps pr radius) s = .next t ∧ t.unit.pc = s.unit.pc + 4
      ∧ isCandidate s pr radius.toNat t.unit.dx.toInt t.unit.dy.toInt
      ∧ (t.unit.acc.toNat : Int) = windowSad s ps pr t.unit.dx.toInt t.unit.dy.toInt
      ∧ (t.unit.z = true ↔ t.unit.acc = 0)
      ∧ ∀ dx dy, isCandidate s pr radius.toNat dx dy →
          windowSad s ps pr t.unit.dx.toInt t.unit.dy.toInt ≤ windowSad s ps pr dx dy
            ∧ (windowSad s ps pr dx dy = windowSad s ps pr t.unit.dx.toInt t.unit.dy.toInt →
                ¬ comesBefore dx dy t.unit.dx.toInt t.unit.dy.toInt)

/-- R230, R252, R259: MSRCH, with its source window inside its plane, raises BUS_ERROR at the first source
byte in raster order whose BusOK is false; with the source readable, BUS_ERROR at the first such byte of
the candidates' windows, in candidate order and raster order within each; and with no candidate in
bounds PIX_BOUNDS with (X, Y). It then writes no register. -/
def Obligations.MsrchFaultsWriteNothing : Prop :=
  ∀ (ps pr : Plane) (radius : BitVec 6) (s : State) (src : Nat → Word) (win : Int → Int → Nat → Word),
    s.unit.x.toNat + 16 ≤ s.unit.pd[ps].width.toNat →
    s.unit.y.toNat + 16 ≤ s.unit.pd[ps].height.toNat →
    (∀ i, src i = s.unit.pd[ps].windowAddr s.unit.x.toNat s.unit.y.toNat 16 i) →
    (∀ dx dy i, win dx dy i
      = s.unit.pd[pr].windowAddr (s.unit.x.toNat + dx) (s.unit.y.toNat + dy) 16 i) →
    (∀ k < 256, s.busOK (src k) = false → (∀ i < k, s.Plain (src i)) →
      faultsWith s (.msrch ps pr radius) .busError (src k))
    ∧ ((∀ i < 256, s.Plain (src i)) →
      (∀ dx dy, ∀ k < 256, isCandidate s pr radius.toNat dx dy → s.busOK (win dx dy k) = false →
        (∀ i < k, s.Plain (win dx dy i)) →
        (∀ dx' dy', isCandidate s pr radius.toNat dx' dy' → comesBefore dx' dy' dx dy →
          ∀ i < 256, s.Plain (win dx' dy' i)) →
        faultsWith s (.msrch ps pr radius) .busError (win dx dy k))
      ∧ ((∀ dx dy, ¬ isCandidate s pr radius.toNat dx dy) →
        faultsWith s (.msrch ps pr radius) .pixBounds (s.unit.y ++ s.unit.x)))

/-- R233: LDPX with M = 0, or with M = 1 and DX = DY = 0, and then STPX of the same register to another
plane at the same position copies the 64 samples of the window unchanged, when the destination bytes are
distinct. -/
def Obligations.SkipCopiesTheWindow : Prop :=
  ∀ (d : BReg) (p q : Plane) (m h : Bool) (s : State) (src dst : Nat → Word), s.mem.wf = true →
    (m = true → s.unit.dx = 0 ∧ s.unit.dy = 0) → ¬ (h = true ∧ m = false) →
    (∀ i, src i = s.unit.pd[p].windowAddr s.unit.x.toNat s.unit.y.toNat 8 i) →
    (∀ i, dst i = s.unit.pd[q].windowAddr s.unit.x.toNat s.unit.y.toNat 8 i) →
    s.unit.x.toNat + 8 ≤ s.unit.pd[p].width.toNat →
    s.unit.y.toNat + 8 ≤ s.unit.pd[p].height.toNat →
    s.unit.x.toNat + 8 ≤ s.unit.pd[q].width.toNat →
    s.unit.y.toNat + 8 ≤ s.unit.pd[q].height.toNat →
    (∀ i < 64, s.Readable (src i)) → (∀ i < 64, s.Storable (dst i)) →
    (∀ i < 64, ∀ j < 64, i ≠ j → dst i ≠ dst j) →
    ∃ t t', exec (.ldpx d p m h) s = .next t ∧ exec (.stpx d q) t = .next t'
      ∧ ∀ i < 64, t'.mem.read (dst i).toNat = s.mem.read (src i).toNat

/-! ### Memory and races -/

/-- R80, R84: a byte read returns the byte memory holds when no race is open for it, and otherwise that
byte or one of the values it had before a racing write. R84: a byte written is the byte memory holds then,
or, only when it races with the write there, that one stays; a unit's write of a byte that no race leaves
open for it stays and is settled for it. R81, R83: a unit whose run starts sees a byte whose newest write
is the host's, or one of a run whose end the host has seen. Which races are open, and from when to when,
is the model's reading of these rules (log 7). -/
def Obligations.RacesAdmitOldOrNew : Prop :=
  ∀ (s : State) (acc : Access) (a : Word),
    (s.Plain a → s.readByte acc a = .ok (s.observe acc a))
      ∧ (s.Settled a → s.observe acc a = s.mem.read a.toNat)
      ∧ (s.observe acc a = s.mem.read a.toNat
          ∨ ∃ e ∈ s.races, e.addr = a.toNat ∧ s.self ∈ e.hidden ∧ s.observe acc a = e.under)
      ∧ (∀ (left : Nat) (v : Byte), (s.storeByte left a v).mem = s.mem.write a.toNat v
          ∨ s.contested (.unit s.self) a.toNat = true ∧ (s.storeByte left a v).mem = s.mem)
      ∧ (s.Settled a → ∀ (left : Nat) (v : Byte),
          (s.storeByte left a v).mem = s.mem.write a.toNat v ∧ (s.storeByte left a v).Settled a)
      ∧ (∀ u : UnitState, s.unit.busy = false → u.busy = true →
          (∀ e es, s.racesAt a.toNat = e :: es → e.writer = .host ∨ e.seen = true) →
          (s.afterHostWrite u).Settled a)

/-- R80, R70: in a canonical memory a write is read back and every other byte keeps its value; the written
memory is canonical; and two canonical memories that read the same everywhere are equal. R81, R82: the
event (log 5) of a host write of a byte puts it in memory, unless it races with a write of a run that is
going on; the event of a host read of a byte of plain memory whose newest write is of no run that is
going on gives the host that byte (in the model's hostData, log 9). Which writes race with the host's
accesses is the model's reading of R81 to R84 and R264 (log 7), and that a run which a reset ended is no
longer going on is its choice (log 21), R264 speaking of an end by completion or fault. -/
def Obligations.MemoryReadsBackAndIsCanonical : Prop :=
  (∀ (m : Memory) (a b : Nat) (v : Byte), m.wf = true →
      (m.write a v).read b = if b = a then v else m.read b)
    ∧ (∀ (m : Memory) (a : Nat) (v : Byte), m.wf = true → a < 2 ^ 32 → (m.write a v).wf = true)
    ∧ (∀ m m' : Memory, m.wf = true → m'.wf = true → (∀ a, m.read a = m'.read a) → m = m')
    ∧ (∀ (s : State) (a : Word) (v : Byte) (rest : List Event), s.agenda = .memWrite a v :: rest →
        ∃ t, step s = .next t ∧ t.agenda = rest ∧ t.units = s.units ∧ t.self = s.self
          ∧ (t.mem = s.mem.write a.toNat v
            ∨ s.contested .host a.toNat = true ∧ t.mem = s.mem))
    ∧ ∀ (s : State) (a : Word) (rest : List Event), s.agenda = .memRead a :: rest →
        s.regionKind a = none → s.contested .host a.toNat = false →
        ∃ t, step s = .next t ∧ t.agenda = rest ∧ t.units = s.units ∧ t.self = s.self
          ∧ t.mem = s.mem ∧ t.hostData.toNat = (s.mem.read a.toNat).toNat

/-! ### The host and the other units -/

/-- R294, R40, R296: a host write of CTRL with SRST = 0 gives IE and SSTEP the write's values at any time;
with START = 1 it starts a unit that is idle and without a fault (DONE 0, BUSY 1); with START = 0, or on a
busy unit, or on a faulted one, BUSY and DONE keep their values; every other register does. -/
def Obligations.StartProtocol : Prop :=
  ∀ (u : UnitState) (v : Word), v.getLsbD 1 = false →
    let u' := u.mmioWrite v .ctrl
    u'.ie = v.getLsbD 2 ∧ u'.sstep = v.getLsbD 3
      ∧ (v.getLsbD 0 = true → u.busy = false → u.fault = false →
          u'.busy = true ∧ u'.done = false)
      ∧ (v.getLsbD 0 = false ∨ u.busy = true ∨ u.fault = true →
          u'.busy = u.busy ∧ u'.done = u.done)
      ∧ ∀ r : RegName, r ∉ [.ie, .sstep, .busy, .done] → r.same u u'

/-- R292, R290, R291 (a reset as a pending event: log 5): a host write with SRST set leaves the unit in the
reset state whatever else the write holds and whether or not the unit is busy. The step that takes the
event of such a write, or of a hardware reset of a unit that exists, puts that unit in the reset state and
changes neither memory nor any other unit. That the step selects the unit is the model's way to hold the
units (log 6). The unit a host write reaches is the spec's where register blocks are disjoint; where they
overlap, that the lowest index answers and no other unit does is the model's choice (log 19). -/
def Obligations.ResetByHost : Prop :=
  (∀ (u : UnitState) (v : Word), v.getLsbD 1 = true → u.mmioWrite v .ctrl = UnitState.reset)
    ∧ ∀ (s : State) (k addr : Nat) (v : Word) (rest : List Event), s.self ≤ s.others.length →
      k < s.nUnits →
      (s.agenda = .hwReset k :: rest
        ∨ (s.agenda = .mmioWrite addr 4 v :: rest ∧ addr % 4 = 0 ∧ v.getLsbD 1 = true
          ∧ unitAtHostAddr addr 0 s.plat.mmioBase = some (k, 8))) →
      ∃ t, step s = .next t ∧ t.self = k ∧ t.unit = UnitState.reset ∧ t.mem = s.mem
        ∧ t.agenda = rest ∧ t.nUnits = s.nUnits ∧ ∀ j, j ≠ k → t.units[j]? = s.units[j]?

/-- The registers that a host write of an MMIO register other than CTRL may change (10_state.md R44). -/
def hostWritesOf : MmioReg → List RegName
  | .id | .unitId | .ctrl | .faultPc | .faultInfo | .reserved => []
  | .status => [.done, .fault, .fcode]
  | .pc => [.pc]
  | .cmdcnt => [.cmdcnt]
  | .bsp => [.bsp]
  | .bse => [.bse]
  | .pos => [.x, .y]
  | .mv => [.dx, .dy]
  | .lc => [.lc .lc0, .lc .lc1]
  | .acc => [.acc]
  | .flags => [.z]
  | .bvalid => (List.finRange 8).flatMap fun n => [.block n, .valid n]
  | .pdBase p | .pdStride p | .pdWidth p | .pdHeight p => [.plane p]
  | .blk n _ => [.block n, .valid n]
  | .qt t _ => [.table t]

/-- R46, R296, R44: a host write changes no register of the unit but those of the MMIO register it writes
(CTRL is StartProtocol's and ResetByHost's), so one of a read-only or reserved register changes nothing,
and BASE, STRIDE, WIDTH and HEIGHT of a plane descriptor each change only by a write of their own register;
while BUSY = 1 a write to any register but CTRL and STATUS is ignored, and a write to STATUS of a busy
unit in a legal state changes nothing. -/
def Obligations.HostWritesOnlyItsRegister : Prop :=
  ∀ (u : UnitState) (v : Word) (r : MmioReg), r ≠ .ctrl →
    (∀ n : RegName, n ∉ hostWritesOf r → n.same u (u.mmioWrite v r))
      ∧ (hostWritesOf r = [] → u.mmioWrite v r = u)
      ∧ (∀ p : Plane, let d := (u.mmioWrite v r).pd[p]
        (r ≠ .pdBase p → d.base = u.pd[p].base) ∧ (r ≠ .pdStride p → d.stride = u.pd[p].stride)
          ∧ (r ≠ .pdWidth p → d.width = u.pd[p].width)
          ∧ (r ≠ .pdHeight p → d.height = u.pd[p].height))
      ∧ (u.busy = true → (r = .status → u.StatusLegal) → u.mmioWrite v r = u)

/-- The numbers of the fault codes (60_exceptions.md R250). -/
def faultNumbers : List (FaultCode × Nat) :=
  [(.none, 0), (.busError, 1), (.illegalOp, 2), (.uninitBlock, 3), (.pixBounds, 4),
    (.bsOverflow, 5), (.bsTruncated, 6), (.bsCorrupt, 7), (.badParam, 8)]

/-- The registers at the offsets 0x000 to 0x03C (10_state.md R44). -/
def scalarOffsets : List (Nat × MmioReg) :=
  [(0x000, .id), (0x004, .unitId), (0x008, .ctrl), (0x00C, .status), (0x010, .pc),
    (0x014, .faultPc), (0x018, .faultInfo), (0x01C, .cmdcnt), (0x020, .bsp), (0x024, .bse),
    (0x028, .pos), (0x02C, .mv), (0x030, .lc), (0x034, .acc), (0x038, .flags),
    (0x03C, .bvalid)]

/-- R44, R31, R32, R40, R41, R250, R42, R47: which register stands at each offset, and what a host read of
each returns (BLK is HostWritesTablesAndValidBits'), UNIT giving N_UNITS modulo 2^16 and the index, which
is below 2^16. R44, R45, R47, R38: what an idle unit's register reads after a host write `v`: `v` with the
bits that read as zero cleared. R44, R46: the step that takes the event (log 5) of an aligned host access
to unit k's block reads (into the model's hostData, log 9) or writes the register at its offset, with that
unit selected (log 6), and changes neither memory nor any other unit; a read changes no unit. Unit and
offset are the spec's where register blocks are disjoint and their bases multiples of 4; that the lowest
index answers where they overlap, and the register an unaligned offset reaches, are the model's choice
(log 19). -/
def Obligations.HostRegisterMap : Prop :=
  ((∀ x ∈ scalarOffsets, mmioReg x.1 = x.2)
    ∧ (∀ p : Plane, mmioReg (0x040 + 0x10 * p.val) = .pdBase p
        ∧ mmioReg (0x044 + 0x10 * p.val) = .pdStride p
        ∧ mmioReg (0x048 + 0x10 * p.val) = .pdWidth p
        ∧ mmioReg (0x04C + 0x10 * p.val) = .pdHeight p)
    ∧ (∀ (n : BReg) (j : Fin 32), mmioReg (0x400 + 0x80 * n.val + 4 * j.val) = .blk n j)
    ∧ (∀ (t : Table) (j : Fin 32), mmioReg (0x800 + 0x80 * t.val + 4 * j.val) = .qt t j)
    ∧ ∀ off, (0x080 ≤ off ∧ off < 0x400 ∨ 0xA00 ≤ off) → mmioReg off = .reserved)
  ∧ (∀ (u : UnitState) (c k : Nat), u.mmioRead c k .id = 0x50465601
    ∧ (k < 65536 → (u.mmioRead c k .unitId).toNat = (c % 65536) * 65536 + k)
    ∧ (u.mmioRead c k .ctrl).toNat = 4 * u.ie.toNat + 8 * u.sstep.toNat
    ∧ (∀ x ∈ faultNumbers, u.fcode = x.1 → (u.mmioRead c k .status).toNat
        = u.busy.toNat + 2 * u.done.toNat + 4 * u.fault.toNat + 256 * x.2)
    ∧ u.mmioRead c k .pc = u.pc ∧ u.mmioRead c k .faultPc = u.faultPc
    ∧ u.mmioRead c k .faultInfo = u.faultInfo ∧ u.mmioRead c k .cmdcnt = u.cmdcnt
    ∧ u.mmioRead c k .bsp = u.bsp ∧ u.mmioRead c k .bse = u.bse ∧ u.mmioRead c k .acc = u.acc
    ∧ (u.mmioRead c k .pos).toNat = u.x.toNat + 65536 * u.y.toNat
    ∧ (u.mmioRead c k .mv).toNat = u.dx.toNat + 65536 * u.dy.toNat
    ∧ (u.mmioRead c k .lc).toNat = u.lc0.toNat + 65536 * u.lc1.toNat
    ∧ (u.mmioRead c k .flags).toNat = u.z.toNat
    ∧ (∀ n : Fin 32, (u.mmioRead c k .bvalid).getLsbD n.val
        = if h : n.val < 8 then u.bvalid[n.val] else false)
    ∧ (∀ p : Plane, u.mmioRead c k (.pdBase p) = u.pd[p].base
        ∧ (u.mmioRead c k (.pdStride p)).toNat = u.pd[p].stride.toNat
        ∧ (u.mmioRead c k (.pdWidth p)).toNat = u.pd[p].width.toNat
        ∧ (u.mmioRead c k (.pdHeight p)).toNat = u.pd[p].height.toNat)
    ∧ (∀ (t : Table) (j : Fin 32), (u.mmioRead c k (.qt t j)).toNat
        = u.qt[t][evenIdx j].toNat + 65536 * u.qt[t][oddIdx j].toNat)
    ∧ u.mmioRead c k .reserved = 0)
  ∧ (∀ (u : UnitState) (v : Word) (n : BReg) (p : Plane) (j : Fin 32) (c k : Nat) (r : MmioReg)
      (mask : Word), u.busy = false →
    (r, mask) ∈ [(.pc, 0xFFFFFFFC), (.cmdcnt, 0xFFFFFFFF), (.bsp, 0xFFFFFFFF), (.bse, 0xFFFFFFFF),
      (.pos, 0xFFFFFFFF), (.mv, 0xFFFFFFFF), (.lc, 0xFFFFFFFF), (.acc, 0xFFFFFFFF), (.flags, 1),
      (.pdBase p, 0xFFFFFFFF), (.pdStride p, 0xFFFF), (.pdWidth p, 0xFFFF),
      (.pdHeight p, 0xFFFF), (.blk n j, 0xFFFFFFFF)] →
    (u.mmioWrite v r).mmioRead c k r = v &&& mask)
  ∧ ∀ (s v : State) (addr k off : Nat) (w : Word) (rest : List Event), addr % 4 = 0 →
    unitAtHostAddr addr 0 s.plat.mmioBase = some (k, off) → s.self ≤ s.others.length →
    ({ s with agenda := rest } : State).select k = some v →
    (s.agenda = .mmioRead addr 4 :: rest → ∃ t, step s = .next t ∧ t.agenda = rest
      ∧ t.hostData = v.unit.mmioRead s.nUnits k (mmioReg off) ∧ t.units = s.units
      ∧ t.mem = s.mem)
    ∧ (s.agenda = .mmioWrite addr 4 w :: rest → ∃ t, step s = .next t ∧ t.agenda = rest
      ∧ t.self = k ∧ t.unit = v.unit.mmioWrite w (mmioReg off) ∧ t.mem = s.mem
      ∧ ∀ j, j ≠ k → t.units[j]? = s.units[j]?)

/-- R45, R27: a host write of a table word stores each half, 0 replaced by 1; a host write of a block word
stores each half as an int16 element and makes the register valid; a host read of a block word packs the
two elements whatever the valid bit is; the other entries and elements keep their values. R24: a host
write of 1 to a bit of BVALID makes the register invalid and all zero, and of 0 leaves it as it is. -/
def Obligations.HostWritesTablesAndValidBits : Prop :=
  ∀ (u : UnitState) (v : Word) (n : BReg) (t : Table) (j : Fin 32) (c k : Nat),
    (u.mmioRead c k (.blk n j)).toNat
        = u.blocks[n][evenIdx j].toNat + u.blocks[n][oddIdx j].toNat * 65536
      ∧ (u.busy = false →
        (∀ k : Fin 64, k ≠ evenIdx j → k ≠ oddIdx j →
            (u.mmioWrite v (.qt t j)).qt[t][k] = u.qt[t][k]
              ∧ (u.mmioWrite v (.blk n j)).blocks[n][k] = u.blocks[n][k])
          ∧ (u.mmioWrite v (.qt t j)).qt[t][evenIdx j].toNat = max 1 (v.toNat % 65536)
          ∧ (u.mmioWrite v (.qt t j)).qt[t][oddIdx j].toNat = max 1 (v.toNat / 65536)
          ∧ elem (u.mmioWrite v (.blk n j)).blocks[n] (evenIdx j) = (v.extractLsb' 0 16).toInt
          ∧ elem (u.mmioWrite v (.blk n j)).blocks[n] (oddIdx j) = (v.extractLsb' 16 16).toInt
          ∧ (u.mmioWrite v (.blk n j)).bvalid[n] = true
          ∧ (v.getLsbD n.val = true → (u.mmioWrite v .bvalid).bvalid[n] = false
              ∧ ∀ i, elem (u.mmioWrite v .bvalid).blocks[n] i = 0)
          ∧ (v.getLsbD n.val = false → (u.mmioWrite v .bvalid).bvalid[n] = u.bvalid[n]
              ∧ (u.mmioWrite v .bvalid).blocks[n] = u.blocks[n]))

/-- R41, R261: writing 1 to FAULT clears FAULT and FCODE but keeps FAULT_PC and FAULT_INFO; writing 1 to
DONE clears DONE; the interrupt line falls when both are clear (R265). R265: the step that takes the event
(log 5) of the host's looking at an interrupt line tells it whether a unit that IRQ_ROUTE wires there
drives it (in hostData, log 9; the OR of several is the model's choice, log 20), and changes no unit and no
memory. -/
def Obligations.StatusWriteOneToClear : Prop :=
  (∀ (u : UnitState) (v : Word), let u' := u.mmioWrite v .status
    (v.getLsbD 2 = true → u'.fault = false ∧ u'.fcode = .none)
      ∧ (v.getLsbD 2 = false → u'.fault = u.fault ∧ u'.fcode = u.fcode)
      ∧ (v.getLsbD 1 = true → u'.done = false) ∧ (v.getLsbD 1 = false → u'.done = u.done)
      ∧ (v.getLsbD 1 = true → v.getLsbD 2 = true → u'.irq = false)
      ∧ ∀ r : RegName, r ∉ [.done, .fault, .fcode] → r.same u u')
  ∧ ∀ (s : State) (line : Nat) (rest : List Event), s.self ≤ s.others.length →
    s.agenda = .lineRead line :: rest →
    ∃ t, step s = .next t ∧ t.agenda = rest ∧ t.units = s.units ∧ t.self = s.self ∧ t.mem = s.mem
      ∧ (t.hostData = 0 ∨ t.hostData = 1)
      ∧ (t.hostData = 1 ↔ ∃ (u : Nat) (x : UnitState), s.units[u]? = some x
          ∧ s.plat.irqRoute[u]? = some line ∧ x.ie = true ∧ (x.done = true ∨ x.fault = true))

/-- R5, R274: whatever the machine does in a step, every unit but the one that acts or is acted on keeps all
its state, and no unit appears or disappears. The selected unit and the list of the others are the
model's (log 6). -/
def Obligations.UnitsAreIsolated : Prop :=
  ∀ s t : State, s.self ≤ s.others.length → step s = .next t →
    t.nUnits = s.nUnits ∧ ∀ k, k ≠ t.self → t.units[k]? = s.units[k]?
end

