-- ==== Sys2Proof/Laws/Blocks.lean ====
section
/-! SUPPORT. Numbers that fit a register half, elements of computed blocks, register file reads after
writes, and the zig-zag permutation. -/

namespace Sys2Proof.Machine

/-! ### Numbers -/

theorem sat16_range (v : Int) : -32768 ≤ sat16 v ∧ sat16 v ≤ 32767 := by
  unfold sat16; omega

theorem clamp8_range (v : Int) : 0 ≤ clamp8 v ∧ clamp8 v ≤ 255 := by
  unfold clamp8; omega

theorem sat16_of_range {v : Int} (h : -32768 ≤ v) (h' : v ≤ 32767) : sat16 v = v := by
  unfold sat16; omega

/-- A half made of an int16 integer is that integer. -/
theorem toInt_half16 {v : Int} (h : -32768 ≤ v) (h' : v ≤ 32767) : (half16 v).toInt = v := by
  rw [half16, BitVec.toInt_ofInt]
  exact Int.bmod_eq_of_le (by norm_num; omega) (by norm_num; omega)

@[simp] theorem half16_toInt (v : Half) : half16 v.toInt = v := BitVec.ofInt_toInt

theorem toInt_range (v : Half) : -32768 ≤ v.toInt ∧ v.toInt ≤ 32767 := by
  have h1 := BitVec.le_toInt v
  have h2 := BitVec.toInt_lt (x := v)
  norm_num at h1 h2
  omega

theorem elem_range (b : Block) (i : Fin 64) : -32768 ≤ elem b i ∧ elem b i ≤ 32767 :=
  toInt_range _

/-! ### Blocks -/

theorem elem_tabulate (f : Fin 64 → Half) (i : Fin 64) : elem (tabulate f) i = (f i).toInt := by
  simp [elem]

/-- An element of a block computed in int16 integers. -/
theorem elem_tabulate_half16 (f : Fin 64 → Int) (i : Fin 64)
    (h : -32768 ≤ f i ∧ f i ≤ 32767) : elem (tabulate fun i => half16 (f i)) i = f i := by
  rw [elem_tabulate, toInt_half16 h.1 h.2]

@[simp] theorem elem_zero (i : Fin 64) : elem Block.zero i = 0 := by
  simp [Block.zero, elem_tabulate]

/-- Blocks with equal elements are equal. -/
theorem block_ext {a b : Block} (h : ∀ i, elem a i = elem b i) : a = b := by
  apply Vector.ext
  intro i hi
  exact BitVec.eq_of_toInt_eq (h ⟨i, hi⟩)

/-- Z of a block: all elements are 0. -/
theorem zOfBlock_iff (b : Block) : zOfBlock b = true ↔ ∀ i, elem b i = 0 := by
  simp only [zOfBlock, List.all_eq_true, beq_iff_eq]
  constructor
  · intro h i
    have := h b[i] (by simp)
    simp [elem, this]
  · intro h x hx
    obtain ⟨i, hi, rfl⟩ := Vector.mem_iff_getElem.mp (Vector.mem_toList_iff.mp hx)
    have := h ⟨i, hi⟩
    exact BitVec.eq_of_toInt_eq (by simpa [elem] using this)

theorem sum8_eq (f : Fin 8 → Int) : sum8 f = ∑ i : Fin 8, f i := by
  simp [sum8, Fin.sum_univ_eight]

theorem sum64_eq (f : Fin 64 → Nat) : sum64 f = ∑ i : Fin 64, f i := by
  rw [sum64, ← List.sum_ofFn, List.ofFn_eq_map]

@[simp] theorem rowOf_rasterIdx (r c : Fin 8) : rowOf (rasterIdx r c) = r := by
  ext; simp only [rowOf, rasterIdx]; omega

@[simp] theorem colOf_rasterIdx (r c : Fin 8) : colOf (rasterIdx r c) = c := by
  ext; simp only [colOf, rasterIdx]; omega

theorem rasterIdx_surjective (i : Fin 64) : rasterIdx (rowOf i) (colOf i) = i := by
  ext; simp only [rasterIdx, rowOf, colOf]; omega

/-! ### Register file -/

@[simp] theorem blocks_set_self (v : Vector Block 8) (n : BReg) (b : Block) :
    (v.set n b)[n] = b := by simp

theorem blocks_set_of_ne (v : Vector Block 8) (n m : BReg) (b : Block) (h : m ≠ n) :
    (v.set n b)[m] = v[m] := by
  simp only [Fin.getElem_fin]
  exact Vector.getElem_set_ne _ _ (fun e => h (Fin.ext e.symm))

theorem valid_set_of_ne (v : Vector Bool 8) (n m : BReg) (b : Bool) (h : m ≠ n) :
    (v.set n b)[m] = v[m] := by
  simp only [Fin.getElem_fin]
  exact Vector.getElem_set_ne _ _ (fun e => h (Fin.ext e.symm))

theorem tables_set_of_ne (v : Vector QTable 4) (n m : Table) (b : QTable) (h : m ≠ n) :
    (v.set n b)[m] = v[m] := by
  simp only [Fin.getElem_fin]
  exact Vector.getElem_set_ne _ _ (fun e => h (Fin.ext e.symm))

/-! ### Zig-zag order -/

theorem zzInv_zz (k : Fin 64) : zzInv (zz k) = k := by
  revert k; decide +kernel

theorem zz_zzInv (i : Fin 64) : zz (zzInv i) = i := by
  revert i; decide +kernel

end Sys2Proof.Machine
end

