-- ==== Sys2Proof/Laws/Memory.lean ====
section
/-! SUPPORT. The laws of system memory: read after write, the canonical form kept by a write, and equality
of canonical memories that read the same. -/

namespace Sys2Proof.Machine

namespace Memory

/-- Every address of the list is above `lo`. -/
def Above (lo : Nat) (m : Memory) : Prop := ∀ c ∈ m, lo < c.1

@[simp] theorem above_nil (lo : Nat) : Above lo [] := by simp [Above]

theorem above_cons {lo b : Nat} {w : Byte} {m : Memory} :
    Above lo ((b, w) :: m) ↔ lo < b ∧ Above lo m := by
  simp [Above]

/-- The canonical form as a recursion: each cell is in range, holds no unlisted value, and is below the
rest. -/
theorem wfFrom_some (lo : Nat) (m : Memory) :
    wfFrom (some lo) m = true ↔ Above lo m ∧ wfFrom none m = true := by
  induction m generalizing lo with
  | nil => simp [wfFrom]
  | cons c m ih =>
    obtain ⟨b, w⟩ := c
    simp only [wfFrom, above_cons, Bool.and_eq_true, decide_eq_true_eq, ih]
    constructor
    · rintro ⟨⟨⟨h1, h2⟩, h3⟩, h4, h5⟩
      exact ⟨⟨h1, fun c hc => lt_trans h1 (h4 c hc)⟩, ⟨⟨trivial, h2⟩, h3⟩, h4, h5⟩
    · rintro ⟨⟨h1, _⟩, ⟨⟨_, h2⟩, h3⟩, h4, h5⟩
      exact ⟨⟨⟨h1, h2⟩, h3⟩, h4, h5⟩

theorem wf_nil : wf [] = true := rfl

theorem wf_cons {b : Nat} {w : Byte} {m : Memory} :
    wf ((b, w) :: m) = true ↔ w ≠ unlisted ∧ b < 2 ^ 32 ∧ Above b m ∧ wf m = true := by
  simp only [wf, wfFrom, Bool.and_eq_true, decide_eq_true_eq, wfFrom_some]
  tauto

/-- Below every listed address memory reads as unlisted. -/
theorem read_of_above {lo a : Nat} {m : Memory} (h : Above lo m) (ha : a ≤ lo) :
    read m a = unlisted := by
  cases m with
  | nil => rfl
  | cons c m =>
    obtain ⟨b, w⟩ := c
    have hb := (above_cons.mp h).1
    simp [read, show a ≠ b by omega, show a < b by omega]

theorem read_cons_ge {b a : Nat} {w : Byte} {m : Memory} (h : b < a) :
    read ((b, w) :: m) a = read m a := by
  simp [read, show a ≠ b by omega, show ¬ a < b by omega]

/-- Consing a cell below the rest: the address reads the value, the others as before. -/
theorem read_consCell {a b : Nat} {v : Byte} {m : Memory} (h : Above a m) :
    read (consCell a v m) b = if b = a then v else read m b := by
  unfold consCell
  split
  next hv =>
    split
    next hb => subst hb; rw [hv]; exact read_of_above h le_rfl
    next => rfl
  next =>
    by_cases hb : b = a
    · simp [read, hb]
    · by_cases hlt : b < a
      · simp [read, hb, hlt, read_of_above h (le_of_lt hlt)]
      · simp [read, hb, hlt]

theorem above_trans {lo b : Nat} {m : Memory} (h : Above b m) (hb : lo ≤ b) : Above lo m :=
  fun c hc => lt_of_le_of_lt hb (h c hc)

/-- A write is read back, and every other address reads as before. -/
theorem read_write {m : Memory} (h : wf m = true) (a b : Nat) (v : Byte) :
    read (write m a v) b = if b = a then v else read m b := by
  induction m with
  | nil => exact read_consCell (above_nil a)
  | cons c m ih =>
    obtain ⟨k, w⟩ := c
    obtain ⟨-, -, hk, hm⟩ := wf_cons.mp h
    unfold write
    split
    next hak => exact read_consCell (above_cons.mpr ⟨hak, above_trans hk (le_of_lt hak)⟩)
    next hak =>
      split
      next hEq =>
        subst hEq
        rw [read_consCell hk]
        split
        next => rfl
        next hb =>
          by_cases hlt : b < a
          · simp [read, hb, hlt, read_of_above hk (le_of_lt hlt)]
          · rw [read_cons_ge (by omega)]
      next hne =>
        have hlt : k < a := by omega
        by_cases hbk : b = k
        · subst hbk; simp [read, show b ≠ a by omega]
        · by_cases hb : b < k
          · simp [read, hbk, hb, show b ≠ a by omega]
          · rw [read_cons_ge (by omega), ih hm, read_cons_ge (by omega)]

theorem above_consCell {lo a : Nat} {v : Byte} {m : Memory} (h : Above lo m) (ha : lo < a) :
    Above lo (consCell a v m) := by
  unfold consCell
  split
  · exact h
  · exact above_cons.mpr ⟨ha, h⟩

theorem above_write {lo a : Nat} {v : Byte} {m : Memory} (h : Above lo m) (ha : lo < a) :
    Above lo (write m a v) := by
  induction m with
  | nil => exact above_consCell (above_nil lo) ha
  | cons c m ih =>
    obtain ⟨k, w⟩ := c
    obtain ⟨hk, hm⟩ := above_cons.mp h
    unfold write
    split
    · exact above_consCell h ha
    · split
      · exact above_consCell hm ha
      · exact above_cons.mpr ⟨hk, ih hm⟩

theorem wf_consCell {a : Nat} {v : Byte} {m : Memory} (hm : wf m = true) (h : Above a m)
    (ha : a < 2 ^ 32) : wf (consCell a v m) = true := by
  unfold consCell
  split
  · exact hm
  · next hv => exact wf_cons.mpr ⟨hv, ha, h, hm⟩

/-- A write to an address of the space keeps the canonical form. -/
theorem wf_write {m : Memory} (h : wf m = true) {a : Nat} (ha : a < 2 ^ 32) (v : Byte) :
    wf (write m a v) = true := by
  induction m with
  | nil => exact wf_consCell wf_nil (above_nil a) ha
  | cons c m ih =>
    obtain ⟨k, w⟩ := c
    obtain ⟨hw, hk32, hk, hm⟩ := wf_cons.mp h
    unfold write
    split
    next hak =>
      exact wf_consCell h (above_cons.mpr ⟨hak, above_trans hk (le_of_lt hak)⟩) ha
    next hak =>
      split
      next hEq => subst hEq; exact wf_consCell hm hk ha
      next => exact wf_cons.mpr ⟨hw, hk32, above_write hk (by omega), ih hm⟩

/-- Canonical memories that read the same everywhere are equal. -/
theorem ext_of_read {m m' : Memory} (h : wf m = true) (h' : wf m' = true)
    (hr : ∀ a, read m a = read m' a) : m = m' := by
  induction m generalizing m' with
  | nil =>
    cases m' with
    | nil => rfl
    | cons c m' =>
      obtain ⟨k, w⟩ := c
      have := hr k
      simp only [read, if_true] at this
      exact absurd this.symm (wf_cons.mp h').1
  | cons c m ih =>
    obtain ⟨k, w⟩ := c
    obtain ⟨hw, -, hk, hm⟩ := wf_cons.mp h
    cases m' with
    | nil =>
      have := hr k
      simp only [read, if_true] at this
      exact absurd this hw
    | cons c' m' =>
      obtain ⟨k', w'⟩ := c'
      obtain ⟨hw', -, hk', hm'⟩ := wf_cons.mp h'
      have hkk : k = k' := by
        rcases lt_trichotomy k k' with hlt | heq | hgt
        · have := hr k
          simp [read, hlt, show k ≠ k' by omega] at this
          exact absurd this hw
        · exact heq
        · have := hr k'
          simp [read, hgt, show k' ≠ k by omega] at this
          exact absurd this.symm hw'
      subst hkk
      have hww : w = w' := by simpa [read] using hr k
      subst hww
      rw [ih hm hm' fun a => ?_]
      by_cases ha : a ≤ k
      · rw [read_of_above hk ha, read_of_above hk' ha]
      · have := hr a
        rwa [read_cons_ge (by omega), read_cons_ge (by omega)] at this

end Memory

end Sys2Proof.Machine
end

