-- ==== Sys2Proof/Laws/State.lean ====
section
/-! SUPPORT. One lemma per field per named register update, so that no later proof unfolds an update. -/

namespace Sys2Proof.Machine

namespace UnitState

variable (u : UnitState)

/-! `advance` -/

@[simp] theorem advance_blocks : u.advance.blocks = u.blocks := rfl
@[simp] theorem advance_bvalid : u.advance.bvalid = u.bvalid := rfl
@[simp] theorem advance_qt : u.advance.qt = u.qt := rfl
@[simp] theorem advance_pd : u.advance.pd = u.pd := rfl
@[simp] theorem advance_x : u.advance.x = u.x := rfl
@[simp] theorem advance_y : u.advance.y = u.y := rfl
@[simp] theorem advance_dx : u.advance.dx = u.dx := rfl
@[simp] theorem advance_dy : u.advance.dy = u.dy := rfl
@[simp] theorem advance_lc0 : u.advance.lc0 = u.lc0 := rfl
@[simp] theorem advance_lc1 : u.advance.lc1 = u.lc1 := rfl
@[simp] theorem advance_acc : u.advance.acc = u.acc := rfl
@[simp] theorem advance_z : u.advance.z = u.z := rfl
@[simp] theorem advance_pc : u.advance.pc = u.pc + 4 := rfl
@[simp] theorem advance_bsp : u.advance.bsp = u.bsp := rfl
@[simp] theorem advance_bse : u.advance.bse = u.bse := rfl
@[simp] theorem advance_ie : u.advance.ie = u.ie := rfl
@[simp] theorem advance_sstep : u.advance.sstep = u.sstep := rfl
@[simp] theorem advance_busy : u.advance.busy = u.busy := rfl
@[simp] theorem advance_done : u.advance.done = u.done := rfl
@[simp] theorem advance_fault : u.advance.fault = u.fault := rfl
@[simp] theorem advance_fcode : u.advance.fcode = u.fcode := rfl
@[simp] theorem advance_faultPc : u.advance.faultPc = u.faultPc := rfl
@[simp] theorem advance_faultInfo : u.advance.faultInfo = u.faultInfo := rfl
@[simp] theorem advance_cmdcnt : u.advance.cmdcnt = u.cmdcnt := rfl

/-! `jumpTo` -/

@[simp] theorem jumpTo_blocks (t : Word) : (u.jumpTo t).blocks = u.blocks := rfl
@[simp] theorem jumpTo_bvalid (t : Word) : (u.jumpTo t).bvalid = u.bvalid := rfl
@[simp] theorem jumpTo_qt (t : Word) : (u.jumpTo t).qt = u.qt := rfl
@[simp] theorem jumpTo_pd (t : Word) : (u.jumpTo t).pd = u.pd := rfl
@[simp] theorem jumpTo_x (t : Word) : (u.jumpTo t).x = u.x := rfl
@[simp] theorem jumpTo_y (t : Word) : (u.jumpTo t).y = u.y := rfl
@[simp] theorem jumpTo_dx (t : Word) : (u.jumpTo t).dx = u.dx := rfl
@[simp] theorem jumpTo_dy (t : Word) : (u.jumpTo t).dy = u.dy := rfl
@[simp] theorem jumpTo_lc0 (t : Word) : (u.jumpTo t).lc0 = u.lc0 := rfl
@[simp] theorem jumpTo_lc1 (t : Word) : (u.jumpTo t).lc1 = u.lc1 := rfl
@[simp] theorem jumpTo_acc (t : Word) : (u.jumpTo t).acc = u.acc := rfl
@[simp] theorem jumpTo_z (t : Word) : (u.jumpTo t).z = u.z := rfl
@[simp] theorem jumpTo_pc (t : Word) : (u.jumpTo t).pc = t := rfl
@[simp] theorem jumpTo_bsp (t : Word) : (u.jumpTo t).bsp = u.bsp := rfl
@[simp] theorem jumpTo_bse (t : Word) : (u.jumpTo t).bse = u.bse := rfl
@[simp] theorem jumpTo_ie (t : Word) : (u.jumpTo t).ie = u.ie := rfl
@[simp] theorem jumpTo_sstep (t : Word) : (u.jumpTo t).sstep = u.sstep := rfl
@[simp] theorem jumpTo_busy (t : Word) : (u.jumpTo t).busy = u.busy := rfl
@[simp] theorem jumpTo_done (t : Word) : (u.jumpTo t).done = u.done := rfl
@[simp] theorem jumpTo_fault (t : Word) : (u.jumpTo t).fault = u.fault := rfl
@[simp] theorem jumpTo_fcode (t : Word) : (u.jumpTo t).fcode = u.fcode := rfl
@[simp] theorem jumpTo_faultPc (t : Word) : (u.jumpTo t).faultPc = u.faultPc := rfl
@[simp] theorem jumpTo_faultInfo (t : Word) : (u.jumpTo t).faultInfo = u.faultInfo := rfl
@[simp] theorem jumpTo_cmdcnt (t : Word) : (u.jumpTo t).cmdcnt = u.cmdcnt := rfl

/-! `setBlock` -/

@[simp] theorem setBlock_blocks (n : BReg) (v : Block) : (u.setBlock n v).blocks = u.blocks.set n v := rfl
@[simp] theorem setBlock_bvalid (n : BReg) (v : Block) : (u.setBlock n v).bvalid = u.bvalid.set n true := rfl
@[simp] theorem setBlock_qt (n : BReg) (v : Block) : (u.setBlock n v).qt = u.qt := rfl
@[simp] theorem setBlock_pd (n : BReg) (v : Block) : (u.setBlock n v).pd = u.pd := rfl
@[simp] theorem setBlock_x (n : BReg) (v : Block) : (u.setBlock n v).x = u.x := rfl
@[simp] theorem setBlock_y (n : BReg) (v : Block) : (u.setBlock n v).y = u.y := rfl
@[simp] theorem setBlock_dx (n : BReg) (v : Block) : (u.setBlock n v).dx = u.dx := rfl
@[simp] theorem setBlock_dy (n : BReg) (v : Block) : (u.setBlock n v).dy = u.dy := rfl
@[simp] theorem setBlock_lc0 (n : BReg) (v : Block) : (u.setBlock n v).lc0 = u.lc0 := rfl
@[simp] theorem setBlock_lc1 (n : BReg) (v : Block) : (u.setBlock n v).lc1 = u.lc1 := rfl
@[simp] theorem setBlock_acc (n : BReg) (v : Block) : (u.setBlock n v).acc = u.acc := rfl
@[simp] theorem setBlock_z (n : BReg) (v : Block) : (u.setBlock n v).z = u.z := rfl
@[simp] theorem setBlock_pc (n : BReg) (v : Block) : (u.setBlock n v).pc = u.pc := rfl
@[simp] theorem setBlock_bsp (n : BReg) (v : Block) : (u.setBlock n v).bsp = u.bsp := rfl
@[simp] theorem setBlock_bse (n : BReg) (v : Block) : (u.setBlock n v).bse = u.bse := rfl
@[simp] theorem setBlock_ie (n : BReg) (v : Block) : (u.setBlock n v).ie = u.ie := rfl
@[simp] theorem setBlock_sstep (n : BReg) (v : Block) : (u.setBlock n v).sstep = u.sstep := rfl
@[simp] theorem setBlock_busy (n : BReg) (v : Block) : (u.setBlock n v).busy = u.busy := rfl
@[simp] theorem setBlock_done (n : BReg) (v : Block) : (u.setBlock n v).done = u.done := rfl
@[simp] theorem setBlock_fault (n : BReg) (v : Block) : (u.setBlock n v).fault = u.fault := rfl
@[simp] theorem setBlock_fcode (n : BReg) (v : Block) : (u.setBlock n v).fcode = u.fcode := rfl
@[simp] theorem setBlock_faultPc (n : BReg) (v : Block) : (u.setBlock n v).faultPc = u.faultPc := rfl
@[simp] theorem setBlock_faultInfo (n : BReg) (v : Block) : (u.setBlock n v).faultInfo = u.faultInfo := rfl
@[simp] theorem setBlock_cmdcnt (n : BReg) (v : Block) : (u.setBlock n v).cmdcnt = u.cmdcnt := rfl

/-! `clearBlock` -/

@[simp] theorem clearBlock_blocks (n : BReg) : (u.clearBlock n).blocks = u.blocks.set n Block.zero := rfl
@[simp] theorem clearBlock_bvalid (n : BReg) : (u.clearBlock n).bvalid = u.bvalid.set n false := rfl
@[simp] theorem clearBlock_qt (n : BReg) : (u.clearBlock n).qt = u.qt := rfl
@[simp] theorem clearBlock_pd (n : BReg) : (u.clearBlock n).pd = u.pd := rfl
@[simp] theorem clearBlock_x (n : BReg) : (u.clearBlock n).x = u.x := rfl
@[simp] theorem clearBlock_y (n : BReg) : (u.clearBlock n).y = u.y := rfl
@[simp] theorem clearBlock_dx (n : BReg) : (u.clearBlock n).dx = u.dx := rfl
@[simp] theorem clearBlock_dy (n : BReg) : (u.clearBlock n).dy = u.dy := rfl
@[simp] theorem clearBlock_lc0 (n : BReg) : (u.clearBlock n).lc0 = u.lc0 := rfl
@[simp] theorem clearBlock_lc1 (n : BReg) : (u.clearBlock n).lc1 = u.lc1 := rfl
@[simp] theorem clearBlock_acc (n : BReg) : (u.clearBlock n).acc = u.acc := rfl
@[simp] theorem clearBlock_z (n : BReg) : (u.clearBlock n).z = u.z := rfl
@[simp] theorem clearBlock_pc (n : BReg) : (u.clearBlock n).pc = u.pc := rfl
@[simp] theorem clearBlock_bsp (n : BReg) : (u.clearBlock n).bsp = u.bsp := rfl
@[simp] theorem clearBlock_bse (n : BReg) : (u.clearBlock n).bse = u.bse := rfl
@[simp] theorem clearBlock_ie (n : BReg) : (u.clearBlock n).ie = u.ie := rfl
@[simp] theorem clearBlock_sstep (n : BReg) : (u.clearBlock n).sstep = u.sstep := rfl
@[simp] theorem clearBlock_busy (n : BReg) : (u.clearBlock n).busy = u.busy := rfl
@[simp] theorem clearBlock_done (n : BReg) : (u.clearBlock n).done = u.done := rfl
@[simp] theorem clearBlock_fault (n : BReg) : (u.clearBlock n).fault = u.fault := rfl
@[simp] theorem clearBlock_fcode (n : BReg) : (u.clearBlock n).fcode = u.fcode := rfl
@[simp] theorem clearBlock_faultPc (n : BReg) : (u.clearBlock n).faultPc = u.faultPc := rfl
@[simp] theorem clearBlock_faultInfo (n : BReg) : (u.clearBlock n).faultInfo = u.faultInfo := rfl
@[simp] theorem clearBlock_cmdcnt (n : BReg) : (u.clearBlock n).cmdcnt = u.cmdcnt := rfl

/-! `setTable` -/

@[simp] theorem setTable_blocks (t : Table) (q : QTable) : (u.setTable t q).blocks = u.blocks := rfl
@[simp] theorem setTable_bvalid (t : Table) (q : QTable) : (u.setTable t q).bvalid = u.bvalid := rfl
@[simp] theorem setTable_qt (t : Table) (q : QTable) : (u.setTable t q).qt = u.qt.set t q := rfl
@[simp] theorem setTable_pd (t : Table) (q : QTable) : (u.setTable t q).pd = u.pd := rfl
@[simp] theorem setTable_x (t : Table) (q : QTable) : (u.setTable t q).x = u.x := rfl
@[simp] theorem setTable_y (t : Table) (q : QTable) : (u.setTable t q).y = u.y := rfl
@[simp] theorem setTable_dx (t : Table) (q : QTable) : (u.setTable t q).dx = u.dx := rfl
@[simp] theorem setTable_dy (t : Table) (q : QTable) : (u.setTable t q).dy = u.dy := rfl
@[simp] theorem setTable_lc0 (t : Table) (q : QTable) : (u.setTable t q).lc0 = u.lc0 := rfl
@[simp] theorem setTable_lc1 (t : Table) (q : QTable) : (u.setTable t q).lc1 = u.lc1 := rfl
@[simp] theorem setTable_acc (t : Table) (q : QTable) : (u.setTable t q).acc = u.acc := rfl
@[simp] theorem setTable_z (t : Table) (q : QTable) : (u.setTable t q).z = u.z := rfl
@[simp] theorem setTable_pc (t : Table) (q : QTable) : (u.setTable t q).pc = u.pc := rfl
@[simp] theorem setTable_bsp (t : Table) (q : QTable) : (u.setTable t q).bsp = u.bsp := rfl
@[simp] theorem setTable_bse (t : Table) (q : QTable) : (u.setTable t q).bse = u.bse := rfl
@[simp] theorem setTable_ie (t : Table) (q : QTable) : (u.setTable t q).ie = u.ie := rfl
@[simp] theorem setTable_sstep (t : Table) (q : QTable) : (u.setTable t q).sstep = u.sstep := rfl
@[simp] theorem setTable_busy (t : Table) (q : QTable) : (u.setTable t q).busy = u.busy := rfl
@[simp] theorem setTable_done (t : Table) (q : QTable) : (u.setTable t q).done = u.done := rfl
@[simp] theorem setTable_fault (t : Table) (q : QTable) : (u.setTable t q).fault = u.fault := rfl
@[simp] theorem setTable_fcode (t : Table) (q : QTable) : (u.setTable t q).fcode = u.fcode := rfl
@[simp] theorem setTable_faultPc (t : Table) (q : QTable) : (u.setTable t q).faultPc = u.faultPc := rfl
@[simp] theorem setTable_faultInfo (t : Table) (q : QTable) : (u.setTable t q).faultInfo = u.faultInfo := rfl
@[simp] theorem setTable_cmdcnt (t : Table) (q : QTable) : (u.setTable t q).cmdcnt = u.cmdcnt := rfl

/-! `enterFault` -/

@[simp] theorem enterFault_blocks (c : FaultCode) (i : Word) : (u.enterFault c i).blocks = u.blocks := rfl
@[simp] theorem enterFault_bvalid (c : FaultCode) (i : Word) : (u.enterFault c i).bvalid = u.bvalid := rfl
@[simp] theorem enterFault_qt (c : FaultCode) (i : Word) : (u.enterFault c i).qt = u.qt := rfl
@[simp] theorem enterFault_pd (c : FaultCode) (i : Word) : (u.enterFault c i).pd = u.pd := rfl
@[simp] theorem enterFault_x (c : FaultCode) (i : Word) : (u.enterFault c i).x = u.x := rfl
@[simp] theorem enterFault_y (c : FaultCode) (i : Word) : (u.enterFault c i).y = u.y := rfl
@[simp] theorem enterFault_dx (c : FaultCode) (i : Word) : (u.enterFault c i).dx = u.dx := rfl
@[simp] theorem enterFault_dy (c : FaultCode) (i : Word) : (u.enterFault c i).dy = u.dy := rfl
@[simp] theorem enterFault_lc0 (c : FaultCode) (i : Word) : (u.enterFault c i).lc0 = u.lc0 := rfl
@[simp] theorem enterFault_lc1 (c : FaultCode) (i : Word) : (u.enterFault c i).lc1 = u.lc1 := rfl
@[simp] theorem enterFault_acc (c : FaultCode) (i : Word) : (u.enterFault c i).acc = u.acc := rfl
@[simp] theorem enterFault_z (c : FaultCode) (i : Word) : (u.enterFault c i).z = u.z := rfl
@[simp] theorem enterFault_pc (c : FaultCode) (i : Word) : (u.enterFault c i).pc = u.pc := rfl
@[simp] theorem enterFault_bsp (c : FaultCode) (i : Word) : (u.enterFault c i).bsp = u.bsp := rfl
@[simp] theorem enterFault_bse (c : FaultCode) (i : Word) : (u.enterFault c i).bse = u.bse := rfl
@[simp] theorem enterFault_ie (c : FaultCode) (i : Word) : (u.enterFault c i).ie = u.ie := rfl
@[simp] theorem enterFault_sstep (c : FaultCode) (i : Word) : (u.enterFault c i).sstep = u.sstep := rfl
@[simp] theorem enterFault_busy (c : FaultCode) (i : Word) : (u.enterFault c i).busy = false := rfl
@[simp] theorem enterFault_done (c : FaultCode) (i : Word) : (u.enterFault c i).done = u.done := rfl
@[simp] theorem enterFault_fault (c : FaultCode) (i : Word) : (u.enterFault c i).fault = true := rfl
@[simp] theorem enterFault_fcode (c : FaultCode) (i : Word) : (u.enterFault c i).fcode = c := rfl
@[simp] theorem enterFault_faultPc (c : FaultCode) (i : Word) : (u.enterFault c i).faultPc = u.pc := rfl
@[simp] theorem enterFault_faultInfo (c : FaultCode) (i : Word) : (u.enterFault c i).faultInfo = i := rfl
@[simp] theorem enterFault_cmdcnt (c : FaultCode) (i : Word) : (u.enterFault c i).cmdcnt = u.cmdcnt := rfl

/-! `countBytes` -/

@[simp] theorem countBytes_blocks (n : Nat) (b : Bool) : (u.countBytes n b).blocks = u.blocks := rfl
@[simp] theorem countBytes_bvalid (n : Nat) (b : Bool) : (u.countBytes n b).bvalid = u.bvalid := rfl
@[simp] theorem countBytes_qt (n : Nat) (b : Bool) : (u.countBytes n b).qt = u.qt := rfl
@[simp] theorem countBytes_pd (n : Nat) (b : Bool) : (u.countBytes n b).pd = u.pd := rfl
@[simp] theorem countBytes_x (n : Nat) (b : Bool) : (u.countBytes n b).x = u.x := rfl
@[simp] theorem countBytes_y (n : Nat) (b : Bool) : (u.countBytes n b).y = u.y := rfl
@[simp] theorem countBytes_dx (n : Nat) (b : Bool) : (u.countBytes n b).dx = u.dx := rfl
@[simp] theorem countBytes_dy (n : Nat) (b : Bool) : (u.countBytes n b).dy = u.dy := rfl
@[simp] theorem countBytes_lc0 (n : Nat) (b : Bool) : (u.countBytes n b).lc0 = u.lc0 := rfl
@[simp] theorem countBytes_lc1 (n : Nat) (b : Bool) : (u.countBytes n b).lc1 = u.lc1 := rfl
@[simp] theorem countBytes_acc (n : Nat) (b : Bool) : (u.countBytes n b).acc = BitVec.ofNat 32 n := rfl
@[simp] theorem countBytes_z (n : Nat) (b : Bool) : (u.countBytes n b).z = b := rfl
@[simp] theorem countBytes_pc (n : Nat) (b : Bool) : (u.countBytes n b).pc = u.pc := rfl
@[simp] theorem countBytes_bsp (n : Nat) (b : Bool) : (u.countBytes n b).bsp = u.bsp + BitVec.ofNat 32 n := rfl
@[simp] theorem countBytes_bse (n : Nat) (b : Bool) : (u.countBytes n b).bse = u.bse := rfl
@[simp] theorem countBytes_ie (n : Nat) (b : Bool) : (u.countBytes n b).ie = u.ie := rfl
@[simp] theorem countBytes_sstep (n : Nat) (b : Bool) : (u.countBytes n b).sstep = u.sstep := rfl
@[simp] theorem countBytes_busy (n : Nat) (b : Bool) : (u.countBytes n b).busy = u.busy := rfl
@[simp] theorem countBytes_done (n : Nat) (b : Bool) : (u.countBytes n b).done = u.done := rfl
@[simp] theorem countBytes_fault (n : Nat) (b : Bool) : (u.countBytes n b).fault = u.fault := rfl
@[simp] theorem countBytes_fcode (n : Nat) (b : Bool) : (u.countBytes n b).fcode = u.fcode := rfl
@[simp] theorem countBytes_faultPc (n : Nat) (b : Bool) : (u.countBytes n b).faultPc = u.faultPc := rfl
@[simp] theorem countBytes_faultInfo (n : Nat) (b : Bool) : (u.countBytes n b).faultInfo = u.faultInfo := rfl
@[simp] theorem countBytes_cmdcnt (n : Nat) (b : Bool) : (u.countBytes n b).cmdcnt = u.cmdcnt := rfl

/-! `setCounter` -/

@[simp] theorem setCounter_blocks (n : Counter) (v : Half) : (u.setCounter n v).blocks = u.blocks := by
  cases n <;> rfl
@[simp] theorem setCounter_bvalid (n : Counter) (v : Half) : (u.setCounter n v).bvalid = u.bvalid := by
  cases n <;> rfl
@[simp] theorem setCounter_qt (n : Counter) (v : Half) : (u.setCounter n v).qt = u.qt := by
  cases n <;> rfl
@[simp] theorem setCounter_pd (n : Counter) (v : Half) : (u.setCounter n v).pd = u.pd := by
  cases n <;> rfl
@[simp] theorem setCounter_x (n : Counter) (v : Half) : (u.setCounter n v).x = u.x := by
  cases n <;> rfl
@[simp] theorem setCounter_y (n : Counter) (v : Half) : (u.setCounter n v).y = u.y := by
  cases n <;> rfl
@[simp] theorem setCounter_dx (n : Counter) (v : Half) : (u.setCounter n v).dx = u.dx := by
  cases n <;> rfl
@[simp] theorem setCounter_dy (n : Counter) (v : Half) : (u.setCounter n v).dy = u.dy := by
  cases n <;> rfl
@[simp] theorem setCounter_acc (n : Counter) (v : Half) : (u.setCounter n v).acc = u.acc := by
  cases n <;> rfl
@[simp] theorem setCounter_z (n : Counter) (v : Half) : (u.setCounter n v).z = u.z := by
  cases n <;> rfl
@[simp] theorem setCounter_pc (n : Counter) (v : Half) : (u.setCounter n v).pc = u.pc := by
  cases n <;> rfl
@[simp] theorem setCounter_bsp (n : Counter) (v : Half) : (u.setCounter n v).bsp = u.bsp := by
  cases n <;> rfl
@[simp] theorem setCounter_bse (n : Counter) (v : Half) : (u.setCounter n v).bse = u.bse := by
  cases n <;> rfl
@[simp] theorem setCounter_ie (n : Counter) (v : Half) : (u.setCounter n v).ie = u.ie := by
  cases n <;> rfl
@[simp] theorem setCounter_sstep (n : Counter) (v : Half) : (u.setCounter n v).sstep = u.sstep := by
  cases n <;> rfl
@[simp] theorem setCounter_busy (n : Counter) (v : Half) : (u.setCounter n v).busy = u.busy := by
  cases n <;> rfl
@[simp] theorem setCounter_done (n : Counter) (v : Half) : (u.setCounter n v).done = u.done := by
  cases n <;> rfl
@[simp] theorem setCounter_fault (n : Counter) (v : Half) : (u.setCounter n v).fault = u.fault := by
  cases n <;> rfl
@[simp] theorem setCounter_fcode (n : Counter) (v : Half) : (u.setCounter n v).fcode = u.fcode := by
  cases n <;> rfl
@[simp] theorem setCounter_faultPc (n : Counter) (v : Half) : (u.setCounter n v).faultPc = u.faultPc := by
  cases n <;> rfl
@[simp] theorem setCounter_faultInfo (n : Counter) (v : Half) : (u.setCounter n v).faultInfo = u.faultInfo := by
  cases n <;> rfl
@[simp] theorem setCounter_cmdcnt (n : Counter) (v : Half) : (u.setCounter n v).cmdcnt = u.cmdcnt := by
  cases n <;> rfl

@[simp] theorem setCounter_counter (n : Counter) (v : Half) :
    (u.setCounter n v).counter n = v := by
  cases n <;> rfl

theorem setCounter_counter_of_ne (n m : Counter) (v : Half) (h : m ≠ n) :
    (u.setCounter n v).counter m = u.counter m := by
  cases n <;> cases m <;> first | rfl | exact absurd rfl h

/-! `complete` -/

@[simp] theorem complete_blocks : u.complete.blocks = u.blocks := by
  unfold complete; dsimp only; split <;> rfl
@[simp] theorem complete_bvalid : u.complete.bvalid = u.bvalid := by
  unfold complete; dsimp only; split <;> rfl
@[simp] theorem complete_qt : u.complete.qt = u.qt := by
  unfold complete; dsimp only; split <;> rfl
@[simp] theorem complete_pd : u.complete.pd = u.pd := by
  unfold complete; dsimp only; split <;> rfl
@[simp] theorem complete_x : u.complete.x = u.x := by
  unfold complete; dsimp only; split <;> rfl
@[simp] theorem complete_y : u.complete.y = u.y := by
  unfold complete; dsimp only; split <;> rfl
@[simp] theorem complete_dx : u.complete.dx = u.dx := by
  unfold complete; dsimp only; split <;> rfl
@[simp] theorem complete_dy : u.complete.dy = u.dy := by
  unfold complete; dsimp only; split <;> rfl
@[simp] theorem complete_lc0 : u.complete.lc0 = u.lc0 := by
  unfold complete; dsimp only; split <;> rfl
@[simp] theorem complete_lc1 : u.complete.lc1 = u.lc1 := by
  unfold complete; dsimp only; split <;> rfl
@[simp] theorem complete_acc : u.complete.acc = u.acc := by
  unfold complete; dsimp only; split <;> rfl
@[simp] theorem complete_z : u.complete.z = u.z := by
  unfold complete; dsimp only; split <;> rfl
@[simp] theorem complete_pc : u.complete.pc = u.pc := by
  unfold complete; dsimp only; split <;> rfl
@[simp] theorem complete_bsp : u.complete.bsp = u.bsp := by
  unfold complete; dsimp only; split <;> rfl
@[simp] theorem complete_bse : u.complete.bse = u.bse := by
  unfold complete; dsimp only; split <;> rfl
@[simp] theorem complete_ie : u.complete.ie = u.ie := by
  unfold complete; dsimp only; split <;> rfl
@[simp] theorem complete_sstep : u.complete.sstep = u.sstep := by
  unfold complete; dsimp only; split <;> rfl
@[simp] theorem complete_fault : u.complete.fault = u.fault := by
  unfold complete; dsimp only; split <;> rfl
@[simp] theorem complete_fcode : u.complete.fcode = u.fcode := by
  unfold complete; dsimp only; split <;> rfl
@[simp] theorem complete_faultPc : u.complete.faultPc = u.faultPc := by
  unfold complete; dsimp only; split <;> rfl
@[simp] theorem complete_faultInfo : u.complete.faultInfo = u.faultInfo := by
  unfold complete; dsimp only; split <;> rfl
@[simp] theorem complete_cmdcnt : u.complete.cmdcnt = u.cmdcnt + 1 := by
  unfold complete; dsimp only; split <;> rfl

@[simp] theorem complete_busy : u.complete.busy = (u.busy && !u.sstep) := by
  unfold complete; dsimp only; split <;> simp_all

@[simp] theorem complete_done : u.complete.done = (u.done || (u.busy && u.sstep)) := by
  unfold complete; dsimp only; split <;> simp_all

@[simp] theorem complete_counter (n : Counter) : u.complete.counter n = u.counter n := by
  cases n <;> simp [counter]

@[simp] theorem advance_counter (n : Counter) : u.advance.counter n = u.counter n := by
  cases n <;> rfl

/-! `branchIf` -/

@[simp] theorem branchIf_blocks {k : Nat} (b : Bool) (off : BitVec k) :
    (u.branchIf b off).blocks = u.blocks := by
  unfold branchIf; split <;> rfl
@[simp] theorem branchIf_bvalid {k : Nat} (b : Bool) (off : BitVec k) :
    (u.branchIf b off).bvalid = u.bvalid := by
  unfold branchIf; split <;> rfl
@[simp] theorem branchIf_qt {k : Nat} (b : Bool) (off : BitVec k) :
    (u.branchIf b off).qt = u.qt := by
  unfold branchIf; split <;> rfl
@[simp] theorem branchIf_pd {k : Nat} (b : Bool) (off : BitVec k) :
    (u.branchIf b off).pd = u.pd := by
  unfold branchIf; split <;> rfl
@[simp] theorem branchIf_x {k : Nat} (b : Bool) (off : BitVec k) :
    (u.branchIf b off).x = u.x := by
  unfold branchIf; split <;> rfl
@[simp] theorem branchIf_y {k : Nat} (b : Bool) (off : BitVec k) :
    (u.branchIf b off).y = u.y := by
  unfold branchIf; split <;> rfl
@[simp] theorem branchIf_dx {k : Nat} (b : Bool) (off : BitVec k) :
    (u.branchIf b off).dx = u.dx := by
  unfold branchIf; split <;> rfl
@[simp] theorem branchIf_dy {k : Nat} (b : Bool) (off : BitVec k) :
    (u.branchIf b off).dy = u.dy := by
  unfold branchIf; split <;> rfl
@[simp] theorem branchIf_lc0 {k : Nat} (b : Bool) (off : BitVec k) :
    (u.branchIf b off).lc0 = u.lc0 := by
  unfold branchIf; split <;> rfl
@[simp] theorem branchIf_lc1 {k : Nat} (b : Bool) (off : BitVec k) :
    (u.branchIf b off).lc1 = u.lc1 := by
  unfold branchIf; split <;> rfl
@[simp] theorem branchIf_acc {k : Nat} (b : Bool) (off : BitVec k) :
    (u.branchIf b off).acc = u.acc := by
  unfold branchIf; split <;> rfl
@[simp] theorem branchIf_z {k : Nat} (b : Bool) (off : BitVec k) :
    (u.branchIf b off).z = u.z := by
  unfold branchIf; split <;> rfl
@[simp] theorem branchIf_bsp {k : Nat} (b : Bool) (off : BitVec k) :
    (u.branchIf b off).bsp = u.bsp := by
  unfold branchIf; split <;> rfl
@[simp] theorem branchIf_bse {k : Nat} (b : Bool) (off : BitVec k) :
    (u.branchIf b off).bse = u.bse := by
  unfold branchIf; split <;> rfl
@[simp] theorem branchIf_ie {k : Nat} (b : Bool) (off : BitVec k) :
    (u.branchIf b off).ie = u.ie := by
  unfold branchIf; split <;> rfl
@[simp] theorem branchIf_sstep {k : Nat} (b : Bool) (off : BitVec k) :
    (u.branchIf b off).sstep = u.sstep := by
  unfold branchIf; split <;> rfl
@[simp] theorem branchIf_busy {k : Nat} (b : Bool) (off : BitVec k) :
    (u.branchIf b off).busy = u.busy := by
  unfold branchIf; split <;> rfl
@[simp] theorem branchIf_done {k : Nat} (b : Bool) (off : BitVec k) :
    (u.branchIf b off).done = u.done := by
  unfold branchIf; split <;> rfl
@[simp] theorem branchIf_fault {k : Nat} (b : Bool) (off : BitVec k) :
    (u.branchIf b off).fault = u.fault := by
  unfold branchIf; split <;> rfl
@[simp] theorem branchIf_fcode {k : Nat} (b : Bool) (off : BitVec k) :
    (u.branchIf b off).fcode = u.fcode := by
  unfold branchIf; split <;> rfl
@[simp] theorem branchIf_faultPc {k : Nat} (b : Bool) (off : BitVec k) :
    (u.branchIf b off).faultPc = u.faultPc := by
  unfold branchIf; split <;> rfl
@[simp] theorem branchIf_faultInfo {k : Nat} (b : Bool) (off : BitVec k) :
    (u.branchIf b off).faultInfo = u.faultInfo := by
  unfold branchIf; split <;> rfl
@[simp] theorem branchIf_cmdcnt {k : Nat} (b : Bool) (off : BitVec k) :
    (u.branchIf b off).cmdcnt = u.cmdcnt := by
  unfold branchIf; split <;> rfl

@[simp] theorem branchIf_counter {k : Nat} (b : Bool) (off : BitVec k) (n : Counter) :
    (u.branchIf b off).counter n = u.counter n := by
  cases n <;> simp [counter]

theorem branchIf_pc {k : Nat} (b : Bool) (off : BitVec k) :
    (u.branchIf b off).pc = if b then branchTarget u.pc off else u.pc + 4 := by
  unfold branchIf; split <;> rfl

end UnitState

end Sys2Proof.Machine
end

