-- ==== Sys2Proof/Laws/Ops.lean ====
section
/-! SUPPORT. What each shared operation of Machine/Ops.lean can do, said once: how a command ends, byte
accesses, storing bytes in order, the registers a completion and a fault change, and units. -/

namespace Sys2Proof.Machine

/-! ### How a command ends -/

@[simp] theorem endCommand_ok (s : State) (u : UnitState) :
    s.endCommand (.ok u) = .next { s with unit := u.complete, draws := s.draws + 1 } := rfl

@[simp] theorem endCommand_raise (s : State) (code : FaultCode) (info : Word) :
    s.endCommand (.error (.raise code info))
      = .next { s with unit := s.unit.enterFault code info, draws := s.draws + 1 } := rfl

@[simp] theorem endCommand_refuse (s : State) (why : Refusal) :
    s.endCommand (.error (.refuse why)) = .refused why := rfl

/-- Everything `endCommand` can answer as a next state. -/
theorem endCommand_next {s t : State} {r : Except Stop UnitState} (h : s.endCommand r = .next t) :
    (∃ u, r = .ok u ∧ t = { s with unit := u.complete, draws := s.draws + 1 })
      ∨ ∃ code info, r = .error (.raise code info)
        ∧ t = { s with unit := s.unit.enterFault code info, draws := s.draws + 1 } := by
  match r, h with
  | .ok u, h => exact .inl ⟨u, rfl, by simpa using h.symm⟩
  | .error (.raise code info), h => exact .inr ⟨code, info, rfl, by simpa using h.symm⟩

/-- A register that neither the step nor HALT's status writes keeps its value at completion. -/
theorem same_complete (u : UnitState) (r : RegName) (h : r ∉ stepRegs) : r.same u u.complete := by
  cases r <;> simp_all [RegName.same, stepRegs]

/-- A register that is none of the fault's keeps its value at fault entry. -/
theorem same_enterFault (u : UnitState) (code : FaultCode) (info : Word) (r : RegName)
    (h : r ∉ faultRegs) : r.same u (u.enterFault code info) := by
  cases r with
  | lc n => cases n <;> rfl
  | _ => simp_all [RegName.same, faultRegs]

theorem RegName.same_refl (r : RegName) (u : UnitState) : r.same u u := by
  cases r <;> rfl

theorem RegName.same_trans {r : RegName} {u v w : UnitState} (h : r.same u v) (h' : r.same v w) :
    r.same u w := by
  cases r <;> exact Eq.trans h' h

/-! ### Byte accesses -/

/-- A hole raises BUS_ERROR with the address. -/
theorem denies_of_not_busOK {s : State} {a : Word} (h : s.busOK a = false) :
    s.denies a = some (.raise .busError a) := by
  simp only [State.busOK, bne_eq_false_iff_eq] at h
  simp [State.denies, h]

/-- What stops a write stops a read too. -/
theorem denies_of_deniesWrite {s : State} {a : Word} {e : Stop} (h : s.deniesWrite a = some e) :
    s.denies a = some e := by
  simp only [State.deniesWrite] at h
  split at h
  · cases h
  · cases h
  · rename_i hk; cases h; simp [State.denies, hk]
  · rename_i hk; cases h; simp [State.denies, hk]

theorem writable_of_plain {s : State} {a : Word} (h : s.Plain a) : s.Writable a := by
  by_contra hw
  obtain ⟨e, he⟩ := Option.ne_none_iff_exists'.mp hw
  exact absurd (denies_of_deniesWrite he) (by rw [h]; simp)

theorem storable_of_readable {s : State} {a : Word} (h : s.Readable a) : s.Storable a :=
  ⟨writable_of_plain h.1, h.2⟩

theorem deniesWrite_of_not_busOK {s : State} {a : Word} (h : s.busOK a = false) :
    s.deniesWrite a = some (.raise .busError a) := by
  simp only [State.busOK, bne_eq_false_iff_eq] at h
  simp [State.deniesWrite, h]

/-- What stops an access is a bus error with its address, or a refusal. -/
theorem denies_cases {s : State} {a : Word} {e : Stop} (h : s.denies a = some e) :
    e = .raise .busError a ∨ ∃ why, e = .refuse why := by
  simp only [State.denies] at h
  split at h <;> cases h <;> simp

/-- With nothing on the platform that the spec leaves outside the model, an access completes or raises
BUS_ERROR. -/
theorem denies_of_nothingRefused {s : State} (hs : s.NothingRefused) {a : Word} {e : Stop}
    (h : s.denies a = some e) : e = .raise .busError a := by
  have key : ∀ k, s.regionKind a = some k → k = .hole := by
    intro k hk
    simp only [State.regionKind, Option.map_eq_some_iff] at hk
    obtain ⟨r, hr, rfl⟩ := hk
    exact hs r (List.mem_of_find?_eq_some hr)
  simp only [State.denies] at h
  split at h
  · cases h
  · cases h; rfl
  · rename_i hk; cases key _ hk
  · rename_i hk; cases key _ hk

theorem observe_of_settled {s : State} {t : Access} {a : Word} (h : s.Settled a) :
    s.observe t a = s.mem.read a.toNat := by
  have h : s.staleFor (.unit s.self) a.toNat = [] := h
  simp [State.observe, State.observeAs, h]

theorem readByte_of_plain {s : State} {t : Access} {a : Word} (h : s.Plain a) :
    s.readByte t a = .ok (s.observe t a) := by
  simp [State.readByte, h]

theorem readByte_of_readable {s : State} {t : Access} {a : Word} (h : s.Readable a) :
    s.readByte t a = .ok (s.mem.read a.toNat) := by
  rw [readByte_of_plain h.1, observe_of_settled h.2]

theorem readByte_of_denied {s : State} {t : Access} {a : Word} {e : Stop} (h : s.denies a = some e) :
    s.readByte t a = .error e := by
  simp [State.readByte, h]

/-- Reading plain bytes gives what each read observes, in order. -/
theorem readBytes_of_plain {s : State} : ∀ {l : List (Access × Word)}, (∀ x ∈ l, s.Plain x.2) →
    s.readBytes l = .ok (l.map fun x => s.observe x.1 x.2)
  | [], _ => rfl
  | (t, a) :: l, h => by
    have ha : s.Plain a := h (t, a) (by simp)
    have hl : ∀ x ∈ l, s.Plain x.2 := fun x hx => h x (by simp [hx])
    simp [State.readBytes, readByte_of_plain ha, readBytes_of_plain hl]

/-- Reading readable bytes gives the bytes of memory, in order. -/
theorem readBytes_of_readable {s : State} {l : List (Access × Word)}
    (h : ∀ x ∈ l, s.Readable x.2) :
    s.readBytes l = .ok (l.map fun x => s.mem.read x.2.toNat) := by
  rw [readBytes_of_plain fun x hx => (h x hx).1]
  exact congrArg _ (List.map_congr_left fun x hx => observe_of_settled (h x hx).2)

/-- The first byte in the list that is denied stops the reading. -/
theorem readBytes_of_denied {s : State} {t : Access} {a : Word} {e : Stop}
    {l l' : List (Access × Word)} (h : ∀ x ∈ l, s.Plain x.2) (ha : s.denies a = some e) :
    s.readBytes (l ++ (t, a) :: l') = .error e := by
  induction l with
  | nil => simp [State.readBytes, readByte_of_denied ha]
  | cons x l ih =>
    have hx : s.Plain x.2 := h x (by simp)
    simp [State.readBytes, readByte_of_plain hx, ih fun y hy => h y (by simp [hy])]

/-- Reading fails only where some byte of the list is denied. -/
theorem readBytes_error {s : State} : ∀ {l : List (Access × Word)} {e : Stop},
    s.readBytes l = .error e → ∃ x ∈ l, s.denies x.2 = some e
  | (t, a) :: l, e, h => by
    simp only [State.readBytes, State.readByte] at h
    cases hd : s.denies a with
    | some e' => simp only [hd] at h; cases h; exact ⟨(t, a), by simp, hd⟩
    | none =>
      simp only [hd] at h
      cases hl : s.readBytes l with
      | error e' =>
        simp only [hl] at h; cases h
        obtain ⟨x, hx, hx'⟩ := readBytes_error hl
        exact ⟨x, by simp [hx], hx'⟩
      | ok bs => simp only [hl] at h; cases h

/-! ### Races -/

/-- Agent `w`'s write of a byte changes memory and the list of races, nothing else; the byte written stays
unless it loses a race. -/
theorem writeAs_cases (s : State) (w : Agent) (t : Access) (a : Word) (v : Byte) :
    (∃ r, s.writeAs w t a v = { s with mem := s.mem.write a.toNat v, races := r })
      ∨ s.contested w a.toNat = true ∧ ∃ r, s.writeAs w t a v = { s with races := r } := by
  unfold State.writeAs
  dsimp only
  split
  · rename_i h
    simp only [State.keepsOther, Bool.and_eq_true] at h
    exact .inr ⟨h.1, _, rfl⟩
  · exact .inl ⟨_, rfl⟩

theorem staleFor_eq_nil {s : State} {r : Agent} {a : Nat} : s.staleFor r a = [] ↔
    ∀ e es, s.racesAt a = e :: es → s.hides r e = false := by
  unfold State.staleFor
  cases s.racesAt a with
  | nil => simp
  | cons e es => cases h : s.hides r e <;> simp_all

/-- Where nothing is open for an agent its write races with none. -/
theorem contested_of_staleFor {s : State} {w : Agent} {a : Nat} (h : s.staleFor w a = []) :
    s.contested w a = false := by
  rw [staleFor_eq_nil] at h
  unfold State.contested
  split
  · rfl
  · rename_i e es he
    exact h e es he

/-- No agent misses its own write. -/
theorem hides_newWrite (s t : State) (w : Agent) (a : Nat) (v : Byte) :
    t.hides w (s.newWrite w a v) = false := by
  cases w with
  | host => rfl
  | unit u => simp [State.hides, State.newWrite]

/-- Where nothing is open for an agent its write stays, and it sees it. -/
theorem writeAs_of_staleFor {s : State} {w : Agent} {t : Access} {a : Word} {v : Byte}
    (h : s.staleFor w a.toNat = []) :
    (s.writeAs w t a v).mem = s.mem.write a.toNat v ∧ (s.writeAs w t a v).staleFor w a.toNat = [] := by
  have hk : s.keepsOther w t a = false := by
    simp [State.keepsOther, contested_of_staleFor h]
  refine ⟨by simp [State.writeAs, hk], ?_⟩
  rw [staleFor_eq_nil]
  intro e es he
  have : e = s.newWrite w a.toNat (s.mem.read a.toNat) := by
    simp [State.writeAs, hk, State.racesAt, State.newWrite] at he
    exact he.1.symm
  rw [this]
  exact hides_newWrite ..

theorem filter_putUnder_of_ne {new : RaceWrite} {b : Nat} {v : Byte} (h : b ≠ new.addr) :
    ∀ l : List RaceWrite, (putUnder new v l).filter (·.addr == b) = l.filter (·.addr == b)
  | [] => rfl
  | e :: es => by
    unfold putUnder
    split
    · rename_i he
      simp [he, Ne.symm h]
    · rw [List.filter_cons, List.filter_cons, filter_putUnder_of_ne h es]

/-- A write of one byte leaves the races of every other byte as they are. -/
theorem racesAt_writeAs_of_ne {s : State} {w : Agent} {t : Access} {a : Word} {v : Byte} {b : Nat}
    (h : b ≠ a.toNat) : (s.writeAs w t a v).racesAt b = s.racesAt b := by
  unfold State.writeAs State.racesAt
  dsimp only
  split
  · exact filter_putUnder_of_ne h _
  · rw [List.filter_cons, if_neg]
    simpa [State.newWrite] using Ne.symm h

/-! ### Storing bytes -/

/-- A store changes memory and the list of races, nothing else; the byte stays or loses a race. -/
theorem storeByte_eq (s : State) (left : Nat) (a : Word) (v : Byte) : ∃ m r,
    s.storeByte left a v = { s with mem := m, races := r }
      ∧ (m = s.mem.write a.toNat v ∨ m = s.mem) := by
  obtain ⟨r, h⟩ | ⟨-, r, h⟩ := writeAs_cases s (.unit s.self) (.store left) a v
  · exact ⟨_, r, h, .inl rfl⟩
  · exact ⟨_, r, h, .inr rfl⟩

/-- Storing bytes changes memory and the list of races, nothing else. -/
theorem storeBytes_eq (s : State) : ∀ cells : List (Word × Byte), ∃ m st,
    (s.storeBytes cells).1 = { s with mem := m, races := st } := by
  intro cells
  induction cells generalizing s with
  | nil => exact ⟨s.mem, s.races, rfl⟩
  | cons c cells ih =>
    simp only [State.storeBytes]
    split
    · exact ⟨s.mem, s.races, rfl⟩
    · obtain ⟨m, st, h⟩ := ih (s.storeByte cells.length c.1 c.2)
      obtain ⟨m', st', h', -⟩ := storeByte_eq s cells.length c.1 c.2
      exact ⟨m, st, by rw [h, h']⟩

@[simp] theorem storeByte_deniesWrite (s : State) (left : Nat) (a b : Word) (v : Byte) :
    (s.storeByte left a v).deniesWrite b = s.deniesWrite b := by
  obtain ⟨m, r, h, -⟩ := storeByte_eq s left a v
  rw [h]; rfl

/-- The memory after writing bytes one at a time in the order of the list. -/
def Memory.writeCells (m : Memory) : List (Word × Byte) → Memory
  | [] => m
  | (a, v) :: cells => Memory.writeCells (m.write a.toNat v) cells

/-- A unit's own store of a settled byte stays, and the byte is settled for it (20_memory.md R80). -/
theorem storeByte_of_settled {s : State} {left : Nat} {a : Word} {v : Byte} (h : s.Settled a) :
    (s.storeByte left a v).mem = s.mem.write a.toNat v ∧ (s.storeByte left a v).Settled a := by
  obtain ⟨h1, h2⟩ := writeAs_of_staleFor (t := .store left) (v := v) h
  obtain ⟨m, r, h3, -⟩ := storeByte_eq s left a v
  refine ⟨h1, ?_⟩
  have hs : (s.storeByte left a v).self = s.self := by rw [h3]
  unfold State.Settled State.staleAt
  rw [hs]
  exact h2

/-- A later store keeps a settled byte settled. -/
theorem settled_storeByte_of_settled {s : State} {left : Nat} {a b : Word} {v : Byte}
    (h : s.Settled b) : (s.storeByte left a v).Settled b := by
  by_cases e : b = a
  · subst e; exact (storeByte_of_settled h).2
  · obtain ⟨m, r, h3, -⟩ := storeByte_eq s left a v
    have hs : (s.storeByte left a v).self = s.self := by rw [h3]
    have hr : (s.storeByte left a v).racesAt b.toNat = s.racesAt b.toNat :=
      racesAt_writeAs_of_ne fun e' => e (BitVec.eq_of_toNat_eq e')
    unfold State.Settled State.staleAt State.staleFor at h ⊢
    rw [hs, hr]
    exact h

/-- Storing to writable addresses completes; where the bytes are settled too, every byte of the list is
written, in order. -/
theorem storeBytes_of_writable : ∀ {s : State} {cells : List (Word × Byte)},
    (∀ c ∈ cells, s.Writable c.1) → (s.storeBytes cells).2 = none
      ∧ ((∀ c ∈ cells, s.Settled c.1) → (s.storeBytes cells).1.mem = s.mem.writeCells cells)
  | s, [], _ => ⟨rfl, fun _ => rfl⟩
  | s, (a, v) :: cells, h => by
    have ha : s.deniesWrite a = none := h (a, v) (by simp)
    obtain ⟨h1, h2⟩ := storeBytes_of_writable (s := s.storeByte cells.length a v) (cells := cells)
      fun c hc => (storeByte_deniesWrite ..).trans (h c (by simp [hc]))
    simp only [State.storeBytes, ha, Memory.writeCells]
    refine ⟨h1, fun hs => ?_⟩
    rw [h2 fun c hc => settled_storeByte_of_settled (hs c (by simp [hc])),
      (storeByte_of_settled (hs (a, v) (by simp))).1]

/-- The first byte of the list that is denied stops the storing, after the bytes before it. -/
theorem storeBytes_of_denied {e : Stop} {a : Word} {v : Byte} {cells' : List (Word × Byte)} :
    ∀ {s : State} {cells : List (Word × Byte)}, (∀ c ∈ cells, s.Writable c.1) →
    s.deniesWrite a = some e →
    (s.storeBytes (cells ++ (a, v) :: cells')).2 = some e
      ∧ ((∀ c ∈ cells, s.Settled c.1) →
        (s.storeBytes (cells ++ (a, v) :: cells')).1.mem = s.mem.writeCells cells)
  | s, [], _, ha => by simp [State.storeBytes, ha, Memory.writeCells]
  | s, (b, w) :: cells, h, ha => by
    have hb : s.deniesWrite b = none := h (b, w) (by simp)
    obtain ⟨h1, h2⟩ := storeBytes_of_denied (v := v) (cells' := cells')
      (s := s.storeByte (cells ++ (a, v) :: cells').length b w) (cells := cells) (e := e) (a := a)
      (fun c hc => (storeByte_deniesWrite ..).trans (h c (by simp [hc])))
      ((storeByte_deniesWrite ..).trans ha)
    simp only [List.cons_append, State.storeBytes, hb, Memory.writeCells]
    refine ⟨h1, fun hs => ?_⟩
    rw [h2 fun c hc => settled_storeByte_of_settled (hs c (by simp [hc])),
      (storeByte_of_settled (hs (b, w) (by simp))).1]

/-- Whatever stops the storing and whatever races the bytes lose, memory holds some of the list's bytes,
in order. -/
theorem storeBytes_mem : ∀ (s : State) (cells : List (Word × Byte)), ∃ done,
    done.Sublist cells ∧ (s.storeBytes cells).1.mem = s.mem.writeCells done
  | s, [] => ⟨[], List.Sublist.slnil, rfl⟩
  | s, (a, v) :: cells => by
    simp only [State.storeBytes]
    split
    · exact ⟨[], List.nil_sublist _, rfl⟩
    · obtain ⟨done, hp, h⟩ := storeBytes_mem (s.storeByte cells.length a v) cells
      obtain ⟨m, r, h', hm⟩ := storeByte_eq s cells.length a v
      have hm' : (s.storeByte cells.length a v).mem = m := by rw [h']
      rw [hm'] at h
      rcases hm with rfl | rfl
      · exact ⟨(a, v) :: done, hp.cons_cons _, h⟩
      · exact ⟨done, hp.cons _, h⟩

/-- What stops the storing is what denies one of the addresses. -/
theorem storeBytes_stop : ∀ {s : State} {cells : List (Word × Byte)} {e : Stop},
    (s.storeBytes cells).2 = some e → ∃ c ∈ cells, s.deniesWrite c.1 = some e
  | s, (a, v) :: cells, e, h => by
    simp only [State.storeBytes] at h
    split at h
    · rename_i e' he; cases h; exact ⟨(a, v), by simp, he⟩
    · obtain ⟨c, hc, h'⟩ := storeBytes_stop h
      exact ⟨c, by simp [hc], by simpa using h'⟩

/-- Storing bytes changes neither the unit nor its index. -/
theorem storeBytes_unit (s : State) (cells : List (Word × Byte)) :
    (s.storeBytes cells).1.unit = s.unit ∧ (s.storeBytes cells).1.self = s.self := by
  obtain ⟨m, st, h⟩ := storeBytes_eq s cells
  rw [h]
  exact ⟨rfl, rfl⟩

theorem settled_storeBytes_of_settled : ∀ {s : State} {cells : List (Word × Byte)} {b : Word},
    s.Settled b → (s.storeBytes cells).1.Settled b
  | s, [], b, h => h
  | s, (a, v) :: cells, b, h => by
    simp only [State.storeBytes]
    split
    · exact h
    · exact settled_storeBytes_of_settled (settled_storeByte_of_settled h)

theorem wf_writeCells : ∀ {m : Memory} (cells : List (Word × Byte)), m.wf = true →
    (m.writeCells cells).wf = true
  | _, [], h => h
  | _, (a, v) :: cells, h => wf_writeCells cells (Memory.wf_write h a.isLt v)

/-- A byte at no address of the list keeps its value. -/
theorem read_writeCells_of_notMem : ∀ {m : Memory} {cells : List (Word × Byte)} {x : Nat},
    m.wf = true → (∀ c ∈ cells, c.1.toNat ≠ x) → (m.writeCells cells).read x = m.read x
  | _, [], _, _, _ => rfl
  | m, (a, v) :: cells, x, h, hx => by
    have ha : x ≠ a.toNat := fun e => hx (a, v) (by simp) e.symm
    rw [Memory.writeCells, read_writeCells_of_notMem (Memory.wf_write h a.isLt v)
      fun c hc => hx c (by simp [hc]), Memory.read_write h, if_neg ha]

/-- The last write to an address stays. -/
theorem read_writeCells_append : ∀ {m : Memory} (before : List (Word × Byte)) {a : Word} {v : Byte}
    {after : List (Word × Byte)}, m.wf = true → (∀ c ∈ after, c.1 ≠ a) →
    (m.writeCells (before ++ (a, v) :: after)).read a.toNat = v
  | m, [], a, v, after, h, hx => by
    rw [List.nil_append, Memory.writeCells, read_writeCells_of_notMem
      (Memory.wf_write h a.isLt v) fun c hc e => hx c hc (BitVec.eq_of_toNat_eq e),
      Memory.read_write h, if_pos rfl]
  | m, (b, w) :: before, a, v, after, h, hx => by
    rw [List.cons_append, Memory.writeCells]
    exact read_writeCells_append before (Memory.wf_write h b.isLt w) hx

/-- A byte after a list of writes is one of those written, or the byte before. -/
theorem read_writeCells_cases : ∀ {m : Memory} (cells : List (Word × Byte)) (x : Nat), m.wf = true →
    (m.writeCells cells).read x = m.read x
      ∨ ∃ c ∈ cells, c.1.toNat = x ∧ (m.writeCells cells).read x = c.2
  | _, [], _, _ => .inl rfl
  | m, (a, v) :: cells, x, h => by
    rw [Memory.writeCells]
    obtain e | ⟨c, hc, hx, e⟩ := read_writeCells_cases cells x (Memory.wf_write h a.isLt v)
    · rw [e, Memory.read_write h]
      split
      · rename_i hx; exact .inr ⟨(a, v), by simp, hx.symm, rfl⟩
      · exact .inl rfl
    · exact .inr ⟨c, by simp [hc], hx, e⟩

/-- Writes of the same bytes to memories that agree on a byte leave it the same in both. -/
theorem read_writeCells_congr : ∀ {m m' : Memory} (cells : List (Word × Byte)) {x : Nat}, m.wf = true →
    m'.wf = true → m.read x = m'.read x → (m.writeCells cells).read x = (m'.writeCells cells).read x
  | _, _, [], _, _, _, h => h
  | m, m', (a, v) :: cells, x, hm, hm', h => by
    rw [Memory.writeCells, Memory.writeCells]
    refine read_writeCells_congr cells (Memory.wf_write hm a.isLt v) (Memory.wf_write hm' a.isLt v) ?_
    rw [Memory.read_write hm, Memory.read_write hm', h]

/-- No byte of the list can be stored: it is empty, or its first address is denied. -/
def State.StopsAt (s : State) (tail : List (Word × Byte)) : Prop :=
  ∀ c, tail.head? = some c → s.deniesWrite c.1 ≠ none

theorem storeBytes_of_stopsAt {s : State} {tail : List (Word × Byte)} (h : s.StopsAt tail) :
    (s.storeBytes tail).1 = s := by
  cases tail with
  | nil => rfl
  | cons c tail =>
    obtain ⟨e, he⟩ := Option.ne_none_iff_exists'.mp (h c rfl)
    simp [State.storeBytes, he]

/-- Where the bytes of `cells` are writable and the rest stops, a settled byte ends as if every byte of
`cells` were written in order. -/
theorem read_storeBytes_of_settled {b : Word} {tail : List (Word × Byte)} :
    ∀ {s : State} {cells : List (Word × Byte)}, (∀ c ∈ cells, s.Writable c.1) → s.StopsAt tail →
    s.Settled b → s.mem.wf = true →
    (s.storeBytes (cells ++ tail)).1.mem.read b.toNat = (s.mem.writeCells cells).read b.toNat
  | s, [], _, ht, _, _ => by rw [List.nil_append, storeBytes_of_stopsAt ht]; rfl
  | s, (a, v) :: cells, h, ht, hb, hm => by
    have ha : s.deniesWrite a = none := h (a, v) (by simp)
    generalize hl : (cells ++ tail).length = left
    have hw : (s.storeByte left a v).mem.wf = true := by
      obtain ⟨m, r, h', rfl | rfl⟩ := storeByte_eq s left a v <;> rw [h']
      · exact Memory.wf_write hm a.isLt v
      · exact hm
    have ih := read_storeBytes_of_settled (s := s.storeByte left a v) (cells := cells)
      (fun c hc => (storeByte_deniesWrite ..).trans (h c (by simp [hc])))
      (fun c hc => by rw [storeByte_deniesWrite]; exact ht c hc)
      (settled_storeByte_of_settled hb) hw
    simp only [List.cons_append, State.storeBytes, ha, Memory.writeCells, hl]
    rw [ih]
    refine read_writeCells_congr cells hw (Memory.wf_write hm a.isLt v) ?_
    by_cases e : b = a
    · subst e; rw [(storeByte_of_settled hb).1]
    · have e' : b.toNat ≠ a.toNat := fun e' => e (BitVec.eq_of_toNat_eq e')
      obtain ⟨m, r, h', rfl | rfl⟩ := storeByte_eq s left a v <;> rw [h']
      rw [Memory.read_write hm, if_neg e']

/-- Where the bytes of `cells` are writable and the rest stops, memory holds some of `cells`, in order. -/
theorem storeBytes_mem_of_stopsAt {tail : List (Word × Byte)} :
    ∀ {s : State} {cells : List (Word × Byte)}, (∀ c ∈ cells, s.Writable c.1) → s.StopsAt tail →
    ∃ done, done.Sublist cells ∧ (s.storeBytes (cells ++ tail)).1.mem = s.mem.writeCells done
  | s, [], _, ht =>
    ⟨[], List.Sublist.slnil, by rw [List.nil_append, storeBytes_of_stopsAt ht]; rfl⟩
  | s, (a, v) :: cells, h, ht => by
    have ha : s.deniesWrite a = none := h (a, v) (by simp)
    generalize hl : (cells ++ tail).length = left
    obtain ⟨done, hp, e⟩ := storeBytes_mem_of_stopsAt (s := s.storeByte left a v) (cells := cells)
      (fun c hc => (storeByte_deniesWrite ..).trans (h c (by simp [hc])))
      (fun c hc => by rw [storeByte_deniesWrite]; exact ht c hc)
    simp only [List.cons_append, State.storeBytes, ha, hl]
    obtain ⟨m, r, h', hm⟩ := storeByte_eq s left a v
    have hm' : (s.storeByte left a v).mem = m := by rw [h']
    rw [hm'] at e
    rcases hm with rfl | rfl
    · exact ⟨(a, v) :: done, hp.cons_cons _, e⟩
    · exact ⟨done, hp.cons _, e⟩

/-! ### A store and then the end of the command -/

/-- Store bytes and end the command with `r`, or with what stopped the storing. -/
def State.endAfter (s : State) (cells : List (Word × Byte)) (r : Except Stop UnitState) : Result :=
  match s.storeBytes cells with
  | (t, none) => t.endCommand r
  | (t, some e) => t.endCommand (.error e)

theorem endCommand_eq_endAfter (s : State) (r : Except Stop UnitState) :
    s.endCommand r = s.endAfter [] r := rfl

theorem endStore_eq_endAfter (s : State) (cells : List (Word × Byte))
    (regs : UnitState → UnitState) : s.endStore cells regs = s.endAfter cells (.ok (regs s.unit)) := by
  obtain ⟨m, st, h⟩ := storeBytes_eq s cells
  have hu : (s.storeBytes cells).1.unit = s.unit := by rw [h]
  unfold State.endStore State.endAfter
  split <;> rename_i h' <;> simp only [h'] at hu ⊢
  rw [hu]

/-- Everything `endAfter` can answer as a next state. -/
theorem endAfter_next {s t : State} {cells : List (Word × Byte)} {r : Except Stop UnitState}
    (h : s.endAfter cells r = .next t) : ∃ m st, m = (s.storeBytes cells).1.mem ∧
      ((∃ u, r = .ok u ∧ (s.storeBytes cells).2 = none
          ∧ t = { s with unit := u.complete, mem := m, races := st, draws := s.draws + 1 })
        ∨ ∃ code info,
          t = { s with unit := s.unit.enterFault code info, mem := m, races := st,
                       draws := s.draws + 1 }
          ∧ ((s.storeBytes cells).2 = some (.raise code info)
            ∨ ((s.storeBytes cells).2 = none ∧ r = .error (.raise code info)))) := by
  obtain ⟨m, st, hm⟩ := storeBytes_eq s cells
  unfold State.endAfter at h
  refine ⟨m, st, by rw [hm], ?_⟩
  split at h <;> rename_i t' hs' <;> simp only [hs'] at hm ⊢ <;> subst hm
  · obtain ⟨u, rfl, rfl⟩ | ⟨code, info, rfl, rfl⟩ := endCommand_next h
    · exact .inl ⟨u, rfl, by simp⟩
    · exact .inr ⟨code, info, rfl, by simp⟩
  · obtain ⟨u, h', -⟩ | ⟨code, info, h', rfl⟩ := endCommand_next h
    · cases h'
    · cases h'; exact .inr ⟨code, info, rfl, by simp⟩

/-- Storing to writable addresses and then writing registers completes. -/
theorem endStore_of_writable {s : State} {cells : List (Word × Byte)} {regs : UnitState → UnitState}
    (h : ∀ c ∈ cells, s.Writable c.1) : s.endStore cells regs
      = .next { s with unit := (regs s.unit).complete, mem := (s.storeBytes cells).1.mem,
                       races := (s.storeBytes cells).1.races, draws := s.draws + 1 } := by
  obtain ⟨h1, -⟩ := storeBytes_of_writable h
  obtain ⟨m, st, h3⟩ := storeBytes_eq s cells
  rw [endStore_eq_endAfter, State.endAfter]
  generalize s.storeBytes cells = r at h1 h3
  obtain ⟨t, e⟩ := r
  dsimp only at h1 h3
  subst h1 h3
  rfl

/-- Storing to settled, writable addresses and then writing registers completes with all bytes written. -/
theorem endStore_of_storable {s : State} {cells : List (Word × Byte)} {regs : UnitState → UnitState}
    (h : ∀ c ∈ cells, s.Storable c.1) : s.endStore cells regs
      = .next { s with unit := (regs s.unit).complete, mem := s.mem.writeCells cells,
                       races := (s.storeBytes cells).1.races, draws := s.draws + 1 } := by
  have hw : ∀ c ∈ cells, s.Writable c.1 := fun c hc => (h c hc).1
  rw [endStore_of_writable hw, (storeBytes_of_writable hw).2 fun c hc => (h c hc).2]

/-- Storing up to the first address that raises a fault: the bytes before it stay written, those of them
that lose no race with their value. -/
theorem endStore_of_denied {s : State} {cells cells' : List (Word × Byte)} {a : Word} {v : Byte}
    {code : FaultCode} {info : Word} {regs : UnitState → UnitState}
    (h : ∀ c ∈ cells, s.Writable c.1) (ha : s.deniesWrite a = some (.raise code info)) :
    ∃ m st, s.endStore (cells ++ (a, v) :: cells') regs
      = .next { s with unit := s.unit.enterFault code info, mem := m, races := st,
                       draws := s.draws + 1 }
      ∧ m = (s.storeBytes (cells ++ (a, v) :: cells')).1.mem
      ∧ ((∀ c ∈ cells, s.Settled c.1) → m = s.mem.writeCells cells) := by
  obtain ⟨h1, h2⟩ := storeBytes_of_denied (v := v) (cells' := cells') h ha
  obtain ⟨m, st, h3⟩ := storeBytes_eq s (cells ++ (a, v) :: cells')
  refine ⟨_, st, ?_, rfl, h2⟩
  rw [endStore_eq_endAfter, State.endAfter]
  generalize s.storeBytes (cells ++ (a, v) :: cells') = r at h1 h3
  obtain ⟨t, e⟩ := r
  dsimp only at h1 h3
  subst h1 h3
  rfl

/-! ### Reading blocks -/

theorem readBlock_of_valid {u : UnitState} {n : BReg} (h : u.bvalid[n] = true) :
    u.readBlock n = .ok u.blocks[n] := if_pos h

theorem readBlock_of_invalid {u : UnitState} {n : BReg} (h : u.bvalid[n] = false) :
    u.readBlock n = .error (.raise .uninitBlock (BitVec.ofNat 32 n.val)) := by
  simp [UnitState.readBlock, h]

theorem readBlocks_of_valid {u : UnitState} {a b : BReg} (ha : u.bvalid[a] = true)
    (hb : u.bvalid[b] = true) : u.readBlocks a b = .ok (u.blocks[a], u.blocks[b]) := by
  simp only [UnitState.readBlocks, readBlock_of_valid ha, readBlock_of_valid hb]

/-! ### Units -/

/-- Selecting a unit that exists: its state and index become the selected ones, the units stay. -/
theorem select_spec {s t : State} {u : Nat} (h : s.select u = some t) :
    ∃ x, s.units[u]? = some x
      ∧ t = { s with unit := x, self := u, others := s.units.eraseIdx u } := by
  unfold State.select at h
  split at h
  · cases h
  · rename_i x hx; exact ⟨x, hx, by simpa using h.symm⟩

theorem length_units {s : State} (h : s.self ≤ s.others.length) : s.units.length = s.nUnits := by
  simp [State.units, State.nUnits, List.length_insertIdx_of_le_length h]

/-- The selected unit is the unit at its index. -/
theorem units_self {s : State} (h : s.self ≤ s.others.length) : s.units[s.self]? = some s.unit := by
  simp [State.units, List.getElem?_insertIdx_self, h]

/-- Putting an element that was taken out of a list back in its place. -/
theorem insertIdx_eraseIdx_getElem {α : Type} : ∀ {l : List α} {k : Nat} {x : α}, l[k]? = some x →
    (l.eraseIdx k).insertIdx k x = l
  | [], _, _, h => by simp at h
  | y :: l, 0, x, h => by simp at h; simp [h]
  | y :: l, k + 1, x, h => by
    simp only [List.getElem?_cons_succ] at h
    simp [insertIdx_eraseIdx_getElem h]

/-- Selecting a unit changes no unit. -/
theorem units_select {s t : State} {u : Nat} (h : s.select u = some t) : t.units = s.units := by
  obtain ⟨x, hx, rfl⟩ := select_spec h
  exact insertIdx_eraseIdx_getElem hx

theorem self_select {s t : State} {u : Nat} (hs : s.self ≤ s.others.length)
    (h : s.select u = some t) : t.self = u ∧ t.self ≤ t.others.length
      ∧ t.others.length = s.others.length := by
  obtain ⟨x, hx, rfl⟩ := select_spec h
  have hu : u < s.units.length := (List.getElem?_eq_some_iff.mp hx).1
  have hl := length_units hs
  simp only [State.nUnits] at hl
  refine ⟨rfl, ?_, ?_⟩ <;> simp only [List.length_eraseIdx, hu, if_true] <;> omega

/-- A unit other than the selected one does not depend on the selected unit's state. -/
theorem units_of_ne {s : State} {k : Nat} (v : UnitState) (h : k ≠ s.self) :
    ({ s with unit := v } : State).units[k]? = s.units[k]? := by
  simp only [State.units, List.getElem?_insertIdx]
  split <;> rfl

end Sys2Proof.Machine
end

