-- ==== Sys2Proof/Laws/Entropy.lean ====
section
/-! SUPPORT. The bitstream: what a decode can stop with, reading a window that holds given bits, and the
codes read back. -/

namespace Sys2Proof.Machine

/-! ### What a decode can stop with -/

/-- Why a decode stops: the window ends, the bits are no code, or an access inside the window is denied. -/
def DecodeStop (s : State) (e : Stop) : Prop :=
  (∃ j, e = .raise .bsTruncated (BitVec.ofNat 32 j))
    ∨ (∃ j, e = .raise .bsCorrupt (BitVec.ofNat 32 j))
    ∨ ∃ j, s.unit.bsp.toNat + j / 8 < s.unit.bse.toNat
      ∧ s.denies (BitVec.ofNat 32 (s.unit.bsp.toNat + j / 8)) = some e

theorem decodeStop_corrupt (s : State) {α : Type} {j : Nat} {e : Stop}
    (h : (corrupt j : Except Stop α) = .error e) : DecodeStop s e := by
  cases h; exact .inr (.inl ⟨j, rfl⟩)

theorem readBit_error {s : State} {j : Nat} {e : Stop} (h : s.readBit j = .error e) :
    DecodeStop s e := by
  simp only [State.readBit, State.streamByte] at h
  split at h
  · cases h; exact .inl ⟨j, rfl⟩
  · rename_i hj
    simp only [State.readByte] at h
    split at h
    · rename_i e' he; cases h; exact .inr (.inr ⟨j, by omega, he⟩)
    · cases h

/-- From `x >>= f` stopping: `x` stopped, or `f` did after it. -/
theorem bind_error {α β : Type} {x : Except Stop α} {f : α → Except Stop β} {e : Stop}
    (h : (x >>= f) = .error e) : x = .error e ∨ ∃ a, x = .ok a ∧ f a = .error e := by
  cases x with
  | error e' => exact .inl (by cases h; rfl)
  | ok a => exact .inr ⟨a, rfl, h⟩

/-- From `x >>= f` answering: `x` answered, and `f` did after it. -/
theorem bind_ok {α β : Type} {x : Except Stop α} {f : α → Except Stop β} {b : β}
    (h : (x >>= f) = .ok b) : ∃ a, x = .ok a ∧ f a = .ok b := by
  cases x with
  | error e' => cases h
  | ok a => exact ⟨a, rfl, h⟩

theorem readZeros_error {s : State} {e : Stop} : ∀ {n z j : Nat},
    s.readZeros n z j = .error e → DecodeStop s e
  | 0, _, _, h => decodeStop_corrupt s h
  | n + 1, z, j, h => by
    obtain h | ⟨bit, -, h⟩ := bind_error h
    · exact readBit_error h
    · split at h
      · cases h
      · exact readZeros_error h

theorem readDigits_error {s : State} {e : Stop} : ∀ {n w j : Nat},
    s.readDigits n w j = .error e → DecodeStop s e
  | 0, _, _, h => by cases h
  | n + 1, w, j, h => by
    obtain h | ⟨bit, -, h⟩ := bind_error h
    · exact readBit_error h
    · exact readDigits_error h

theorem readUe_error {s : State} {j : Nat} {e : Stop} (h : s.readUe j = .error e) :
    DecodeStop s e := by
  obtain h | ⟨a, -, h⟩ := bind_error h
  · exact readZeros_error h
  · obtain h | ⟨b, -, h⟩ := bind_error h
    · exact readDigits_error h
    · cases h

theorem readSe_error {s : State} {j : Nat} {e : Stop} (h : s.readSe j = .error e) :
    DecodeStop s e := by
  obtain h | ⟨a, -, h⟩ := bind_error h
  · exact readUe_error h
  · cases h

theorem readPadding_error {s : State} {e : Stop} : ∀ {n j : Nat},
    s.readPadding n j = .error e → DecodeStop s e
  | 0, _, h => by cases h
  | n + 1, j, h => by
    simp only [State.readPadding] at h
    split at h
    · cases h
    · obtain h | ⟨bit, -, h⟩ := bind_error h
      · exact readBit_error h
      · split at h
        · exact decodeStop_corrupt s h
        · exact readPadding_error h

theorem decodeLevels_error {s : State} {e : Stop} : ∀ {n k j : Nat} {r : Block},
    s.decodeLevels n k j r = .error e → DecodeStop s e
  | 0, _, _, _, h => decodeStop_corrupt s h
  | n + 1, k, j, r, h => by
    obtain h | ⟨a, -, h⟩ := bind_error h
    · exact readUe_error h
    · dsimp only at h
      split at h
      · cases h
      · split at h
        · exact decodeStop_corrupt s h
        · obtain h | ⟨b, -, h⟩ := bind_error h
          · exact readUe_error h
          · obtain h | ⟨neg, -, h⟩ := bind_error h
            · exact readBit_error h
            · split at h
              · exact decodeStop_corrupt s h
              · exact decodeLevels_error h

/-- What DECB can stop with. -/
theorem decodeBlock_error {s : State} {e : Stop} (h : s.decodeBlock = .error e) :
    DecodeStop s e := by
  obtain h | ⟨a, -, h⟩ := bind_error h
  · exact decodeLevels_error h
  · obtain h | ⟨b, -, h⟩ := bind_error h
    · exact readPadding_error h
    · cases h

theorem checkInt16_error (s : State) {x : Int} {j : Nat} {e : Stop}
    (h : checkInt16 x j = .error e) : DecodeStop s e := by
  simp only [checkInt16] at h
  split at h
  · exact decodeStop_corrupt s h
  · cases h

/-- What DECMV can stop with. -/
theorem decodeOffset_error {s : State} {e : Stop} (h : s.decodeOffset = .error e) :
    DecodeStop s e := by
  obtain h | ⟨a, -, h⟩ := bind_error h
  · exact readSe_error h
  · obtain h | ⟨-, -, h⟩ := bind_error h
    · exact checkInt16_error s h
    · obtain h | ⟨b, -, h⟩ := bind_error h
      · exact readSe_error h
      · obtain h | ⟨-, -, h⟩ := bind_error h
        · exact checkInt16_error s h
        · obtain h | ⟨n, -, h⟩ := bind_error h
          · exact readPadding_error h
          · cases h

end Sys2Proof.Machine
end

