-- ==== Sys2Proof/Laws/Codes.lean ====
section
/-! SUPPORT. The codes of the entropy coder and reading them: what a read accepts is exactly the code of what
it answers. -/

namespace Sys2Proof.Machine

/-- Reading the window from bit `j` on gives the bits. -/
def State.Holds (s : State) (j : Nat) (bits : List Bool) : Prop :=
  ∀ i (h : i < bits.length), s.readBit (j + i) = .ok bits[i]

theorem holds_nil (s : State) (j : Nat) : s.Holds j [] := by
  intro i h; simp at h

theorem holds_cons {s : State} {j : Nat} {b : Bool} {bits : List Bool} :
    s.Holds j (b :: bits) ↔ s.readBit j = .ok b ∧ s.Holds (j + 1) bits := by
  constructor
  · intro h
    refine ⟨h 0 (by simp), fun i hi => ?_⟩
    have := h (i + 1) (by simpa using hi)
    rwa [← Nat.add_assoc, Nat.add_right_comm] at this
  · rintro ⟨h0, h⟩ i hi
    cases i with
    | zero => exact h0
    | succ i =>
      have := h i (by simpa using hi)
      rwa [Nat.add_right_comm, Nat.add_assoc] at this

theorem holds_append {s : State} {j : Nat} {a b : List Bool} :
    s.Holds j (a ++ b) ↔ s.Holds j a ∧ s.Holds (j + a.length) b := by
  induction a generalizing j with
  | nil => simp [holds_nil]
  | cons x a ih =>
    rw [List.cons_append, holds_cons, holds_cons, ih, and_assoc]
    simp only [List.length_cons, Nat.add_assoc, Nat.add_comm 1]

/-! ### Binary digits -/

/-- The `n` lowest binary digits of `x`, most significant first. -/
def lowDigits (n x : Nat) : List Bool := (List.range n).map fun i => x.testBit (n - 1 - i)

@[simp] theorem length_lowDigits (n x : Nat) : (lowDigits n x).length = n := by simp [lowDigits]

theorem lowDigits_succ (n x : Nat) : lowDigits (n + 1) x = x.testBit n :: lowDigits n x := by
  rw [lowDigits, List.range_succ_eq_map, List.map_cons, List.map_map]
  congr 1
  exact List.map_congr_left fun i _ => congrArg x.testBit (by simp; omega)

theorem mod_two_pow_succ' (x n : Nat) : x % 2 ^ (n + 1) = (x.testBit n).toNat * 2 ^ n + x % 2 ^ n := by
  rw [Nat.mod_pow_succ, Nat.toNat_testBit, Nat.mul_comm, Nat.add_comm]

/-- The code of a number: as many zeros as its successor has digits after the first, a 1, those digits. -/
theorem ue_eq (v : Nat) :
    ue v = List.replicate (v + 1).log2 false ++ true :: lowDigits (v + 1).log2 (v + 1) := by
  have h : (v + 1).testBit (v + 1).log2 = true := by
    rw [Nat.testBit_log2 (by omega)]
  unfold ue
  simp only [Nat.add_sub_cancel]
  conv_rhs => rw [← h, ← lowDigits_succ, lowDigits]
  simp

theorem length_ue (v : Nat) : (ue v).length = 2 * (v + 1).log2 + 1 := by
  rw [ue_eq]; simp; omega

/-- Reading held digits. -/
theorem readDigits_of_holds {s : State} {x : Nat} : ∀ {n w j : Nat}, s.Holds j (lowDigits n x) →
    s.readDigits n w j = .ok (w * 2 ^ n + x % 2 ^ n, j + n)
  | 0, w, j, _ => by simp [State.readDigits, Nat.mod_one]
  | n + 1, w, j, h => by
    rw [lowDigits_succ, holds_cons] at h
    simp only [State.readDigits, h.1, bind, Except.bind]
    rw [readDigits_of_holds h.2, mod_two_pow_succ']
    simp only [Except.ok.injEq, Prod.mk.injEq]
    constructor
    · ring
    · omega

/-- Read digits are held. -/
theorem holds_of_readDigits {s : State} : ∀ {n w j w' j' : Nat},
    s.readDigits n w j = .ok (w', j') →
    ∃ x, x < 2 ^ n ∧ w' = w * 2 ^ n + x ∧ j' = j + n ∧ s.Holds j (lowDigits n x)
  | 0, w, j, w', j', h => by
    simp only [State.readDigits, Except.ok.injEq, Prod.mk.injEq] at h
    exact ⟨0, by simp, by omega, by omega, holds_nil s j⟩
  | n + 1, w, j, w', j', h => by
    obtain ⟨bit, hb, h⟩ := bind_ok h
    obtain ⟨x, hx, hw, hj, hh⟩ := holds_of_readDigits h
    have hd : lowDigits n (bit.toNat * 2 ^ n + x) = lowDigits n x := by
      rw [lowDigits, lowDigits]
      refine List.map_congr_left fun i hi => ?_
      simp only [List.mem_range] at hi
      rw [Nat.mul_comm, Nat.testBit_two_pow_mul_add _ hx, if_pos (by omega)]
    have ht : (bit.toNat * 2 ^ n + x).testBit n = bit := by
      rw [Nat.mul_comm, Nat.testBit_two_pow_mul_add _ hx, if_neg (by omega), Nat.sub_self]
      cases bit <;> simp
    refine ⟨bit.toNat * 2 ^ n + x, ?_, ?_, by omega, ?_⟩
    · rw [Nat.pow_succ]
      cases bit <;> simp <;> omega
    · rw [hw]; ring
    · rw [lowDigits_succ, holds_cons, hd, ht]
      exact ⟨hb, hh⟩

/-! ### Zeros -/

theorem readZeros_of_holds {s : State} : ∀ {n allowed z j : Nat}, n < allowed →
    s.Holds j (List.replicate n false ++ [true]) →
    s.readZeros allowed z j = .ok (z + n, j + n + 1)
  | 0, allowed + 1, z, j, _, h => by
    have h := h 0 (by simp)
    simp only [Nat.add_zero] at h
    simp [State.readZeros, h, bind, Except.bind]
  | n + 1, allowed + 1, z, j, hn, h => by
    rw [List.replicate_succ, List.cons_append, holds_cons] at h
    simp only [State.readZeros, h.1, bind, Except.bind]
    have := readZeros_of_holds (allowed := allowed) (z := z + 1) (by omega) h.2
    simp only [Bool.false_eq_true, if_false, this, Except.ok.injEq, Prod.mk.injEq]
    omega

theorem holds_of_readZeros {s : State} : ∀ {allowed z j z' j' : Nat},
    s.readZeros allowed z j = .ok (z', j') →
    ∃ n, n < allowed ∧ z' = z + n ∧ j' = j + n + 1 ∧ s.Holds j (List.replicate n false ++ [true])
  | 0, _, _, _, _, h => by cases h
  | allowed + 1, z, j, z', j', h => by
    obtain ⟨bit, hb, h⟩ := bind_ok h
    cases bit with
    | true =>
      simp only [if_true, Except.ok.injEq, Prod.mk.injEq] at h
      refine ⟨0, by omega, by omega, by omega, ?_⟩
      simpa [holds_cons, hb] using holds_nil s (j + 1)
    | false =>
      obtain ⟨n, hn, hz, hj, hh⟩ := holds_of_readZeros h
      refine ⟨n + 1, by omega, by omega, by omega, ?_⟩
      rw [List.replicate_succ, List.cons_append, holds_cons]
      exact ⟨hb, hh⟩

/-! ### Unsigned and signed codes -/

/-- Reading a held code gives its number. -/
theorem readUe_of_holds {s : State} {v j : Nat} (hv : v + 1 < 2 ^ 17) (h : s.Holds j (ue v)) :
    s.readUe j = .ok (v, j + (ue v).length) := by
  have hlog : (v + 1).log2 < 17 := (Nat.log2_lt (by omega)).mpr hv
  have hlen := length_ue v
  rw [ue_eq, ← List.singleton_append, ← List.append_assoc, holds_append] at h
  have hd := h.2
  simp only [List.length_append, List.length_replicate, List.length_singleton] at hd
  have hm : 1 * 2 ^ (v + 1).log2 + (v + 1) % 2 ^ (v + 1).log2 = v + 1 := by
    have h1 := Nat.log2_self_le (n := v + 1) (by omega)
    have h2 := Nat.lt_log2_self (n := v + 1)
    rw [Nat.mod_eq_sub_mod h1, Nat.mod_eq_of_lt (by rw [Nat.pow_succ] at h2; omega)]
    omega
  simp only [State.readUe, readZeros_of_holds hlog h.1, bind, Except.bind, Nat.zero_add]
  rw [Nat.add_assoc, readDigits_of_holds hd, hm]
  simp only [Nat.add_sub_cancel, Except.ok.injEq, Prod.mk.injEq, true_and]
  omega

/-- A read number's code is held. -/
theorem holds_of_readUe {s : State} {v j j' : Nat} (h : s.readUe j = .ok (v, j')) :
    s.Holds j (ue v) ∧ j' = j + (ue v).length ∧ v + 1 < 2 ^ 17 := by
  obtain ⟨⟨z, j1⟩, hz, h⟩ := bind_ok h
  obtain ⟨⟨w, j2⟩, hw, h⟩ := bind_ok h
  simp only [Except.ok.injEq, Prod.mk.injEq] at h
  obtain ⟨n, hn, rfl, rfl, hh⟩ := holds_of_readZeros hz
  obtain ⟨x, hx, rfl, rfl, hh'⟩ := holds_of_readDigits hw
  obtain ⟨rfl, rfl⟩ := h
  simp only [Nat.zero_add] at *
  have hpos : 0 < 2 ^ n := Nat.two_pow_pos n
  have hv : 1 * 2 ^ n + x - 1 + 1 = 2 ^ n + x := by omega
  have hlog : (2 ^ n + x).log2 = n := by
    rw [Nat.log2_eq_iff (by omega)]
    rw [Nat.pow_succ]; omega
  have hd : lowDigits n (2 ^ n + x) = lowDigits n x := by
    rw [lowDigits, lowDigits]
    refine List.map_congr_left fun i hi => ?_
    simp only [List.mem_range] at hi
    have := Nat.testBit_two_pow_mul_add 1 hx (n - 1 - i)
    rw [Nat.mul_one] at this
    rw [this, if_pos (by omega)]
  have hue : ue (1 * 2 ^ n + x - 1) = (List.replicate n false ++ [true]) ++ lowDigits n x := by
    rw [ue_eq, hv, hlog, hd]; simp
  refine ⟨?_, ?_, ?_⟩
  · rw [hue, holds_append]
    exact ⟨hh, by simpa [Nat.add_assoc] using hh'⟩
  · rw [hue]; simp; omega
  · have : 2 ^ n ≤ 2 ^ 16 := Nat.pow_le_pow_right (by omega) (by omega)
    omega

theorem ism_sm (x : Int) : ism (sm x) = x := by
  unfold ism sm
  split <;> split <;> omega

theorem sm_ism (m : Nat) : sm (ism m) = m := by
  unfold ism sm
  split <;> split <;> omega

theorem readSe_of_holds {s : State} {x : Int} {j : Nat} (hx : -65535 ≤ x ∧ x ≤ 65535)
    (h : s.Holds j (se x)) : s.readSe j = .ok (x, j + (se x).length) := by
  have hv : sm x + 1 < 2 ^ 17 := by unfold sm; split <;> omega
  simp only [State.readSe, readUe_of_holds hv h, bind, Except.bind, ism_sm]
  rfl

theorem holds_of_readSe {s : State} {x : Int} {j j' : Nat} (h : s.readSe j = .ok (x, j')) :
    s.Holds j (se x) ∧ j' = j + (se x).length := by
  obtain ⟨⟨m, j1⟩, hm, h⟩ := bind_ok h
  simp only [Except.ok.injEq, Prod.mk.injEq] at h
  obtain ⟨rfl, rfl⟩ := h
  obtain ⟨h1, h2, -⟩ := holds_of_readUe hm
  rw [se, sm_ism]
  exact ⟨h1, h2⟩

/-! ### Reads that a bit stops -/

/-- Reading these bits from bit `j` on stops at one of them: those before it are held, and reading it stops
with `e`. -/
def State.CutIn (s : State) (j : Nat) (bits : List Bool) (e : Stop) : Prop :=
  ∃ n < bits.length, s.Holds j (bits.take n) ∧ s.readBit (j + n) = .error e

theorem not_cutIn_nil (s : State) (j : Nat) (e : Stop) : ¬ s.CutIn j [] e := by
  rintro ⟨n, hn, -⟩
  simp at hn

theorem cutIn_cons {s : State} {j : Nat} {b : Bool} {bits : List Bool} {e : Stop} :
    s.CutIn j (b :: bits) e ↔
      s.readBit j = .error e ∨ s.readBit j = .ok b ∧ s.CutIn (j + 1) bits e := by
  constructor
  · rintro ⟨n, hn, hh, he⟩
    cases n with
    | zero => exact .inl he
    | succ n =>
      rw [List.take_succ_cons, holds_cons] at hh
      exact .inr ⟨hh.1, n, by simpa using hn, hh.2, by rwa [Nat.add_right_comm, Nat.add_assoc]⟩
  · rintro (he | ⟨hb, n, hn, hh, he⟩)
    · exact ⟨0, by simp, by simpa using holds_nil s j, he⟩
    · refine ⟨n + 1, by simpa using hn, ?_, by rwa [Nat.add_right_comm, Nat.add_assoc] at he⟩
      rw [List.take_succ_cons, holds_cons]
      exact ⟨hb, hh⟩

theorem cutIn_append {s : State} {j : Nat} {a b : List Bool} {e : Stop} :
    s.CutIn j (a ++ b) e ↔ s.CutIn j a e ∨ s.Holds j a ∧ s.CutIn (j + a.length) b e := by
  induction a generalizing j with
  | nil => simp [not_cutIn_nil, holds_nil]
  | cons x a ih =>
    rw [List.cons_append, cutIn_cons, cutIn_cons, holds_cons, ih]
    simp only [List.length_cons, Nat.add_assoc, Nat.add_comm 1]
    tauto

theorem readDigits_of_cutIn {s : State} {x : Nat} {e : Stop} : ∀ {n w j : Nat},
    s.CutIn j (lowDigits n x) e → s.readDigits n w j = .error e
  | 0, _, j, h => absurd h (not_cutIn_nil s j e)
  | n + 1, w, j, h => by
    rw [lowDigits_succ, cutIn_cons] at h
    obtain h | ⟨hb, h⟩ := h
    · simp only [State.readDigits, h, bind, Except.bind]
    · simp only [State.readDigits, hb, bind, Except.bind, readDigits_of_cutIn h]

/-- Stopping in at most 17 zeros, or in fewer and the 1 after them. -/
theorem readZeros_of_cutIn {s : State} {e : Stop} {tail : List Bool} (ht : tail = [] ∨ tail = [true]) :
    ∀ {n allowed z j : Nat}, n + tail.length ≤ allowed →
    s.CutIn j (List.replicate n false ++ tail) e → s.readZeros allowed z j = .error e
  | 0, allowed, z, j, hn, h => by
    obtain rfl | rfl := ht
    · exact absurd h (not_cutIn_nil s j e)
    · rw [List.replicate_zero, List.nil_append, cutIn_cons] at h
      obtain h | ⟨-, h⟩ := h
      · cases allowed with
        | zero => simp at hn
        | succ allowed => simp only [State.readZeros, h, bind, Except.bind]
      · exact absurd h (not_cutIn_nil s _ e)
  | n + 1, 0, z, j, hn, h => by omega
  | n + 1, allowed + 1, z, j, hn, h => by
    rw [List.replicate_succ, List.cons_append, cutIn_cons] at h
    obtain h | ⟨hb, h⟩ := h
    · simp only [State.readZeros, h, bind, Except.bind]
    · simp only [State.readZeros, hb, bind, Except.bind, Bool.false_eq_true, if_false]
      exact readZeros_of_cutIn ht (by omega) h

/-- A read of a number whose code is cut stops. -/
theorem readUe_of_cutIn {s : State} {v j : Nat} {e : Stop} (hv : v + 1 < 2 ^ 17)
    (h : s.CutIn j (ue v) e) : s.readUe j = .error e := by
  have hlog : (v + 1).log2 < 17 := (Nat.log2_lt (by omega)).mpr hv
  rw [ue_eq, ← List.singleton_append, ← List.append_assoc, cutIn_append] at h
  obtain h | ⟨hz, hd⟩ := h
  · simp only [State.readUe, bind, Except.bind,
      readZeros_of_cutIn (.inr rfl) (by simpa using hlog) h]
  · simp only [List.length_append, List.length_replicate, List.length_singleton] at hd
    simp only [State.readUe, readZeros_of_holds hlog hz, bind, Except.bind, Nat.zero_add]
    rw [Nat.add_assoc, readDigits_of_cutIn hd]

theorem readSe_of_cutIn {s : State} {x : Int} {j : Nat} {e : Stop} (hx : -65535 ≤ x ∧ x ≤ 65535)
    (h : s.CutIn j (se x) e) : s.readSe j = .error e := by
  have hv : sm x + 1 < 2 ^ 17 := by unfold sm; split <;> omega
  simp only [State.readSe, readUe_of_cutIn hv h, bind, Except.bind]

theorem readZeros_of_tooMany {s : State} : ∀ {n z j : Nat}, s.Holds j (List.replicate n false) →
    s.readZeros n z j = corrupt (j + n)
  | 0, _, _, _ => rfl
  | n + 1, z, j, h => by
    rw [List.replicate_succ, holds_cons] at h
    simp only [State.readZeros, h.1, bind, Except.bind, Bool.false_eq_true, if_false]
    rw [readZeros_of_tooMany h.2, Nat.add_right_comm, Nat.add_assoc]

/-- The 17th zero is corrupt (R196). -/
theorem readUe_of_tooMany {s : State} {j : Nat} (h : s.Holds j (List.replicate 17 false)) :
    s.readUe j = corrupt (j + 17) := by
  simp only [State.readUe, readZeros_of_tooMany h]
  rfl

/-- A read that stops in 17 zeros. -/
theorem readUe_of_cutZeros {s : State} {j : Nat} {e : Stop}
    (h : s.CutIn j (List.replicate 17 false) e) : s.readUe j = .error e := by
  rw [← List.append_nil (List.replicate 17 false)] at h
  have := readZeros_of_cutIn (allowed := 17) (z := 0) (.inl rfl) (Nat.le_refl 17) h
  simp only [State.readUe, this, bind, Except.bind]

/-! ### Padding -/

/-- Zero bits up to the next byte boundary are accepted. -/
theorem readPadding_of_holds {s : State} : ∀ {left j : Nat}, (8 - j % 8) % 8 ≤ left →
    s.Holds j (List.replicate ((8 - j % 8) % 8) false) → s.readPadding left j = .ok ((j + 7) / 8)
  | 0, j, hl, _ => by simp only [State.readPadding, Except.ok.injEq]; omega
  | left + 1, j, hl, h => by
    by_cases hj : j % 8 = 0
    · simp only [State.readPadding, hj, if_true, Except.ok.injEq]; omega
    · have e : (8 - j % 8) % 8 = (8 - (j + 1) % 8) % 8 + 1 := by omega
      rw [e, List.replicate_succ, holds_cons] at h
      simp only [State.readPadding, hj, if_false, h.1, bind, Except.bind, Bool.false_eq_true]
      rw [readPadding_of_holds (by omega) h.2]
      simp only [Except.ok.injEq]; omega

/-- Accepted padding is zero bits up to the next byte boundary. -/
theorem holds_of_readPadding {s : State} : ∀ {left j n : Nat}, (8 - j % 8) % 8 ≤ left →
    s.readPadding left j = .ok n →
    n = (j + 7) / 8 ∧ s.Holds j (List.replicate ((8 - j % 8) % 8) false)
  | 0, j, n, hl, h => by
    simp only [State.readPadding, Except.ok.injEq] at h
    have e : (8 - j % 8) % 8 = 0 := by omega
    rw [e]
    exact ⟨by omega, holds_nil s j⟩
  | left + 1, j, n, hl, h => by
    by_cases hj : j % 8 = 0
    · simp only [State.readPadding, hj, if_true, Except.ok.injEq] at h
      have e : (8 - j % 8) % 8 = 0 := by omega
      rw [e]
      exact ⟨by omega, holds_nil s j⟩
    · simp only [State.readPadding, hj, if_false] at h
      obtain ⟨bit, hb, h⟩ := bind_ok h
      cases bit with
      | true => cases h
      | false =>
        obtain ⟨h1, h2⟩ := holds_of_readPadding (by omega) h
        have e : (8 - j % 8) % 8 = (8 - (j + 1) % 8) % 8 + 1 := by omega
        rw [e, List.replicate_succ, holds_cons]
        exact ⟨by omega, hb, h2⟩

/-- A 1 in the padding is corrupt (R196). -/
theorem readPadding_of_one {s : State} : ∀ {z left j : Nat}, j % 8 ≠ 0 → j % 8 + z < 8 → z < left →
    s.Holds j (List.replicate z false ++ [true]) → s.readPadding left j = corrupt (j + z + 1)
  | _, 0, _, _, _, hl, _ => by omega
  | 0, left + 1, j, hj, _, _, h => by
    have h := h 0 (by simp)
    simp only [Nat.add_zero, List.replicate_zero, List.nil_append, List.getElem_cons_zero] at h
    simp only [State.readPadding, hj, if_false, h, bind, Except.bind, if_true, Nat.add_zero]
  | z + 1, left + 1, j, hj, hz, hl, h => by
    rw [List.replicate_succ, List.cons_append, holds_cons] at h
    simp only [State.readPadding, hj, if_false, h.1, bind, Except.bind, Bool.false_eq_true]
    rw [readPadding_of_one (by omega) (by omega) (by omega) h.2]
    congr 1
    omega

/-- A read that stops in the padding. -/
theorem readPadding_of_cutIn {s : State} {e : Stop} : ∀ {z left j : Nat}, j % 8 ≠ 0 → j % 8 + z < 8 →
    z < left → s.CutIn j (List.replicate z false ++ [true]) e → s.readPadding left j = .error e
  | _, 0, _, _, _, hl, _ => by omega
  | 0, left + 1, j, hj, _, _, h => by
    rw [List.replicate_zero, List.nil_append, cutIn_cons] at h
    obtain h | ⟨-, h⟩ := h
    · simp only [State.readPadding, hj, if_false, h, bind, Except.bind]
    · exact absurd h (not_cutIn_nil s _ e)
  | z + 1, left + 1, j, hj, hz, hl, h => by
    rw [List.replicate_succ, List.cons_append, cutIn_cons] at h
    obtain h | ⟨hb, h⟩ := h
    · simp only [State.readPadding, hj, if_false, h, bind, Except.bind]
    · simp only [State.readPadding, hj, if_false, hb, bind, Except.bind, Bool.false_eq_true]
      exact readPadding_of_cutIn (by omega) (by omega) (by omega) h

end Sys2Proof.Machine
end

