-- ==== Sys2Proof/Laws/Bitstream.lean ====
section
/-! SUPPORT. Blocks and motion offsets in the bitstream window: packing, what a window that holds a code
decodes to, and what a decode that completes consumed. -/

namespace Sys2Proof.Machine

/-! ### Packing -/

@[simp] theorem length_pack (bits : List Bool) : (pack bits).length = (bits.length + 7) / 8 := by
  simp [pack]

theorem getElem_pack (bits : List Bool) (j : Nat) (h : j < (pack bits).length) :
    (pack bits)[j] = packByte bits j := by
  simp [pack]

/-- Bit `i` of byte `q`, counted from the most significant, is bit `8 q + i` of the string. -/
theorem getLsbD_packByte (bits : List Bool) (q i : Nat) (h : i < 8) :
    (packByte bits q).getLsbD (7 - i) = bits.getD (8 * q + i) false := by
  refine BitVec.getLsbD_ofBoolListBE.trans ?_
  interval_cases i <;> simp [List.range_succ]

/-- The number of padding bits after `n` bits. -/
def padding (n : Nat) : Nat := (8 - n % 8) % 8

/-- The bits of a packed string: the string and its padding. -/
theorem holds_of_pack {s : State} {bits : List Bool}
    (hw : s.unit.bsp.toNat + (pack bits).length ≤ s.unit.bse.toNat)
    (h : ∀ j (hj : j < (pack bits).length), s.Readable (s.unit.bsp + BitVec.ofNat 32 j)
      ∧ s.mem.read (s.unit.bsp.toNat + j) = (pack bits)[j]) :
    s.Holds 0 (bits ++ List.replicate (padding bits.length) false) := by
  intro i hi
  have hbse := s.unit.bse.isLt
  simp only [List.length_append, List.length_replicate, padding] at hi
  simp only [length_pack] at hw
  have hj : i / 8 < (pack bits).length := by simp only [length_pack]; omega
  obtain ⟨hr, hm⟩ := h (i / 8) hj
  rw [getElem_pack] at hm
  simp only [length_pack] at hj
  have ha : s.unit.bsp + BitVec.ofNat 32 (i / 8) = BitVec.ofNat 32 (s.unit.bsp.toNat + i / 8) := by
    apply BitVec.eq_of_toNat_eq
    simp
  have hn : (s.unit.bsp + BitVec.ofNat 32 (i / 8)).toNat = s.unit.bsp.toNat + i / 8 := by
    rw [ha, BitVec.toNat_ofNat, Nat.mod_eq_of_lt (by omega)]
  simp only [State.readBit, State.streamByte, Nat.zero_add]
  rw [if_neg (by omega), ← ha, readByte_of_readable hr, hn, hm]
  simp only [Except.map, Except.ok.injEq]
  rw [getLsbD_packByte bits (i / 8) (i % 8) (by omega)]
  have e : 8 * (i / 8) + i % 8 = i := by omega
  rw [e, List.getD_eq_getElem?_getD, List.getElem_append]
  split
  · rename_i h'; rw [List.getElem?_eq_getElem h']; rfl
  · rename_i h'; rw [List.getElem?_eq_none (by omega)]; simp

/-- A bit read in a settled window is a bit of memory. -/
theorem readBit_settled {s : State} {j : Nat} {b : Bool}
    (hs : ∀ k, s.unit.bsp.toNat + k < s.unit.bse.toNat →
      s.Settled (s.unit.bsp + BitVec.ofNat 32 k)) (h : s.readBit j = .ok b) :
    b = (s.mem.read (s.unit.bsp.toNat + j / 8)).getLsbD (7 - j % 8) := by
  have hbse := s.unit.bse.isLt
  simp only [State.readBit, State.streamByte] at h
  split at h
  · cases h
  · rename_i hj
    have ha : s.unit.bsp + BitVec.ofNat 32 (j / 8) = BitVec.ofNat 32 (s.unit.bsp.toNat + j / 8) := by
      apply BitVec.eq_of_toNat_eq
      simp
    have hn : (BitVec.ofNat 32 (s.unit.bsp.toNat + j / 8)).toNat = s.unit.bsp.toNat + j / 8 := by
      rw [BitVec.toNat_ofNat, Nat.mod_eq_of_lt (by omega)]
    have hk := hs (j / 8) (by omega)
    rw [ha] at hk
    simp only [State.readByte] at h
    split at h
    · cases h
    · rw [observe_of_settled hk, hn] at h
      simpa [Except.map] using h.symm

/-- A settled window that holds a string and its padding holds the packed bytes. -/
theorem pack_of_holds {s : State} {bits : List Bool}
    (hs : ∀ k, s.unit.bsp.toNat + k < s.unit.bse.toNat →
      s.Settled (s.unit.bsp + BitVec.ofNat 32 k))
    (h : s.Holds 0 (bits ++ List.replicate (padding bits.length) false)) (j : Nat)
    (hj : j < (pack bits).length) : s.mem.read (s.unit.bsp.toNat + j) = (pack bits)[j] := by
  rw [getElem_pack]
  rw [length_pack] at hj
  apply BitVec.eq_of_getLsbD_eq
  intro i hi
  have e : i = 7 - (7 - i) := by omega
  rw [e, getLsbD_packByte bits j (7 - i) (by omega)]
  have hl : 8 * j + (7 - i) < (bits ++ List.replicate (padding bits.length) false).length := by
    simp only [List.length_append, List.length_replicate, padding]; omega
  have := readBit_settled hs (h _ hl)
  rw [Nat.zero_add, show (8 * j + (7 - i)) / 8 = j by omega,
    show (8 * j + (7 - i)) % 8 = 7 - i by omega] at this
  rw [← this, List.getD_eq_getElem?_getD, List.getElem_append]
  split
  · rename_i h'; rw [List.getElem?_eq_getElem h']; rfl
  · rename_i h'; rw [List.getElem?_eq_none (by omega)]; simp

/-! ### Levels -/

theorem length_zigzagLevels (b : Block) : (zigzagLevels b).length = 64 := by
  simp [zigzagLevels]

theorem getElem_zigzagLevels (b : Block) (k : Nat) (h : k < (zigzagLevels b).length) :
    (zigzagLevels b)[k] = elem b (zz ⟨k, by simpa [zigzagLevels] using h⟩) := by
  simp [zigzagLevels]

theorem drop_zigzagLevels (b : Block) {k : Nat} (h : k < 64) :
    (zigzagLevels b).drop k = elem b (zz ⟨k, h⟩) :: (zigzagLevels b).drop (k + 1) := by
  rw [List.drop_eq_getElem_cons (by rw [length_zigzagLevels]; exact h), getElem_zigzagLevels]

/-- Zeros before a level only count in its run. -/
theorem codeLevels_zeros (n run : Nat) (l : List Int) :
    codeLevels run (List.replicate n 0 ++ l) = codeLevels (run + n) l := by
  induction n generalizing run with
  | zero => rfl
  | succ n ih =>
    rw [List.replicate_succ, List.cons_append, codeLevels, if_pos rfl, ih]
    congr 1
    omega

theorem zz_inj {i k : Fin 64} (h : zz i = zz k) : i = k := by
  rw [← zzInv_zz i, h, zzInv_zz]

/-- An element of a block after one level is put at a zig-zag index. -/
theorem elem_set_zz (r : Block) (k i : Fin 64) (v : Half) :
    elem (r.set (zz k) v) (zz i) = if i = k then v.toInt else elem r (zz i) := by
  unfold elem
  simp only [Fin.getElem_fin]
  by_cases h : i = k
  · subst h; simp
  · rw [if_neg h, Vector.getElem_set_ne _ _ fun e => h (zz_inj (Fin.ext e)).symm]

/-- Decoding the held code of a block's levels from index `pos` on. -/
theorem decodeLevels_of_holds {s : State} {b : Block} :
    ∀ {n pos run k rounds j : Nat} {r : Block}, pos + n = 64 → k + run = pos → 65 ≤ rounds + pos →
      (∀ i : Fin 64, elem r (zz i) = if i.val < pos then elem b (zz i) else 0) →
      s.Holds j (codeLevels run ((zigzagLevels b).drop pos)) →
      s.decodeLevels rounds k j r
        = .ok (b, j + (codeLevels run ((zigzagLevels b).drop pos)).length)
  | 0, pos, run, k, 0, j, r, hn, hk, hr, he, h => by omega
  | 0, pos, run, k, rounds + 1, j, r, hn, hk, hr, he, h => by
    have hd : (zigzagLevels b).drop pos = [] := by
      rw [List.drop_eq_nil_iff, length_zigzagLevels]; omega
    rw [hd, codeLevels] at h ⊢
    have hb : r = b := by
      apply block_ext
      intro i
      have := he (zzInv i)
      rwa [zz_zzInv, if_pos (by omega)] at this
    simp only [State.decodeLevels, readUe_of_holds (by omega) h, bind, Except.bind, if_true, hb]
  | n + 1, pos, run, k, 0, j, r, hn, hk, hr, he, h => by omega
  | n + 1, pos, run, k, rounds + 1, j, r, hn, hk, hr, he, h => by
    have hpos : pos < 64 := by omega
    rw [drop_zigzagLevels b hpos] at h ⊢
    generalize hv : elem b (zz ⟨pos, hpos⟩) = v at h ⊢
    have hrange := elem_range b (zz ⟨pos, hpos⟩)
    rw [hv] at hrange
    by_cases h0 : v = 0
    · rw [codeLevels, if_pos h0] at h ⊢
      refine decodeLevels_of_holds (n := n) (by omega) (by omega) (by omega) ?_ h
      intro i
      rw [he i]
      by_cases e : i.val = pos
      · have : i = ⟨pos, hpos⟩ := Fin.ext e
        rw [if_neg (by omega), if_pos (by omega), this, hv, h0]
      · by_cases e' : i.val < pos
        · rw [if_pos e', if_pos (by omega)]
        · rw [if_neg e', if_neg (by omega)]
    · rw [codeLevels, if_neg h0, levelBits] at h ⊢
      rw [holds_append, holds_append, holds_append] at h
      obtain ⟨⟨⟨h1, h2⟩, h3⟩, h4⟩ := h
      have h3' := h3 0 (by simp)
      have hat : k + (run + 1 - 1) = pos := by omega
      have hmag : v.natAbs - 1 + 1 = v.natAbs := by omega
      have hfin : zz (Fin.ofNat 64 pos) = zz ⟨pos, hpos⟩ := by
        congr 1; ext; simp; omega
      have hlev : (if decide (v < 0) = true then -((v.natAbs : Nat) : Int) else (v.natAbs : Nat)) = v := by
        by_cases hneg : v < 0
        · simp only [hneg, decide_true, if_true]; omega
        · simp only [hneg, decide_false, Bool.false_eq_true, if_false]; omega
      simp only [State.decodeLevels, readUe_of_holds (by omega) h1, bind, Except.bind, hat]
      rw [if_neg (by omega), if_neg (by omega)]
      simp only [readUe_of_holds (v := v.natAbs - 1) (by omega) h2, hmag]
      simp only [List.length_append, Nat.add_zero, ← Nat.add_assoc] at h3'
      simp only [h3', List.getElem_cons_zero]
      rw [if_neg (by simp; omega), hlev]
      simp only [hfin]
      have := decodeLevels_of_holds (s := s) (b := b) (n := n) (pos := pos + 1) (run := 0)
        (k := pos + 1) (rounds := rounds) (j := j + (ue (run + 1)).length + (ue (v.natAbs - 1)).length + 1)
        (r := r.set (zz ⟨pos, hpos⟩) (half16 v)) (by omega) (by omega) (by omega) ?_ ?_
      · rw [this]
        simp only [List.length_append, List.length_singleton, Except.ok.injEq, Prod.mk.injEq,
          true_and]
        omega
      · intro i
        rw [elem_set_zz, toInt_half16 hrange.1 hrange.2, he i]
        by_cases e : i.val = pos
        · have : i = ⟨pos, hpos⟩ := Fin.ext e
          rw [if_pos this, if_pos (by omega), this, hv]
        · have : i ≠ ⟨pos, hpos⟩ := fun h => e (congrArg Fin.val h)
          rw [if_neg this]
          by_cases e' : i.val < pos
          · rw [if_pos e', if_pos (by omega)]
          · rw [if_neg e', if_neg (by omega)]
      · simp only [List.length_append, List.length_singleton, ← Nat.add_assoc] at h4
        exact h4

/-- The zeros of a block from index `k` up to `at_`, and then the rest. -/
theorem drop_of_zeros {b : Block} {at_ : Nat} (ha : at_ ≤ 64) : ∀ {n k : Nat}, k + n = at_ →
    (∀ i : Fin 64, k ≤ i.val → i.val < at_ → elem b (zz i) = 0) →
    (zigzagLevels b).drop k = List.replicate n 0 ++ (zigzagLevels b).drop at_
  | 0, k, hk, _ => by rw [show k = at_ by omega]; rfl
  | n + 1, k, hk, h => by
    rw [drop_zigzagLevels b (show k < 64 by omega), h ⟨k, by omega⟩ (Nat.le_refl k) (by simp; omega),
      List.replicate_succ, List.cons_append]
    rw [drop_of_zeros ha (n := n) (k := k + 1) (by omega) fun i h1 h2 => h i (by omega) h2]

/-- What a completed decode of levels read: the code of the levels it added. -/
theorem holds_of_decodeLevels {s : State} : ∀ {rounds k j j' : Nat} {r r' : Block}, k ≤ 64 →
    (∀ i : Fin 64, k ≤ i.val → elem r (zz i) = 0) →
    s.decodeLevels rounds k j r = .ok (r', j') →
    s.Holds j (codeLevels 0 ((zigzagLevels r').drop k))
      ∧ j' = j + (codeLevels 0 ((zigzagLevels r').drop k)).length
      ∧ ∀ i : Fin 64, i.val < k → elem r' (zz i) = elem r (zz i)
  | 0, _, _, _, _, _, _, _, h => by cases h
  | rounds + 1, k, j, j', r, r', hk, hz, h => by
    simp only [State.decodeLevels] at h
    obtain ⟨⟨r1, j1⟩, h1, h⟩ := bind_ok h
    obtain ⟨hh1, hj1, hr1⟩ := holds_of_readUe h1
    dsimp only at h
    split at h
    · rename_i e0
      simp only [Except.ok.injEq, Prod.mk.injEq] at h
      obtain ⟨rfl, rfl⟩ := h
      have hd := drop_of_zeros (b := r) (at_ := 64) (by omega) (n := 64 - k) (k := k) (by omega)
        fun i h1 _ => hz i h1
      have h64 : (zigzagLevels r).drop 64 = [] := by
        rw [List.drop_eq_nil_iff, length_zigzagLevels]
      rw [hd, h64, codeLevels_zeros, codeLevels, ← e0]
      exact ⟨hh1, hj1, fun _ _ => rfl⟩
    · rename_i e0
      split at h
      · cases h
      · rename_i hat
        obtain ⟨⟨m, j2⟩, h2, h⟩ := bind_ok h
        obtain ⟨hh2, hj2, hm⟩ := holds_of_readUe h2
        obtain ⟨neg, h3, h⟩ := bind_ok h
        dsimp only at h h3
        split at h
        · cases h
        · rename_i hmag
          have hpos : k + (r1 - 1) < 64 := by omega
          have hfin : zz (Fin.ofNat 64 (k + (r1 - 1))) = zz ⟨k + (r1 - 1), hpos⟩ := by
            congr 1; ext; simp; omega
          simp only [hfin] at h
          generalize hv : (if neg = true then -((m + 1 : Nat) : Int) else ((m + 1 : Nat) : Int)) = v at h
          have hrange : -32768 ≤ v ∧ v ≤ 32767 := by
            cases neg <;> simp at hv hmag <;> omega
          have hne : v ≠ 0 := by cases neg <;> simp at hv <;> omega
          have habs : v.natAbs - 1 = m := by cases neg <;> simp at hv <;> omega
          have hsign : decide (v < 0) = neg := by cases neg <;> simp at hv ⊢ <;> omega
          obtain ⟨q1, q2, q3⟩ := holds_of_decodeLevels (by omega) (fun i hi => by
            rw [elem_set_zz, if_neg (fun e => by rw [e] at hi; dsimp only at hi; omega)]
            exact hz i (by omega)) h
          have hrv : elem r' (zz ⟨k + (r1 - 1), hpos⟩) = v := by
            rw [q3 _ (by simp), elem_set_zz, if_pos rfl, toInt_half16 hrange.1 hrange.2]
          have hlow : ∀ i : Fin 64, i.val < k + (r1 - 1) → elem r' (zz i) = elem r (zz i) := by
            intro i hi
            rw [q3 i (by omega), elem_set_zz, if_neg fun e => by rw [e] at hi; simp at hi]
          have hd := drop_of_zeros (b := r') (at_ := k + (r1 - 1)) (by omega) (n := r1 - 1)
            (k := k) rfl fun i hi hi' => by rw [hlow i hi']; exact hz i hi
          rw [hd, codeLevels_zeros, drop_zigzagLevels r' hpos, hrv, codeLevels, if_neg hne,
            levelBits, habs, hsign, Nat.zero_add, show r1 - 1 + 1 = r1 by omega]
          subst hj1 hj2
          refine ⟨?_, ?_, fun i hi => hlow i (by omega)⟩
          · rw [holds_append, holds_append, holds_append]
            simp only [List.length_append, List.length_singleton, ← Nat.add_assoc]
            refine ⟨⟨⟨hh1, hh2⟩, ?_⟩, q1⟩
            rw [holds_cons]
            exact ⟨h3, holds_nil _ _⟩
          · simp only [List.length_append, List.length_singleton]
            omega

/-- A window that holds the code of a block decodes to the block and the code's bytes. -/
theorem decodeBlock_of_holds {s : State} {b : Block}
    (h : s.Holds 0 (blockBits b ++ List.replicate (padding (blockBits b).length) false)) :
    s.decodeBlock = .ok (b, (pack (blockBits b)).length) := by
  rw [holds_append, Nat.zero_add] at h
  have h1 := decodeLevels_of_holds (s := s) (b := b) (n := 64) (pos := 0) (run := 0) (k := 0)
    (rounds := 65) (j := 0) (r := Block.zero) (by omega) (by omega) (by omega) (by simp) h.1
  have h2 := readPadding_of_holds (left := 7) (by omega) h.2
  rw [List.drop_zero] at h1
  simp only [State.decodeBlock, h1, bind, Except.bind, Nat.zero_add]
  rw [show codeLevels 0 (zigzagLevels b) = blockBits b from rfl, h2, length_pack]

/-- A completed decode of a block consumed the block's code. -/
theorem holds_of_decodeBlock {s : State} {b : Block} {n : Nat} (h : s.decodeBlock = .ok (b, n)) :
    s.Holds 0 (blockBits b ++ List.replicate (padding (blockBits b).length) false)
      ∧ n = (pack (blockBits b)).length := by
  obtain ⟨⟨r, j⟩, h1, h⟩ := bind_ok h
  obtain ⟨n', h2, h⟩ := bind_ok h
  simp only [Except.ok.injEq, Prod.mk.injEq] at h
  obtain ⟨rfl, rfl⟩ := h
  obtain ⟨q1, q2, -⟩ := holds_of_decodeLevels (by omega) (by simp) h1
  obtain ⟨p1, p2⟩ := holds_of_readPadding (by omega) h2
  rw [List.drop_zero, Nat.zero_add] at q2
  rw [List.drop_zero] at q1
  rw [holds_append, length_pack, Nat.zero_add]
  rw [show codeLevels 0 (zigzagLevels r) = blockBits r from rfl] at q1 q2
  subst q2
  exact ⟨⟨q1, p2⟩, p1⟩

/-- A window that holds the code of an offset decodes to the offset and the code's bytes. -/
theorem decodeOffset_of_holds {s : State} {x y : Half}
    (h : s.Holds 0 (mvBits x.toInt y.toInt
      ++ List.replicate (padding (mvBits x.toInt y.toInt).length) false)) :
    s.decodeOffset = .ok (x.toInt, y.toInt, (pack (mvBits x.toInt y.toInt)).length) := by
  have hx := toInt_range x
  have hy := toInt_range y
  rw [holds_append, mvBits, holds_append, Nat.zero_add, Nat.zero_add] at h
  have h1 := readSe_of_holds (by omega) h.1.1
  have h2 := readSe_of_holds (by omega) h.1.2
  have h3 := readPadding_of_holds (left := 7) (by omega) h.2
  rw [Nat.zero_add] at h1
  simp only [State.decodeOffset, h1, bind, Except.bind, checkInt16, h2]
  rw [if_neg (by omega)]
  dsimp only
  rw [if_neg (by omega)]
  rw [List.length_append] at h3
  simp only [h3, length_pack, mvBits, List.length_append]

/-- A motion offset decoded is one whose code and padding the window holds. -/
theorem holds_of_decodeOffset {s : State} {x y : Int} {n : Nat} (h : s.decodeOffset = .ok (x, y, n)) :
    s.Holds 0 (mvBits x y ++ List.replicate (padding (mvBits x y).length) false)
      ∧ n = (pack (mvBits x y)).length ∧ (-32768 ≤ x ∧ x ≤ 32767) ∧ -32768 ≤ y ∧ y ≤ 32767 := by
  obtain ⟨⟨x', j1⟩, h1, h⟩ := bind_ok h
  obtain ⟨_, hx, h⟩ := bind_ok h
  obtain ⟨⟨y', j2⟩, h2, h⟩ := bind_ok h
  obtain ⟨_, hy, h⟩ := bind_ok h
  obtain ⟨n', h3, h⟩ := bind_ok h
  simp only [Except.ok.injEq, Prod.mk.injEq] at h
  obtain ⟨rfl, rfl, rfl⟩ := h
  obtain ⟨g1, rfl⟩ := holds_of_readSe h1
  obtain ⟨g2, rfl⟩ := holds_of_readSe h2
  obtain ⟨rfl, g3⟩ := holds_of_readPadding (by omega) h3
  have r : ∀ {z : Int} {j : Nat} {c : PUnit}, checkInt16 z j = .ok c → -32768 ≤ z ∧ z ≤ 32767 := by
    intro z j c hz
    unfold checkInt16 at hz
    split at hz
    · cases hz
    · omega
  refine ⟨?_, ?_, r hx, r hy⟩
  · simp only [mvBits, holds_append, Nat.zero_add, List.length_append]
    rw [Nat.zero_add] at g2 g3
    exact ⟨⟨g1, g2⟩, g3⟩
  · rw [length_pack, mvBits, List.length_append, Nat.zero_add]


/-! ### Writing the window -/

/-- The cells of a byte string lie at consecutive addresses. -/
theorem mem_streamCells {c : Word × Byte} : ∀ {data : List Byte} {a : Word},
    c ∈ streamCells a data → ∃ j < data.length, c.1 = a + BitVec.ofNat 32 j
  | b :: bs, a, h => by
    rcases List.mem_cons.mp h with rfl | h
    · exact ⟨0, by simp, by simp⟩
    · obtain ⟨j, hj, e⟩ := mem_streamCells h
      refine ⟨j + 1, by simpa using hj, ?_⟩
      rw [e]
      apply BitVec.eq_of_toNat_eq
      simp
      omega

/-- The address of byte `j` of a string that does not cross the top of the address space. -/
theorem toNat_streamAddr {a : Word} {n j : Nat} (h : a.toNat + n ≤ 2 ^ 32) (hj : j < n) :
    (a + BitVec.ofNat 32 j).toNat = a.toNat + j := by
  rw [BitVec.toNat_add, BitVec.toNat_ofNat, Nat.mod_eq_of_lt (a := j) (by omega),
    Nat.mod_eq_of_lt (by omega)]

/-- Bytes outside a written string keep their values. -/
theorem read_streamCells_outside {m : Memory} {a : Word} {data : List Byte} {x : Nat}
    (hm : m.wf = true) (h : a.toNat + data.length ≤ 2 ^ 32)
    (hx : x < a.toNat ∨ a.toNat + data.length ≤ x) :
    (m.writeCells (streamCells a data)).read x = m.read x := by
  refine read_writeCells_of_notMem hm fun c hc e => ?_
  obtain ⟨j, hj, hc⟩ := mem_streamCells hc
  rw [hc, toNat_streamAddr h hj] at e
  omega

/-- A written string is read back. -/
theorem read_streamCells : ∀ {data : List Byte} {m : Memory} {a : Word} {j : Nat}
    (hj : j < data.length), m.wf = true → a.toNat + data.length ≤ 2 ^ 32 →
    (m.writeCells (streamCells a data)).read (a.toNat + j) = data[j]
  | b :: bs, m, a, j, hj, hm, h => by
    have hw := Memory.wf_write hm a.isLt b
    simp only [List.length_cons] at h hj
    have hone : bs ≠ [] → (a + 1).toNat = a.toNat + 1 := by
      intro hb
      have : 0 < bs.length := List.length_pos_of_ne_nil hb
      rw [BitVec.toNat_add]
      exact Nat.mod_eq_of_lt (by simp; omega)
    rw [streamCells, Memory.writeCells]
    by_cases hb : bs = []
    · subst hb
      obtain rfl : j = 0 := by simpa using hj
      simp [streamCells, Memory.writeCells, Memory.read_write hm]
    · have ha := hone hb
      cases j with
      | zero =>
        rw [Nat.add_zero, read_streamCells_outside hw (by omega) (by omega), Memory.read_write hm,
          if_pos rfl]
        rfl
      | succ j =>
        have := read_streamCells (data := bs) (m := m.write a.toNat b) (a := a + 1) (j := j)
          (by omega) hw (by omega)
        rw [ha, Nat.add_assoc, Nat.add_comm 1 j] at this
        exact this

end Sys2Proof.Machine
end

