-- ==== Sys2Proof/Laws/Quantizer.lean ====
section
/-! SUPPORT. The elements of quantized and dequantized blocks, and the entries of derived tables. -/

namespace Sys2Proof.Machine

/-- A derived table's entries (42_quantizer.md R175). -/
theorem getElem_qgen {v : Nat} (h : v ≤ 100) (k : Fin 64) :
    (qgen v)[k].toNat = max 1 (((16 + k.val) * (100 - v) + 25) / 50) := by
  simp only [qgen, Fin.getElem_fin, getElem_tabulate, BitVec.toNat_ofNat]
  apply Nat.mod_eq_of_lt
  have : (16 + k.val) * (100 - v) ≤ 79 * 100 := Nat.mul_le_mul (by omega) (by omega)
  omega

/-- A level is no further from 0 than the value it is made from. -/
theorem quantLevel_range {v : Int} {q : Nat} (hq : 1 ≤ q) (h : -32768 ≤ v ∧ v ≤ 32767) :
    -32768 ≤ quantLevel v q ∧ quantLevel v q ≤ 32767 := by
  have hle : (((v.natAbs + q / 2) / q : Nat) : Int) ≤ v.natAbs := by
    norm_cast
    rcases Nat.lt_or_ge q 2 with h2 | h2
    · obtain rfl : q = 1 := by omega
      simp
    · by_cases h0 : v.natAbs = 0
      · rw [h0, Nat.zero_add, Nat.div_eq_of_lt (by omega)]
      · apply Nat.div_le_of_le_mul
        have h3 : q / 2 * 2 ≤ q := Nat.div_mul_le_self q 2
        nlinarith [Nat.mul_le_mul (show 1 ≤ q - 1 by omega) (show 1 ≤ v.natAbs by omega),
          Nat.mul_le_mul_right v.natAbs h2, Nat.mul_le_mul_left q (show 1 ≤ v.natAbs by omega)]
  unfold quantLevel
  generalize (v.natAbs + q / 2) / q = n at hle
  rcases lt_trichotomy v 0 with h1 | h1 | h1
  · rw [Int.sign_eq_neg_one_of_neg h1]; omega
  · subst h1; simp
  · rw [Int.sign_eq_one_of_pos h1]; omega

/-- An element of a quantized block, for a table in which every entry is at least 1. -/
theorem elem_quant {a : Block} {q : QTable} (hq : ∀ k : Fin 64, 1 ≤ q[k].toNat) (i : Fin 64) :
    elem (quant a q) i = quantLevel (elem a i) q[zzInv i].toNat :=
  elem_tabulate_half16 (fun i => quantLevel (elem a i) q[zzInv i].toNat) i
    (quantLevel_range (hq _) (elem_range _ _))

/-- An element of a dequantized block. -/
theorem elem_dequant (a : Block) (q : QTable) (i : Fin 64) :
    elem (dequant a q) i = sat16 (elem a i * q[zzInv i].toNat) :=
  elem_tabulate_half16 (fun i => sat16 (elem a i * q[zzInv i].toNat)) i (sat16_range _)

end Sys2Proof.Machine
end

