-- ==== Sys2Proof/Laws/Commands.lean ====
section
/-! SUPPORT. What a command can do, said once for all 29: how it ends, which registers it writes, what it
keeps. -/

namespace Sys2Proof.Machine

/-- The registers a unit keeps or gets when command `i` has written `u` over the unit `u₀`, before the
completion. -/
structure Effect (i : Instr) (u₀ u : UnitState) : Prop where
  cmdcnt : u.cmdcnt = u₀.cmdcnt
  pc : branches i = false → u.pc = u₀.pc + 4
  aligned : u₀.pc.toNat % 4 = 0 → u.pc.toNat % 4 = 0
  run : i ≠ .halt → u.busy = u₀.busy ∧ u.done = u₀.done
  halted : i = .halt → u.busy = false ∧ u.done = true
  tables : (∀ (t : Table) (k : Fin 64), 1 ≤ u₀.qt[t][k].toNat) →
    ∀ (t : Table) (k : Fin 64), 1 ≤ u.qt[t][k].toNat
  zeros : (∀ n : BReg, u₀.bvalid[n] = false → u₀.blocks[n] = Block.zero) →
    ∀ n : BReg, u.bvalid[n] = false → u.blocks[n] = Block.zero
  frame : ∀ r : RegName, r ∉ stepRegs → r ∉ writesOf i → r.same u₀ u

theorem aligned_add_four {pc : Word} (h : pc.toNat % 4 = 0) : (pc + 4).toNat % 4 = 0 := by
  rw [BitVec.toNat_add]; simp; omega

/-- A branch target of an aligned command is aligned (40_control.md R133). -/
theorem aligned_branchTarget {n : Nat} {pc : Word} (off : BitVec n) (h : pc.toNat % 4 = 0) :
    (branchTarget pc off).toNat % 4 = 0 := by
  rw [branchTarget, BitVec.toNat_ofInt]
  norm_num
  omega

theorem toNat_branchTarget {n : Nat} (pc : Word) (off : BitVec n) :
    ((branchTarget pc off).toNat : Int) = (pc.toNat + 4 + 4 * off.toInt) % 2 ^ 32 := by
  rw [branchTarget, BitVec.toNat_ofInt]
  norm_num
  omega

theorem zeros_setBlock {u : UnitState} (d : BReg) (b : Block)
    (h : ∀ n : BReg, u.bvalid[n] = false → u.blocks[n] = Block.zero) (n : BReg)
    (hn : (u.setBlock d b).bvalid[n] = false) : (u.setBlock d b).blocks[n] = Block.zero := by
  by_cases e : n = d
  · subst e; simp [UnitState.setBlock] at hn
  · simp only [UnitState.setBlock, valid_set_of_ne _ _ _ _ e, blocks_set_of_ne _ _ _ _ e] at hn ⊢
    exact h n hn

theorem same_setBlock {u : UnitState} (d : BReg) (b : Block) (r : RegName)
    (h : r ∉ [RegName.block d, .valid d]) : r.same u (u.setBlock d b) := by
  cases r with
  | block n => exact blocks_set_of_ne _ _ _ _ (by simpa using h)
  | valid n => exact valid_set_of_ne _ _ _ _ (by simpa using h)
  | lc n => cases n <;> rfl
  | _ => rfl

theorem same_setTable {u : UnitState} (t : Table) (q : QTable) (r : RegName)
    (h : r ≠ RegName.table t) : r.same u (u.setTable t q) := by
  cases r with
  | table n => exact tables_set_of_ne _ _ _ _ (by simpa using h)
  | lc n => cases n <;> rfl
  | _ => rfl

/-- A register but pc keeps its value when pc advances. -/
theorem same_advance (u : UnitState) (r : RegName) (h : r ∉ stepRegs) : r.same u u.advance := by
  cases r with
  | lc n => cases n <;> rfl
  | _ => simp_all [RegName.same, stepRegs]

theorem same_branchIf (u : UnitState) {n : Nat} (b : Bool) (off : BitVec n) (r : RegName)
    (h : r ∉ stepRegs) : r.same u (u.branchIf b off) := by
  cases r <;> simp_all [RegName.same, stepRegs]

theorem counter_setCounter_of_ne (u : UnitState) {n m : Counter} (v : Half) (h : m ≠ n) :
    (u.setCounter n v).counter m = u.counter m := by
  cases n <;> cases m <;> first | rfl | exact absurd rfl h

theorem same_setCounter (u : UnitState) (n : Counter) (v : Half) (r : RegName)
    (h : r ≠ .lc n) : r.same u (u.setCounter n v) := by
  cases r with
  | lc m => exact counter_setCounter_of_ne u v (by simpa using h)
  | _ => cases n <;> rfl

/-! ### What a command can stop with -/

/-- Why a command may stop: a fault with a code, or what denies an access. -/
def State.MayStop (s : State) (e : Stop) : Prop :=
  (∃ code info, e = .raise code info ∧ code ≠ .none) ∨ ∃ a, s.denies a = some e

theorem mayStop_raise (s : State) {code : FaultCode} (info : Word) (h : code ≠ .none) :
    s.MayStop (.raise code info) := .inl ⟨code, info, rfl, h⟩

/-- No command faults with the code NONE. -/
theorem ne_none_of_mayStop {s : State} {code : FaultCode} {info : Word}
    (h : s.MayStop (.raise code info)) : code ≠ .none := by
  obtain ⟨c, i, h, hc⟩ | ⟨a, h⟩ := h
  · cases h; exact hc
  · obtain h' | ⟨why, h'⟩ := denies_cases h <;> cases h'
    decide

theorem decodeStop_mayStop {s : State} {e : Stop} (h : DecodeStop s e) : s.MayStop e := by
  obtain ⟨j, rfl⟩ | ⟨j, rfl⟩ | ⟨j, -, h⟩ := h
  · exact mayStop_raise s _ (by decide)
  · exact mayStop_raise s _ (by decide)
  · exact .inr ⟨_, h⟩

theorem readBlock_mayStop (s : State) {u : UnitState} {n : BReg} {e : Stop} (h : u.readBlock n = .error e) :
    s.MayStop e := by
  simp only [UnitState.readBlock] at h
  split at h <;> cases h
  exact mayStop_raise s _ (by decide)

theorem readBlocks_mayStop (s : State) {u : UnitState} {a b : BReg} {e : Stop} (h : u.readBlocks a b = .error e) :
    s.MayStop e := by
  simp only [UnitState.readBlocks] at h
  split at h
  · cases h; exact readBlock_mayStop s (by assumption)
  · split at h <;> cases h
    exact readBlock_mayStop s (by assumption)

theorem readBytes_mayStop {s : State} {l : List (Access × Word)} {e : Stop}
    (h : s.readBytes l = .error e) : s.MayStop e := by
  obtain ⟨x, -, hx⟩ := readBytes_error h
  exact .inr ⟨_, hx⟩

theorem searchFrom_mayStop {s : State} {src : List Byte} {pr : PlaneDesc} {e : Stop} :
    ∀ {l : List (Int × Int)} {c : Nat} {best : Option Found},
      s.searchFrom src pr c l best = .error e → s.MayStop e
  | [], _, _, h => by cases h
  | (dx, dy) :: l, c, best, h => by
    simp only [State.searchFrom] at h
    split at h
    · split at h
      · cases h; exact readBytes_mayStop (by assumption)
      · exact searchFrom_mayStop h
    · exact searchFrom_mayStop h

theorem search_mayStop {s : State} {ps pr : PlaneDesc} {radius : Nat} {e : Stop}
    (h : s.search ps pr radius = .error e) : s.MayStop e := by
  have hp : ∀ info, s.MayStop (.raise .pixBounds info) := fun info =>
    mayStop_raise s info (by decide)
  simp only [State.search] at h
  split at h
  · obtain h | ⟨src, -, h⟩ := bind_error h
    · exact readBytes_mayStop h
    · obtain h | ⟨best, -, h⟩ := bind_error h
      · exact searchFrom_mayStop h
      · split at h <;> cases h
        exact hp _
  · cases h; exact hp _

/-! ### The shape of every command -/

/-- How a command's own rule ends: it stores the cells (none, but for STPX, ENCB and ENCMV) and then
writes registers or stops. -/
abbrev Shape (i : Instr) (s : State) : Prop :=
  ∃ cells r, exec i s = s.endAfter cells r
    ∧ (storesOf i = false → cells = [])
    ∧ (∀ u, r = .ok u → Effect i s.unit u)
    ∧ ∀ e, r = .error e → s.MayStop e

/-- A command that writes registers and cannot stop. -/
theorem shape_ok {i : Instr} {s : State} {u : UnitState} (h : exec i s = s.endCommand (.ok u))
    (hu : Effect i s.unit u) : Shape i s :=
  ⟨[], .ok u, h, fun _ => rfl, by rintro _ ⟨⟩; exact hu, by rintro _ ⟨⟩⟩

/-- A command that stops before any store. -/
theorem shape_error {i : Instr} {s : State} {e : Stop} (h : exec i s = s.endCommand (.error e))
    (he : s.MayStop e) : Shape i s :=
  ⟨[], .error e, h, fun _ => rfl, (by rintro _ ⟨⟩), (by rintro _ ⟨⟩; exact he)⟩

/-- A command that obtains a value, or stops, and then writes registers. -/
theorem shape_map {i : Instr} {s : State} {α : Type} {x : Except Stop α} {f : α → UnitState}
    (h : exec i s = s.endCommand (x.map f)) (hx : ∀ e, x = .error e → s.MayStop e)
    (hf : ∀ a, Effect i s.unit (f a)) : Shape i s := by
  cases x with
  | error e => exact shape_error h (hx e rfl)
  | ok a => exact shape_ok h (hf a)

/-- A command that stores and then writes registers. -/
theorem shape_store {i : Instr} {s : State} {cells : List (Word × Byte)}
    {regs : UnitState → UnitState} (h : exec i s = s.endStore cells regs) (hi : storesOf i = true)
    (hr : Effect i s.unit (regs s.unit)) : Shape i s :=
  ⟨cells, .ok (regs s.unit), h.trans (endStore_eq_endAfter ..), by simp [hi],
    (by rintro _ ⟨⟩; exact hr), (by rintro _ ⟨⟩)⟩

/-- A command that goes on at the next word and writes scalar registers only. -/
theorem effect_of_frame {i : Instr} {u₀ u : UnitState} (hh : i ≠ .halt)
    (hpc : u.pc = u₀.pc + 4)
    (hc : u.cmdcnt = u₀.cmdcnt ∧ u.busy = u₀.busy ∧ u.done = u₀.done)
    (hq : (∀ (t : Table) (k : Fin 64), 1 ≤ u₀.qt[t][k].toNat) →
      ∀ (t : Table) (k : Fin 64), 1 ≤ u.qt[t][k].toNat)
    (hz : (∀ n : BReg, u₀.bvalid[n] = false → u₀.blocks[n] = Block.zero) →
      ∀ n : BReg, u.bvalid[n] = false → u.blocks[n] = Block.zero)
    (hf : ∀ r : RegName, r ∉ stepRegs → r ∉ writesOf i → r.same u₀ u) : Effect i u₀ u where
  cmdcnt := hc.1
  pc _ := hpc
  aligned h := by rw [hpc]; exact aligned_add_four h
  run _ := hc.2
  halted h := absurd h hh
  tables := hq
  zeros := hz
  frame := hf

/-- A command that writes one block register and goes on. -/
theorem effect_setBlock {i : Instr} {u : UnitState} {d : BReg} (b : Block) (hh : i ≠ .halt)
    (hw : RegName.block d ∈ writesOf i ∧ RegName.valid d ∈ writesOf i) :
    Effect i u (u.setBlock d b).advance :=
  effect_of_frame hh rfl ⟨rfl, rfl, rfl⟩ (fun h => h) (fun h => zeros_setBlock d b h)
    (fun r h h' => RegName.same_trans (same_setBlock d b r fun hr => h' (by
      simp only [List.mem_cons, List.not_mem_nil, or_false] at hr
      obtain rfl | rfl := hr
      · exact hw.1
      · exact hw.2)) (same_advance _ r h))

/-- Writing scalar registers over a unit: the registers the command does not name stay. -/
theorem effect_scalar {i : Instr} {u v : UnitState} (hh : i ≠ .halt) (hpc : v.pc = u.pc + 4)
    (hc : v.cmdcnt = u.cmdcnt ∧ v.busy = u.busy ∧ v.done = u.done)
    (hv : v.qt = u.qt ∧ v.blocks = u.blocks ∧ v.bvalid = u.bvalid)
    (hf : ∀ r : RegName, r ∉ stepRegs → r ∉ writesOf i → r.same u v) : Effect i u v :=
  effect_of_frame hh hpc hc (fun h => by rw [hv.1]; exact h)
    (fun h => by rw [hv.2.1, hv.2.2]; exact h) hf

/-- A branch, over a unit whose pc, blocks, tables and status are `u`'s. -/
theorem effect_branch {i : Instr} {u v : UnitState} {n : Nat} (b : Bool) (off : BitVec n)
    (hh : i ≠ .halt) (hi : branches i = true)
    (hc : v.cmdcnt = u.cmdcnt ∧ v.busy = u.busy ∧ v.done = u.done)
    (hv : v.qt = u.qt ∧ v.blocks = u.blocks ∧ v.bvalid = u.bvalid ∧ v.pc = u.pc)
    (hf : ∀ r : RegName, r ∉ writesOf i → r.same u v) : Effect i u (v.branchIf b off) where
  cmdcnt := by simpa using hc.1
  pc h := by simp [hi] at h
  aligned h := by
    rw [UnitState.branchIf_pc, hv.2.2.2]
    split
    · exact aligned_branchTarget off h
    · exact aligned_add_four h
  run _ := by simpa using hc.2
  halted h := absurd h hh
  tables h := by simpa [hv.1] using h
  zeros h := by simpa [hv.2.1, hv.2.2.1] using h
  frame r h h' := RegName.same_trans (hf r h') (same_branchIf v b off r h)

/-- A command that writes one block register, and scalar registers over that. -/
theorem effect_block {i : Instr} {u v : UnitState} {d : BReg} {b : Block} (hh : i ≠ .halt)
    (hpc : v.pc = u.pc + 4) (hc : v.cmdcnt = u.cmdcnt ∧ v.busy = u.busy ∧ v.done = u.done)
    (hv : v.qt = u.qt ∧ v.blocks = (u.setBlock d b).blocks ∧ v.bvalid = (u.setBlock d b).bvalid)
    (hw : RegName.block d ∈ writesOf i ∧ RegName.valid d ∈ writesOf i)
    (hf : ∀ r : RegName, r ∉ stepRegs → r ∉ writesOf i → r.same (u.setBlock d b) v) :
    Effect i u v :=
  effect_of_frame hh hpc hc (fun h => by rw [hv.1]; exact h)
    (fun h => by rw [hv.2.1, hv.2.2]; exact zeros_setBlock d b h)
    (fun r h h' => RegName.same_trans (same_setBlock d b r fun hr => h' (by
      simp only [List.mem_cons, List.not_mem_nil, or_false] at hr
      obtain rfl | rfl := hr
      · exact hw.1
      · exact hw.2)) (hf r h h'))

theorem shape_nop (s : State) : Shape .nop s :=
  shape_ok rfl (effect_scalar (by simp) rfl ⟨rfl, rfl, rfl⟩ ⟨rfl, rfl, rfl⟩
    fun r h _ => same_advance _ r h)

theorem shape_halt (s : State) : Shape .halt s :=
  shape_ok rfl
    { cmdcnt := rfl, pc := fun _ => rfl, aligned := aligned_add_four, run := by simp
      halted := fun _ => ⟨rfl, rfl⟩, tables := fun h => h, zeros := fun h => h
      frame := by
        intro r h _
        cases r with
        | lc n => cases n <;> rfl
        | _ => simp_all [RegName.same, stepRegs] }

theorem shape_jmp (off : BitVec 24) (s : State) : Shape (.jmp off) s :=
  shape_ok rfl (effect_branch _ off (by simp) rfl ⟨rfl, rfl, rfl⟩ ⟨rfl, rfl, rfl, rfl⟩
    fun r _ => r.same_refl _)

theorem shape_bz (off : BitVec 24) (s : State) : Shape (.bz off) s :=
  shape_ok rfl (effect_branch _ off (by simp) rfl ⟨rfl, rfl, rfl⟩ ⟨rfl, rfl, rfl, rfl⟩
    fun r _ => r.same_refl _)

theorem shape_bnz (off : BitVec 24) (s : State) : Shape (.bnz off) s :=
  shape_ok rfl (effect_branch _ off (by simp) rfl ⟨rfl, rfl, rfl⟩ ⟨rfl, rfl, rfl, rfl⟩
    fun r _ => r.same_refl _)

theorem shape_setlc (n : Counter) (imm : Half) (s : State) : Shape (.setlc n imm) s :=
  shape_ok rfl (effect_scalar (by simp) (by simp) (by simp) (by simp)
    fun r h h' => RegName.same_trans (same_setCounter _ n imm r (by simpa [writesOf] using h'))
      (same_advance _ r h))

theorem shape_djnz (n : Counter) (off : BitVec 23) (s : State) : Shape (.djnz n off) s :=
  shape_ok rfl (effect_branch _ off (by simp) rfl (by simp) (by simp)
    fun r h' => same_setCounter _ n _ r (by simpa [writesOf] using h'))

theorem shape_setx (imm : Half) (s : State) : Shape (.setx imm) s :=
  shape_ok rfl (effect_scalar (by simp) rfl ⟨rfl, rfl, rfl⟩ ⟨rfl, rfl, rfl⟩ fun r h h' => by
    cases r with
    | lc n => cases n <;> rfl
    | _ => simp_all [RegName.same, stepRegs, writesOf])

theorem shape_sety (imm : Half) (s : State) : Shape (.sety imm) s :=
  shape_ok rfl (effect_scalar (by simp) rfl ⟨rfl, rfl, rfl⟩ ⟨rfl, rfl, rfl⟩ fun r h h' => by
    cases r with
    | lc n => cases n <;> rfl
    | _ => simp_all [RegName.same, stepRegs, writesOf])

theorem shape_addx (imm : Half) (s : State) : Shape (.addx imm) s :=
  shape_ok rfl (effect_scalar (by simp) rfl ⟨rfl, rfl, rfl⟩ ⟨rfl, rfl, rfl⟩ fun r h h' => by
    cases r with
    | lc n => cases n <;> rfl
    | _ => simp_all [RegName.same, stepRegs, writesOf])

theorem shape_addy (imm : Half) (s : State) : Shape (.addy imm) s :=
  shape_ok rfl (effect_scalar (by simp) rfl ⟨rfl, rfl, rfl⟩ ⟨rfl, rfl, rfl⟩ fun r h h' => by
    cases r with
    | lc n => cases n <;> rfl
    | _ => simp_all [RegName.same, stepRegs, writesOf])

theorem shape_setmv (dx dy : BitVec 12) (s : State) : Shape (.setmv dx dy) s :=
  shape_ok rfl (effect_scalar (by simp) rfl ⟨rfl, rfl, rfl⟩ ⟨rfl, rfl, rfl⟩ fun r h h' => by
    cases r with
    | lc n => cases n <;> rfl
    | _ => simp_all [RegName.same, stepRegs, writesOf])

theorem shape_ldpx (d : BReg) (p : Plane) (m h : Bool) (s : State) : Shape (.ldpx d p m h) s := by
  rw [Shape]
  by_cases hm : (h && !m) = true
  · exact shape_error (e := .raise .illegalOp (encode (.ldpx d p m h)))
      (by simp only [exec, execLdpx, hm, if_true]) (mayStop_raise s _ (by decide))
  · by_cases hb : s.unit.pd[p].inBounds (s.unit.loadPosition m h).1 (s.unit.loadPosition m h).2 8
    · exact shape_map (by simp only [exec, execLdpx, if_neg hm, if_pos hb]; rfl)
        (fun e he => readBytes_mayStop he)
        fun _ => effect_setBlock _ (by simp) (by simp [writesOf])
    · exact shape_error (by simp only [exec, execLdpx, if_neg hm, if_neg hb]; rfl)
        (mayStop_raise s _ (by decide))

theorem shape_stpx (a : BReg) (p : Plane) (s : State) : Shape (.stpx a p) s := by
  rw [Shape]
  cases ha : s.unit.readBlock a with
  | error e => exact shape_error (by simp only [exec, execStpx, ha]) (readBlock_mayStop s ha)
  | ok src =>
    by_cases hb : s.unit.pd[p].inBounds s.unit.x.toNat s.unit.y.toNat 8
    · exact shape_store (by simp only [exec, execStpx, ha, if_pos hb]; rfl) rfl
        (effect_scalar (by simp) rfl ⟨rfl, rfl, rfl⟩ ⟨rfl, rfl, rfl⟩
          fun r h _ => same_advance _ r h)
    · exact shape_error (by simp only [exec, execStpx, ha, if_neg hb]; rfl)
        (mayStop_raise s _ (by decide))

theorem shape_mov (d a : BReg) (s : State) : Shape (.mov d a) s :=
  shape_map rfl (fun _ h => readBlock_mayStop s h)
    fun _ => effect_setBlock _ (by simp) (by simp [writesOf])

theorem shape_clr (d : BReg) (s : State) : Shape (.clr d) s :=
  shape_ok rfl (effect_setBlock _ (by simp) (by simp [writesOf]))

theorem shape_sub (d a b : BReg) (s : State) : Shape (.sub d a b) s :=
  shape_map rfl (fun _ h => readBlocks_mayStop s h)
    fun _ => effect_setBlock _ (by simp) (by simp [writesOf])

theorem shape_addc (d a b : BReg) (s : State) : Shape (.addc d a b) s :=
  shape_map rfl (fun _ h => readBlocks_mayStop s h)
    fun _ => effect_setBlock _ (by simp) (by simp [writesOf])

theorem shape_sad (a b : BReg) (s : State) : Shape (.sad a b) s := by
  refine shape_map (x := s.unit.readBlocks a b) rfl (fun _ h => readBlocks_mayStop s h) fun v => ?_
  generalize hacc : (BitVec.ofNat 32 (sadBlock v.1 v.2) : Word) = acc
  exact effect_scalar (by simp) rfl ⟨rfl, rfl, rfl⟩ ⟨rfl, rfl, rfl⟩ fun r h h' => by
      cases r with
      | lc n => cases n <;> rfl
      | _ => simp_all [RegName.same, stepRegs, writesOf]

theorem shape_fdct (d a : BReg) (s : State) : Shape (.fdct d a) s :=
  shape_map rfl (fun _ h => readBlock_mayStop s h)
    fun _ => effect_setBlock _ (by simp) (by simp [writesOf])

theorem shape_idct (d a : BReg) (c : Bool) (s : State) : Shape (.idct d a c) s :=
  shape_map rfl (fun _ h => readBlock_mayStop s h)
    fun _ => effect_setBlock _ (by simp) (by simp [writesOf])

theorem shape_quant (d a : BReg) (t : Table) (s : State) : Shape (.quant d a t) s :=
  shape_map rfl (fun _ h => readBlock_mayStop s h)
    fun src => effect_block (d := d) (b := quant src s.unit.qt[t]) (by simp) rfl ⟨rfl, rfl, rfl⟩
      ⟨rfl, rfl, rfl⟩ (by simp [writesOf]) fun r h h' => by
      cases r with
      | lc n => cases n <;> rfl
      | _ => simp_all [RegName.same, stepRegs, writesOf]

theorem shape_dequant (d a : BReg) (t : Table) (s : State) : Shape (.dequant d a t) s :=
  shape_map rfl (fun _ h => readBlock_mayStop s h)
    fun _ => effect_setBlock _ (by simp) (by simp [writesOf])

theorem shape_qgen (t : Table) (q : BitVec 7) (s : State) : Shape (.qgen t q) s := by
  rw [Shape]
  by_cases hq : 100 < q.toNat
  · exact shape_error (by simp only [exec, execQgen, if_pos hq]; rfl) (mayStop_raise s _ (by decide))
  · refine shape_ok (u := (s.unit.setTable t (qgen q.toNat)).advance)
      (by simp only [exec, execQgen, if_neg hq])
      (effect_of_frame (by simp) rfl ⟨rfl, rfl, rfl⟩ (fun h n k => ?_) (fun h => h)
        fun r h h' => RegName.same_trans (same_setTable _ _ r (by simpa [writesOf] using h'))
          (same_advance _ r h))
    by_cases e : n = t
    · subst e
      have : (s.unit.setTable n (qgen q.toNat)).advance.qt[n] = qgen q.toNat := by
        simp [UnitState.setTable]
      rw [this, getElem_qgen (by omega)]
      omega
    · have : (s.unit.setTable t (qgen q.toNat)).advance.qt[n] = s.unit.qt[n] :=
        tables_set_of_ne _ _ _ _ e
      rw [this]
      exact h n k

theorem effect_countBytes {i : Instr} (u : UnitState) (n : Nat) (z : Bool) (hh : i ≠ .halt)
    (hw : writesOf i = [.bsp, .acc, .z]) : Effect i u (u.countBytes n z).advance :=
  effect_scalar hh rfl ⟨rfl, rfl, rfl⟩ ⟨rfl, rfl, rfl⟩ fun r h h' => by
    cases r with
    | lc n => cases n <;> rfl
    | _ => simp_all [RegName.same, stepRegs]

theorem shape_emitBits {i : Instr} {s : State} {bits : List Bool} {z : Bool}
    (h : exec i s = s.emitBits bits z) (hi : storesOf i = true) (hh : i ≠ .halt)
    (hw : writesOf i = [.bsp, .acc, .z]) : Shape i s := by
  rw [Shape]
  by_cases hb : s.unit.bse.toNat < s.unit.bsp.toNat + (pack bits).length
  · exact shape_error (by rw [h]; simp only [State.emitBits, if_pos hb]; rfl)
      (mayStop_raise s _ (by decide))
  · exact shape_store (by rw [h]; simp only [State.emitBits, if_neg hb]; rfl) hi
      (effect_countBytes _ _ _ hh hw)

theorem shape_encb (a : BReg) (s : State) : Shape (.encb a) s := by
  rw [Shape]
  cases ha : s.unit.readBlock a with
  | error e => exact shape_error (by simp only [exec, execEncb, ha]) (readBlock_mayStop s ha)
  | ok src =>
    exact shape_emitBits (by simp only [exec, execEncb, ha]; rfl) rfl (by simp) rfl

theorem shape_decb (d : BReg) (s : State) : Shape (.decb d) s :=
  shape_map rfl (fun _ h => decodeStop_mayStop (decodeBlock_error h))
    fun src => effect_block (d := d) (b := src.1) (by simp) rfl ⟨rfl, rfl, rfl⟩
      ⟨rfl, rfl, rfl⟩ (by simp [writesOf]) fun r h h' => by
      cases r with
      | lc n => cases n <;> rfl
      | _ => simp_all [RegName.same, stepRegs, writesOf]

theorem shape_encmv (s : State) : Shape .encmv s :=
  shape_emitBits rfl rfl (by simp) rfl

theorem shape_decmv (s : State) : Shape .decmv s :=
  shape_map rfl (fun _ h => decodeStop_mayStop (decodeOffset_error h))
    fun _ => effect_scalar (by simp) rfl ⟨rfl, rfl, rfl⟩ ⟨rfl, rfl, rfl⟩ fun r h h' => by
      cases r with
      | lc n => cases n <;> rfl
      | _ => simp_all [RegName.same, stepRegs, writesOf]

theorem shape_msrch (ps pr : Plane) (radius : BitVec 6) (s : State) :
    Shape (.msrch ps pr radius) s :=
  shape_map rfl (fun _ h => search_mayStop h)
    fun _ => effect_scalar (by simp) rfl ⟨rfl, rfl, rfl⟩ ⟨rfl, rfl, rfl⟩ fun r h h' => by
      cases r with
      | lc n => cases n <;> rfl
      | _ => simp_all [RegName.same, stepRegs, writesOf]

/-- Every command has the shape: what any of the 29 can do. -/
theorem exec_shape (i : Instr) (s : State) : Shape i s :=
  match i with
  | .nop => shape_nop s
  | .halt => shape_halt s
  | .jmp off => shape_jmp off s
  | .bz off => shape_bz off s
  | .bnz off => shape_bnz off s
  | .setlc n imm => shape_setlc n imm s
  | .djnz n off => shape_djnz n off s
  | .setx imm => shape_setx imm s
  | .sety imm => shape_sety imm s
  | .addx imm => shape_addx imm s
  | .addy imm => shape_addy imm s
  | .setmv dx dy => shape_setmv dx dy s
  | .ldpx d p m h => shape_ldpx d p m h s
  | .stpx a p => shape_stpx a p s
  | .mov d a => shape_mov d a s
  | .clr d => shape_clr d s
  | .sub d a b => shape_sub d a b s
  | .addc d a b => shape_addc d a b s
  | .sad a b => shape_sad a b s
  | .fdct d a => shape_fdct d a s
  | .idct d a c => shape_idct d a c s
  | .quant d a t => shape_quant d a t s
  | .dequant d a t => shape_dequant d a t s
  | .qgen t q => shape_qgen t q s
  | .encb a => shape_encb a s
  | .decb d => shape_decb d s
  | .encmv => shape_encmv s
  | .decmv => shape_decmv s
  | .msrch ps pr r => shape_msrch ps pr r s

/-- Everything a command can answer as a next state: it completes with its effect, or it takes a fault
with a code; and memory holds what its stores left. -/
theorem exec_next {i : Instr} {s t : State} (h : exec i s = .next t) :
    ∃ cells m st, m = (s.storeBytes cells).1.mem ∧ (storesOf i = false → cells = []) ∧
      ((∃ u, Effect i s.unit u
          ∧ t = { s with unit := u.complete, mem := m, races := st, draws := s.draws + 1 })
        ∨ ∃ code info, code ≠ .none
          ∧ t = { s with unit := s.unit.enterFault code info, mem := m, races := st,
                         draws := s.draws + 1 }) := by
  obtain ⟨cells, r, he, hc, hu, hr⟩ := exec_shape i s
  rw [he] at h
  obtain ⟨m, st, hm, ⟨u, hru, -, ht⟩ | ⟨code, info, ht, hs | ⟨-, hs⟩⟩⟩ := endAfter_next h
  · exact ⟨cells, m, st, hm, hc, .inl ⟨u, hu u hru, ht⟩⟩
  · obtain ⟨c, -, hd⟩ := storeBytes_stop hs
    exact ⟨cells, m, st, hm, hc, .inr ⟨code, info, ne_none_of_mayStop (.inr ⟨_, denies_of_deniesWrite hd⟩), ht⟩⟩
  · exact ⟨cells, m, st, hm, hc, .inr ⟨code, info, ne_none_of_mayStop (hr _ hs), ht⟩⟩

/-- A command that writes registers and cannot stop: its next state. -/
theorem next_of_ok {i : Instr} {s : State} {u : UnitState} (h : exec i s = s.endCommand (.ok u)) :
    exec i s = .next { s with unit := u.complete, draws := s.draws + 1 } := by rw [h]; rfl

/-- A command that obtained its value: its next state. -/
theorem next_of_map {i : Instr} {s : State} {α : Type} {x : Except Stop α} {f : α → UnitState} {v : α}
    (h : exec i s = s.endCommand (x.map f)) (hx : x = .ok v) :
    exec i s = .next { s with unit := (f v).complete, draws := s.draws + 1 } := by rw [h, hx]; rfl

/-- A command that counted itself in CMDCNT completed. -/
theorem effect_of_cmdcnt {i : Instr} {s t : State} (h : exec i s = .next t)
    (hc : t.unit.cmdcnt = s.unit.cmdcnt + 1) : ∃ u, Effect i s.unit u ∧ t.unit = u.complete := by
  obtain ⟨cells, m, st, -, -, ⟨u, hu, rfl⟩ | ⟨code, info, hn, rfl⟩⟩ := exec_next h
  · exact ⟨u, hu, rfl⟩
  · exfalso
    have : (s.unit.enterFault code info).cmdcnt = s.unit.cmdcnt := rfl
    rw [this] at hc
    bv_omega

/-- The frame of a command that completed. -/
theorem frame_of_cmdcnt {i : Instr} {s t : State} (h : exec i s = .next t)
    (hc : t.unit.cmdcnt = s.unit.cmdcnt + 1) (r : RegName) (h1 : r ∉ stepRegs)
    (h2 : r ∉ writesOf i) : r.same s.unit t.unit := by
  obtain ⟨u, hu, ht⟩ := effect_of_cmdcnt h hc
  rw [ht]
  exact RegName.same_trans (hu.frame r h1 h2) (same_complete _ r h1)

/-- A command that stops the machine met an access that the spec leaves outside the model. -/
theorem exec_stops {i : Instr} {s : State} (h : ¬ goesOn (exec i s)) :
    ∃ a why, s.denies a = some (.refuse why) := by
  have key : ∀ e, s.MayStop e → (¬ ∃ code info, e = .raise code info) →
      ∃ a why, s.denies a = some (.refuse why) := by
    rintro (⟨c, i⟩ | ⟨why⟩) he hn
    · exact absurd ⟨c, i, rfl⟩ hn
    · obtain ⟨c, i, h, -⟩ | ⟨a, h⟩ := he
      · cases h
      · exact ⟨a, why, h⟩
  obtain ⟨cells, r, he, -, -, hr⟩ := exec_shape i s
  rw [he] at h
  unfold State.endAfter at h
  split at h
  · cases r with
    | ok u => exact absurd ⟨_, rfl⟩ h
    | error e =>
      refine key e (hr e rfl) ?_
      rintro ⟨code, info, rfl⟩
      exact h ⟨_, rfl⟩
  · rename_i t e hs
    obtain ⟨c, -, hd⟩ := storeBytes_stop (e := e) (by rw [hs])
    refine key e (.inr ⟨_, denies_of_deniesWrite hd⟩) ?_
    rintro ⟨code, info, rfl⟩
    exact h ⟨_, rfl⟩

end Sys2Proof.Machine
end

