-- ==== Sys2Proof/Laws/PerInstr.lean ====
section
/-! SUPPORT. One lemma per command, about the command as syntax: the word that encodes it matches a row of
the opcode map, and that row reads every operand back. -/

namespace Sys2Proof.Laws.OwnRow

/-- Some row of the opcode map matches the command's word and reads the command from it. -/
def Statement (i : Instr) : Prop := ∃ r ∈ opRows, r.matches (encode i) = true ∧ r.read (encode i) = i

/-- The row's pattern and mask fit the word, and the row reads the command. -/
theorem of_row {i : Instr} (pat mask : Word) (read : Word → Instr) (hr : ⟨pat, mask, read⟩ ∈ opRows)
    (hm : encode i &&& mask = pat) (he : read (encode i) = i) : Statement i :=
  ⟨⟨pat, mask, read⟩, hr, by simpa [OpRow.matches] using hm, he⟩

/-- A check of every row, for commands of few operand values. -/
theorem of_any {i : Instr}
    (h : opRows.any (fun r => r.matches (encode i) && decide (r.read (encode i) = i)) = true) :
    Statement i := by
  obtain ⟨r, hr, h⟩ := List.any_eq_true.mp h
  simp only [Bool.and_eq_true, decide_eq_true_eq] at h
  exact ⟨r, hr, h.1, h.2⟩

/-- The low bits of a word whose high bits are an opcode. -/
theorem field_low {m n : Nat} (hi : BitVec m) (lo : BitVec n) :
    (hi ++ lo).extractLsb' 0 n = lo := by
  apply BitVec.eq_of_getLsbD_eq
  intro i h
  simp [BitVec.getLsbD_append, h]

/-- Masking the low bits away. -/
theorem mask_low {m n : Nat} (hi : BitVec m) (lo : BitVec n) :
    (hi ++ lo) &&& (BitVec.allOnes m ++ 0#n) = hi ++ 0#n := by
  rw [BitVec.and_append]; simp

/-- A field between high bits and `n` low bits. -/
theorem field_mid {m k n : Nat} (hi : BitVec m) (mid : BitVec k) (lo : BitVec n) :
    (hi ++ mid ++ lo).extractLsb' n k = mid := by
  apply BitVec.eq_of_getLsbD_eq
  intro i h
  simp [BitVec.getLsbD_append, h]

/-- A bit between high bits and `n` low bits. -/
theorem bit_mid {m n : Nat} (hi : BitVec m) (b : BitVec 1) (lo : BitVec n) :
    (hi ++ b ++ lo).getLsbD n = b.getLsbD 0 := by
  rw [BitVec.getLsbD_append, if_neg (by omega), BitVec.getLsbD_append, if_pos (by omega),
    Nat.sub_self]

theorem counter_of_bit (n : Counter) : (if n.bit.getLsbD 0 then Counter.lc1 else .lc0) = n := by
  cases n <;> rfl

theorem jmp (off24 : BitVec 24) : Statement (.jmp off24) :=
  of_row 0x02000000 0xFF000000 (fun w => .jmp (field w 0 24)) (by simp [opRows, controlRows])
    (mask_low 0x02#8 off24) (congrArg Instr.jmp (field_low 0x02#8 off24))

theorem bz (off24 : BitVec 24) : Statement (.bz off24) :=
  of_row 0x03000000 0xFF000000 (fun w => .bz (field w 0 24)) (by simp [opRows, controlRows])
    (mask_low 0x03#8 off24) (congrArg Instr.bz (field_low 0x03#8 off24))

theorem bnz (off24 : BitVec 24) : Statement (.bnz off24) :=
  of_row 0x04000000 0xFF000000 (fun w => .bnz (field w 0 24)) (by simp [opRows, controlRows])
    (mask_low 0x04#8 off24) (congrArg Instr.bnz (field_low 0x04#8 off24))

theorem setx (imm16 : Half) : Statement (.setx imm16) :=
  of_row 0x08000000 0xFFFF0000 (fun w => .setx (field w 0 16)) (by simp [opRows, controlRows])
    (mask_low (0x08#8 ++ 0#8) imm16) (congrArg Instr.setx (field_low (0x08#8 ++ 0#8) imm16))

theorem sety (imm16 : Half) : Statement (.sety imm16) :=
  of_row 0x09000000 0xFFFF0000 (fun w => .sety (field w 0 16)) (by simp [opRows, controlRows])
    (mask_low (0x09#8 ++ 0#8) imm16) (congrArg Instr.sety (field_low (0x09#8 ++ 0#8) imm16))

theorem addx (imm16 : Half) : Statement (.addx imm16) :=
  of_row 0x0A000000 0xFFFF0000 (fun w => .addx (field w 0 16)) (by simp [opRows, controlRows])
    (mask_low (0x0A#8 ++ 0#8) imm16) (congrArg Instr.addx (field_low (0x0A#8 ++ 0#8) imm16))

theorem addy (imm16 : Half) : Statement (.addy imm16) :=
  of_row 0x0B000000 0xFFFF0000 (fun w => .addy (field w 0 16)) (by simp [opRows, controlRows])
    (mask_low (0x0B#8 ++ 0#8) imm16) (congrArg Instr.addy (field_low (0x0B#8 ++ 0#8) imm16))

theorem setlc (n : Counter) (imm16 : Half) : Statement (.setlc n imm16) :=
  of_row 0x05000000 0xFFFE0000 (fun w => .setlc (counterField w 16) (field w 0 16))
    (by simp [opRows, controlRows])
    (by
      have h : (0x05#8 ++ 0#7 ++ n.bit ++ imm16) &&& (0xFF#8 ++ 0x7F#7 ++ 0#1 ++ 0#16)
          = 0x05#8 ++ 0#7 ++ 0#1 ++ 0#16 := by
        simp only [BitVec.and_append]; simp
      exact h)
    (congrArg₂ Instr.setlc
      ((congrArg (fun b : Bool => if b then Counter.lc1 else .lc0)
        (bit_mid (0x05#8 ++ 0#7) n.bit imm16)).trans (counter_of_bit n))
      (field_low (0x05#8 ++ 0#7 ++ n.bit) imm16))

theorem djnz (n : Counter) (off23 : BitVec 23) : Statement (.djnz n off23) :=
  of_row 0x06000000 0xFF000000 (fun w => .djnz (counterField w 23) (field w 0 23))
    (by simp [opRows, controlRows])
    (by
      have h : (0x06#8 ++ n.bit ++ off23) &&& (0xFF#8 ++ 0#1 ++ 0#23) = 0x06#8 ++ 0#1 ++ 0#23 := by
        simp only [BitVec.and_append]; simp
      exact h)
    (congrArg₂ Instr.djnz
      ((congrArg (fun b : Bool => if b then Counter.lc1 else .lc0)
        (bit_mid 0x06#8 n.bit off23)).trans (counter_of_bit n))
      (field_low (0x06#8 ++ n.bit) off23))

theorem setmv (dx12 dy12 : BitVec 12) : Statement (.setmv dx12 dy12) :=
  of_row 0x0C000000 0xFF000000 (fun w => .setmv (field w 12 12) (field w 0 12))
    (by simp [opRows, controlRows])
    (by
      have h : (0x0C#8 ++ dx12 ++ dy12) &&& (0xFF#8 ++ 0#12 ++ 0#12) = 0x0C#8 ++ 0#12 ++ 0#12 := by
        simp only [BitVec.and_append]; simp
      exact h)
    (congrArg₂ Instr.setmv
      (field_mid 0x0C#8 dx12 dy12)
      (field_low (0x0C#8 ++ dx12) dy12))

theorem nop : Statement .nop := of_any (by decide +kernel)

theorem halt : Statement .halt := of_any (by decide +kernel)

theorem ldpx (d : BReg) (p : Plane) (m h : Bool) : Statement (.ldpx d p m h) :=
  of_any (by revert d p m h; decide +kernel)

theorem stpx (a : BReg) (p : Plane) : Statement (.stpx a p) :=
  of_any (by revert a p; decide +kernel)

theorem mov (d a : BReg) : Statement (.mov d a) :=
  of_any (by revert d a; decide +kernel)

theorem clr (d : BReg) : Statement (.clr d) :=
  of_any (by revert d; decide +kernel)

theorem sub (d a b : BReg) : Statement (.sub d a b) :=
  of_any (by revert d a b; decide +kernel)

theorem addc (d a b : BReg) : Statement (.addc d a b) :=
  of_any (by revert d a b; decide +kernel)

theorem sad (a b : BReg) : Statement (.sad a b) :=
  of_any (by revert a b; decide +kernel)

theorem fdct (d a : BReg) : Statement (.fdct d a) :=
  of_any (by revert d a; decide +kernel)

theorem idct (d a : BReg) (c : Bool) : Statement (.idct d a c) :=
  of_any (by revert d a c; decide +kernel)

theorem quant (d a : BReg) (t : Table) : Statement (.quant d a t) :=
  of_any (by revert d a t; decide +kernel)

theorem dequant (d a : BReg) (t : Table) : Statement (.dequant d a t) :=
  of_any (by revert d a t; decide +kernel)

theorem qgen (t : Table) (q : BitVec 7) : Statement (.qgen t q) := by
  have h : ∀ (t : Fin 4) (q : Fin 128), opRows.any (fun r =>
      r.matches (encode (.qgen t (BitVec.ofFin q)))
        && decide (r.read (encode (.qgen t (BitVec.ofFin q))) = .qgen t (BitVec.ofFin q))) = true := by
    decide +kernel
  exact of_any (h t q.toFin)

theorem encb (a : BReg) : Statement (.encb a) :=
  of_any (by revert a; decide +kernel)

theorem decb (d : BReg) : Statement (.decb d) :=
  of_any (by revert d; decide +kernel)

theorem encmv : Statement .encmv := of_any (by decide +kernel)

theorem decmv : Statement .decmv := of_any (by decide +kernel)

theorem msrch (ps pr : Plane) (radius : BitVec 6) : Statement (.msrch ps pr radius) := by
  have h : ∀ (ps pr : Fin 4) (r : Fin 64), opRows.any (fun row =>
      row.matches (encode (.msrch ps pr (BitVec.ofFin r)))
        && decide (row.read (encode (.msrch ps pr (BitVec.ofFin r)))
          = .msrch ps pr (BitVec.ofFin r))) = true := by
    decide +kernel
  exact of_any (h ps pr radius.toFin)

end Sys2Proof.Laws.OwnRow
end

