-- ==== Sys2Proof/Laws/Encoding.lean ====
section
/-! SUPPORT. The rows of the opcode map exclude each other, so the row a word matches is the row the decoder
uses. -/

namespace Sys2Proof

/-- No two rows of the opcode map share an opcode. -/
theorem opRows_disjoint :
    opRows.Pairwise fun r r' => field r.pat 24 8 ≠ field r'.pat 24 8 := by
  decide +kernel

/-- Every row's mask covers the opcode. -/
theorem opRows_mask : ∀ r ∈ opRows, field r.mask 24 8 = 0xFF := by
  decide +kernel

/-- A word that matches a row has the row's opcode. -/
theorem opcode_of_matches {r : OpRow} (hr : r ∈ opRows) {w : Word} (h : r.matches w = true) :
    field r.pat 24 8 = field w 24 8 := by
  have hm := opRows_mask r hr
  simp only [OpRow.matches, beq_iff_eq] at h
  rw [← h]
  simp only [field] at hm ⊢
  rw [BitVec.extractLsb'_and, hm]
  apply BitVec.eq_of_getLsbD_eq
  intro i hi
  interval_cases i <;> simp

/-- The decoder's row for a word is the row it matches. -/
theorem find_row {r : OpRow} (hr : r ∈ opRows) {w : Word} (h : r.matches w = true) :
    opRows.find? (·.matches w) = some r := by
  have key : ∀ l : List OpRow, (∀ x ∈ l, x ∈ opRows) →
      (l.Pairwise fun r r' => field r.pat 24 8 ≠ field r'.pat 24 8) → r ∈ l →
      l.find? (·.matches w) = some r := by
    intro l
    induction l with
    | nil => simp
    | cons x l ih =>
      intro hl hp hx
      by_cases hxw : x.matches w = true
      · have hxr : x = r := by
          rcases List.mem_cons.mp hx with e | e
          · exact e.symm
          · exact absurd ((opcode_of_matches (hl x (by simp)) hxw).trans
              (opcode_of_matches hr h).symm) ((List.pairwise_cons.mp hp).1 r e)
        simp [hxr, h]
      · rcases List.mem_cons.mp hx with e | e
        · exact absurd (e ▸ h) hxw
        · simp only [List.find?_cons, hxw]
          exact ih (fun y hy => hl y (by simp [hy])) (List.pairwise_cons.mp hp).2 e
  exact key opRows (fun _ h => h) opRows_disjoint hr

end Sys2Proof
end

