-- ==== Sys2Proof/Laws/Motion.lean ====
section
/-! SUPPORT. Windows of samples, the store of a block, and the motion search: which candidates there are, in
which order, and what the search keeps. -/

namespace Sys2Proof.Machine

/-! ### Windows -/

theorem inBounds_iff {d : PlaneDesc} {x y : Int} {size : Nat} : d.inBounds x y size = true ↔
    0 ≤ x ∧ 0 ≤ y ∧ x + size ≤ d.width.toNat ∧ y + size ≤ d.height.toNat := by
  simp [PlaneDesc.inBounds, and_assoc]

theorem toNat_windowAddr (d : PlaneDesc) (x y : Int) (size i : Nat) :
    ((d.windowAddr x y size i).toNat : Int)
      = (d.base.toNat + (y + (i / size : Nat)) * d.stride.toNat + (x + (i % size : Nat)))
        % 2 ^ 32 := by
  rw [PlaneDesc.windowAddr, PlaneDesc.pixAddr, BitVec.toNat_ofInt]
  norm_num
  omega

theorem toNat_windowInfo (x y : Int) :
    ((windowInfo x y).toNat : Int) = (y % 65536) * 65536 + x % 65536 := by
  have hx : (BitVec.ofInt 16 x).toNat < 2 ^ 16 := (BitVec.ofInt 16 x).isLt
  rw [windowInfo, BitVec.toNat_append, Nat.shiftLeft_eq, ← Nat.shiftLeft_eq,
    ← Nat.shiftLeft_add_eq_or_of_lt hx, Nat.shiftLeft_eq, BitVec.toNat_ofInt, BitVec.toNat_ofInt]
  norm_num
  omega

/-- Reading a window whose bytes are all readable gives memory's bytes in raster order. -/
theorem readWindow_of_readable {s : State} {d : PlaneDesc} {x y : Int} {size : Nat}
    {t : Nat → Access} (h : ∀ i < size * size, s.Readable (d.windowAddr x y size i)) :
    s.readWindow d x y size t
      = .ok ((List.range (size * size)).map fun i => s.mem.read (d.windowAddr x y size i).toNat) := by
  unfold State.readWindow
  rw [readBytes_of_readable]
  · simp [Function.comp_def]
  · intro a ha
    simp only [List.mem_map, List.mem_range] at ha
    obtain ⟨i, hi, rfl⟩ := ha
    exact h i hi

theorem readWindow_of_plain {s : State} {d : PlaneDesc} {x y : Int} {size : Nat}
    {t : Nat → Access} (h : ∀ i < size * size, s.Plain (d.windowAddr x y size i)) :
    ∃ bytes, s.readWindow d x y size t = .ok bytes := by
  refine ⟨_, readBytes_of_plain ?_⟩
  intro a ha
  simp only [List.mem_map, List.mem_range] at ha
  obtain ⟨i, hi, rfl⟩ := ha
  exact h i hi

/-- The first byte of a window in raster order that is denied stops the reading. -/
theorem readWindow_of_denied {s : State} {d : PlaneDesc} {x y : Int} {size k : Nat}
    {t : Nat → Access} {e : Stop} (hk : k < size * size)
    (h : s.denies (d.windowAddr x y size k) = some e)
    (hp : ∀ i < k, s.Plain (d.windowAddr x y size i)) : s.readWindow d x y size t = .error e := by
  have hl : List.range (size * size)
      = List.range k ++ k :: (List.range (size * size - k - 1)).map fun i => k + 1 + i := by
    have hs : size * size = k + ((size * size - k - 1) + 1) := by omega
    conv_lhs => rw [hs, List.range_add, List.range_succ_eq_map]
    simp [Function.comp_def, Nat.add_assoc, Nat.add_comm 1]
  unfold State.readWindow
  rw [hl, List.map_append, List.map_cons]
  refine readBytes_of_denied ?_ h
  intro a ha
  simp only [List.mem_map, List.mem_range] at ha
  obtain ⟨i, hi, rfl⟩ := ha
  exact hp i hi

/-- The samples of a loaded window are its elements. -/
theorem elem_blockOfSamples (f : Nat → Byte) (i : Fin 64) :
    elem (blockOfSamples ((List.range (8 * 8)).map f)) i = (f i).toNat := by
  have h : (((List.range (8 * 8)).map f).getD i.val 0) = f i := by
    rw [List.getD_eq_getElem?_getD, List.getElem?_map, List.getElem?_range (by omega)]
    rfl
  rw [blockOfSamples, elem_tabulate, h, BitVec.toInt_eq_toNat_of_lt]
  · simp only [BitVec.toNat_setWidth]
    have := (f i).isLt
    omega
  · have := (f i).isLt
    simp
    omega

/-! ### The cells of a stored block -/

theorem toNat_clamp8_byte (v : Int) :
    ((BitVec.ofInt 8 (clamp8 v)).toNat : Int) = min 255 (max 0 v) := by
  rw [BitVec.toNat_ofInt]
  unfold clamp8
  norm_num
  omega

/-- The cell STPX writes for element `i`. -/
def storeCell (d : PlaneDesc) (x y : Half) (b : Block) (i : Fin 64) : Word × Byte :=
  (d.windowAddr x.toNat y.toNat 8 i.val, BitVec.ofInt 8 (clamp8 (elem b i)))

theorem mem_storeCells {d : PlaneDesc} {x y : Half} {b : Block} {c : Word × Byte} :
    c ∈ storeCells d x y b ↔ ∃ i, storeCell d x y b i = c := by
  simp [storeCells, storeCell]

/-- The cells before element `k`'s, its own, and those after it. -/
theorem storeCells_split (d : PlaneDesc) (x y : Half) (b : Block) (k : Fin 64) :
    ∃ before after, storeCells d x y b = before ++ storeCell d x y b k :: after
      ∧ (∀ c, c ∈ before ↔ ∃ i, i < k ∧ storeCell d x y b i = c)
      ∧ ∀ c, c ∈ after ↔ ∃ i, k < i ∧ storeCell d x y b i = c := by
  refine ⟨((List.finRange 64).take k.val).map (storeCell d x y b),
    ((List.finRange 64).drop (k.val + 1)).map (storeCell d x y b), ?_, ?_, ?_⟩
  · have h : List.finRange 64
        = (List.finRange 64).take k.val ++ k :: (List.finRange 64).drop (k.val + 1) := by
      conv_lhs => rw [← List.take_append_drop k.val (List.finRange 64)]
      rw [List.drop_eq_getElem_cons (by simp)]
      simp
    conv_lhs => rw [storeCells, h, List.map_append, List.map_cons]
    rfl
  · intro c
    simp only [List.mem_map, List.mem_take_iff_getElem]
    constructor
    · rintro ⟨_, ⟨j, hj, rfl⟩, rfl⟩
      exact ⟨_, by simp [Fin.lt_def]; omega, rfl⟩
    · rintro ⟨i, hi, rfl⟩
      exact ⟨i, ⟨i.val, by simp; exact hi, by simp⟩, rfl⟩
  · intro c
    simp only [List.mem_map, List.mem_drop_iff_getElem]
    constructor
    · rintro ⟨_, ⟨j, hj, rfl⟩, rfl⟩
      exact ⟨_, by simp [Fin.lt_def]; omega, rfl⟩
    · rintro ⟨i, hi, rfl⟩
      rw [Fin.lt_def] at hi
      exact ⟨i, ⟨i.val - (k.val + 1), by simp; omega, by ext; simp; omega⟩, rfl⟩

/-! ### Sums of absolute differences -/

theorem sadSamples_map (f g : Nat → Byte) (l : List Nat) :
    sadSamples (l.map f) (l.map g)
      = (l.map fun i => (((f i).toNat : Int) - (g i).toNat).natAbs).sum := by
  induction l with
  | nil => rfl
  | cons i l ih => simp [sadSamples, ih]

theorem sum_map_range (f : Nat → Nat) (n : Nat) :
    ((List.range n).map f).sum = ∑ i ∈ Finset.range n, f i := by
  induction n with
  | zero => rfl
  | succ n ih => simp [List.range_succ, Finset.sum_range_succ, ih]

theorem sadSamples_le : ∀ a b : List Byte, sadSamples a b ≤ 255 * a.length
  | [], _ => by simp [sadSamples]
  | _ :: _, [] => by simp [sadSamples]
  | a :: as, b :: bs => by
    have := sadSamples_le as bs
    have ha := a.isLt
    have hb := b.isLt
    simp only [sadSamples, List.length_cons]
    omega

/-! ### Candidates -/

theorem mem_offsetRange {radius : Nat} {d : Int} :
    d ∈ offsetRange radius ↔ -radius ≤ d ∧ d ≤ radius := by
  simp only [offsetRange, List.mem_map, List.mem_range]
  constructor
  · rintro ⟨i, hi, rfl⟩; omega
  · intro h; exact ⟨(d + radius).toNat, by omega, by omega⟩

theorem mem_candidates {radius : Nat} {c : Int × Int} : c ∈ candidates radius ↔
    (-radius ≤ c.1 ∧ c.1 ≤ radius) ∧ -radius ≤ c.2 ∧ c.2 ≤ radius := by
  obtain ⟨dx, dy⟩ := c
  simp only [candidates, List.mem_cons, Prod.mk.injEq, List.mem_flatMap, mem_offsetRange,
    List.mem_filterMap]
  constructor
  · rintro (⟨rfl, rfl⟩ | ⟨y, hy, x, hx, h⟩)
    · omega
    · split at h
      · cases h
      · simp only [Option.some.injEq, Prod.mk.injEq] at h
        obtain ⟨rfl, rfl⟩ := h
        exact ⟨hx, hy⟩
  · rintro ⟨hx, hy⟩
    by_cases h : dx = 0 ∧ dy = 0
    · exact .inl h
    · exact .inr ⟨dy, hy, dx, hx, by simp [h]⟩

theorem offsetRange_sorted (radius : Nat) : (offsetRange radius).Pairwise (· < ·) := by
  rw [offsetRange, List.pairwise_map]
  exact List.pairwise_lt_range.imp fun h => by omega

/-- The candidates are listed with (0, 0) first, then by dy, and by dx within one dy. -/
theorem candidates_sorted (radius : Nat) : (candidates radius).Pairwise fun a b =>
    ¬ (b.1 = 0 ∧ b.2 = 0) ∧ ((a.1 = 0 ∧ a.2 = 0) ∨ a.2 < b.2 ∨ (a.2 = b.2 ∧ a.1 < b.1)) := by
  have hne : ∀ {dy dx : Int} {b : Int × Int},
      (if dx = 0 ∧ dy = 0 then none else some (dx, dy)) = some b →
        b = (dx, dy) ∧ ¬ (b.1 = 0 ∧ b.2 = 0) := by
    intro dy dx b h
    split at h
    · cases h
    · cases h; exact ⟨rfl, by assumption⟩
  rw [candidates, List.pairwise_cons]
  refine ⟨?_, ?_⟩
  · intro b hb
    simp only [List.mem_flatMap, List.mem_filterMap] at hb
    obtain ⟨dy, -, dx, -, h⟩ := hb
    exact ⟨(hne h).2, .inl ⟨rfl, rfl⟩⟩
  · rw [List.pairwise_flatMap]
    constructor
    · intro dy _
      rw [List.pairwise_filterMap]
      refine (offsetRange_sorted radius).imp ?_
      intro a b hab p hp q hq
      obtain ⟨rfl, -⟩ := hne hp
      obtain ⟨rfl, h⟩ := hne hq
      exact ⟨h, .inr (.inr ⟨rfl, hab⟩)⟩
    · refine (offsetRange_sorted radius).imp ?_
      intro a b hab p hp q hq
      simp only [List.mem_filterMap] at hp hq
      obtain ⟨x, -, hp⟩ := hp
      obtain ⟨x', -, hq⟩ := hq
      obtain ⟨rfl, -⟩ := hne hp
      obtain ⟨rfl, h⟩ := hne hq
      exact ⟨h, .inr (.inl hab)⟩

/-! ### The search -/

/-- What the search keeps over a list of evaluated candidates. -/
def bestOf : Option Found → List Found → Option Found
  | best, [] => best
  | best, f :: fs => bestOf (keepBetter best f) fs

/-- What the search keeps has the least sum, and is the first of those that have it. -/
theorem bestOf_spec : ∀ (fs : List Found) (b : Found), ∃ f, bestOf (some b) fs = some f
    ∧ ∃ before after, b :: fs = before ++ f :: after
      ∧ (∀ g ∈ before, f.sad < g.sad) ∧ ∀ g ∈ after, f.sad ≤ g.sad
  | [], b => ⟨b, rfl, [], [], rfl, by simp, by simp⟩
  | c :: fs, b => by
    by_cases h : c.sad < b.sad
    · obtain ⟨f, hf, before, after, e, h1, h2⟩ := bestOf_spec fs c
      refine ⟨f, by simp [bestOf, keepBetter, h, hf], b :: before, after, by simp [e], ?_, h2⟩
      intro g hg
      rcases List.mem_cons.mp hg with rfl | hg
      · have : f.sad ≤ c.sad := by
          cases before with
          | nil => cases e; exact Nat.le_refl _
          | cons z zs => cases e; exact Nat.le_of_lt (h1 _ (by simp))
        omega
      · exact h1 g hg
    · obtain ⟨f, hf, before, after, e, h1, h2⟩ := bestOf_spec fs b
      cases before with
      | nil =>
        cases e
        refine ⟨b, by simp [bestOf, keepBetter, h, hf], [], c :: fs, rfl, by simp, ?_⟩
        intro g hg
        rcases List.mem_cons.mp hg with rfl | hg
        · omega
        · exact h2 g hg
      | cons z zs =>
        cases e
        have hb := h1 b (by simp)
        refine ⟨f, by simpa [bestOf, keepBetter, h] using hf, b :: c :: zs, after, rfl, ?_, h2⟩
        intro g hg
        simp only [List.mem_cons] at hg
        rcases hg with rfl | rfl | hg
        · exact hb
        · omega
        · exact h1 g (by simp [hg])

/-- The evaluated candidate of an offset, by the bytes of memory. -/
def foundAt (s : State) (src : List Byte) (pr : PlaneDesc) (c : Int × Int) : Found :=
  { sad := sadSamples src ((List.range (16 * 16)).map fun i =>
      s.mem.read (pr.windowAddr (s.unit.x.toNat + c.1) (s.unit.y.toNat + c.2) 16 i).toNat)
    dx := c.1, dy := c.2 }

/-- The offset's window lies inside the reference plane. -/
def offsetFits (s : State) (pr : PlaneDesc) (c : Int × Int) : Bool :=
  pr.inBounds (s.unit.x.toNat + c.1) (s.unit.y.toNat + c.2) 16

/-- The search over readable windows: the best of the offsets that fit, in order. -/
theorem searchFrom_eq {s : State} {src : List Byte} {pr : PlaneDesc} :
    ∀ {l : List (Int × Int)} {n : Nat} {best : Option Found},
      (∀ c ∈ l, offsetFits s pr c = true → ∀ i < 16 * 16, s.Readable
        (pr.windowAddr (s.unit.x.toNat + c.1) (s.unit.y.toNat + c.2) 16 i)) →
      s.searchFrom src pr n l best
        = .ok (bestOf best ((l.filter (offsetFits s pr)).map (foundAt s src pr)))
  | [], n, best, _ => rfl
  | (dx, dy) :: l, n, best, h => by
    have hl := fun n best => searchFrom_eq (src := src) (n := n) (best := best)
      fun c hc => h c (List.mem_cons_of_mem _ hc)
    by_cases hf : offsetFits s pr (dx, dy) = true
    · have hr := readWindow_of_readable (t := .candidate n) (h (dx, dy) (by simp) hf)
      have hf' : pr.inBounds (s.unit.x.toNat + dx) (s.unit.y.toNat + dy) 16 = true := hf
      dsimp only at hr
      simp only [State.searchFrom, hf', if_true, hr, hl, List.filter_cons_of_pos hf, List.map_cons,
        bestOf, foundAt]
    · have hf' : ¬ pr.inBounds (s.unit.x.toNat + dx) (s.unit.y.toNat + dy) 16 = true := hf
      simp only [State.searchFrom, hf', hl, List.filter_cons_of_neg hf]
      simp

/-- No offset fits: the search finds nothing. -/
theorem searchFrom_of_none {s : State} {src : List Byte} {pr : PlaneDesc} :
    ∀ {l : List (Int × Int)} {n : Nat} {best : Option Found},
      (∀ c ∈ l, offsetFits s pr c = false) → s.searchFrom src pr n l best = .ok best
  | [], n, best, _ => rfl
  | (dx, dy) :: l, n, best, h => by
    have hf : pr.inBounds (s.unit.x.toNat + dx) (s.unit.y.toNat + dy) 16 = false := h (dx, dy) (by simp)
    simp only [State.searchFrom, hf]
    exact searchFrom_of_none fun c hc => h c (List.mem_cons_of_mem _ hc)

/-- A window that cannot be read stops the search, when those of the offsets before it can be. -/
theorem searchFrom_of_denied {s : State} {src : List Byte} {pr : PlaneDesc} {c : Int × Int} {k : Nat}
    {e : Stop} {after : List (Int × Int)} (hf : offsetFits s pr c = true) (hk : k < 16 * 16)
    (he : s.denies (pr.windowAddr (s.unit.x.toNat + c.1) (s.unit.y.toNat + c.2) 16 k) = some e)
    (hp : ∀ i < k, s.Plain (pr.windowAddr (s.unit.x.toNat + c.1) (s.unit.y.toNat + c.2) 16 i)) :
    ∀ {before : List (Int × Int)} {n : Nat} {best : Option Found},
      (∀ b ∈ before, offsetFits s pr b = true → ∀ i < 16 * 16, s.Plain
        (pr.windowAddr (s.unit.x.toNat + b.1) (s.unit.y.toNat + b.2) 16 i)) →
      s.searchFrom src pr n (before ++ c :: after) best = .error e
  | [], n, best, _ => by
    have hf' : pr.inBounds (s.unit.x.toNat + c.1) (s.unit.y.toNat + c.2) 16 = true := hf
    simp only [List.nil_append, State.searchFrom, hf', if_true,
      readWindow_of_denied (t := .candidate n) hk he hp]
  | (dx, dy) :: before, n, best, h => by
    have hl := fun n best => searchFrom_of_denied (src := src) (after := after) hf hk he hp (n := n)
      (best := best) fun b hb => h b (List.mem_cons_of_mem _ hb)
    by_cases hb : offsetFits s pr (dx, dy) = true
    · have hb' : pr.inBounds (s.unit.x.toNat + dx) (s.unit.y.toNat + dy) 16 = true := hb
      obtain ⟨bytes, hr⟩ := readWindow_of_plain (t := .candidate n) (h (dx, dy) (by simp) hb)
      dsimp only at hr
      simp only [List.cons_append, State.searchFrom, hb', if_true, hr, hl]
    · have hb' : ¬ pr.inBounds (s.unit.x.toNat + dx) (s.unit.y.toNat + dy) 16 = true := hb
      simp only [List.cons_append, State.searchFrom, hb', hl]
      simp

end Sys2Proof.Machine
end

