-- ==== Sys2Proof/Laws/Step.lean ====
section
/-! SUPPORT. The fetch, what a unit's step can answer, and what the events of the outside world do. -/

namespace Sys2Proof.Machine

/-! ### The fetch -/

/-- The four readable bytes at pc, little-endian, are the word fetched. -/
theorem fetch_of_readable {s : State}
    (h : ∀ k < 4, s.Readable (s.unit.pc + BitVec.ofNat 32 k)) :
    s.fetch = .ok (s.mem.read (s.unit.pc + 3).toNat ++ s.mem.read (s.unit.pc + 2).toNat
      ++ s.mem.read (s.unit.pc + 1).toNat ++ s.mem.read s.unit.pc.toNat) := by
  unfold State.fetch
  rw [readBytes_of_readable]
  · simp [List.range_succ, leWord]
  · intro x hx
    simp only [List.mem_map, List.mem_range] at hx
    obtain ⟨k, hk, rfl⟩ := hx
    exact h k hk

/-- A fetch stops only where one of the four bytes is denied. -/
theorem fetch_error {s : State} {e : Stop} (h : s.fetch = .error e) : ∃ a, s.denies a = some e := by
  unfold State.fetch at h
  split at h
  · rename_i e' he
    cases h
    obtain ⟨x, -, hx⟩ := readBytes_error he
    exact ⟨x.2, hx⟩
  · cases h

/-- The first denied byte of a fetch stops it. -/
theorem fetch_of_denied {s : State} {k : Nat} {e : Stop} (hk : k < 4)
    (h : s.denies (s.unit.pc + BitVec.ofNat 32 k) = some e)
    (hp : ∀ j < k, s.Plain (s.unit.pc + BitVec.ofNat 32 j)) : s.fetch = .error e := by
  have hl : (List.range 4).map (fun i => (Access.fetch i, s.unit.pc + BitVec.ofNat 32 i))
      = (List.range k).map (fun i => (Access.fetch i, s.unit.pc + BitVec.ofNat 32 i))
        ++ (Access.fetch k, s.unit.pc + BitVec.ofNat 32 k)
          :: ((List.range (3 - k)).map fun i => k + 1 + i).map
              (fun i => (Access.fetch i, s.unit.pc + BitVec.ofNat 32 i)) := by
    interval_cases k <;> simp [List.range_succ]
  have := readBytes_of_denied (l := (List.range k).map
    (fun i => (Access.fetch i, s.unit.pc + BitVec.ofNat 32 i))) (t := .fetch k)
    (l' := ((List.range (3 - k)).map fun i => k + 1 + i).map
              (fun i => (Access.fetch i, s.unit.pc + BitVec.ofNat 32 i)))
    (fun x hx => by
      simp only [List.mem_map, List.mem_range] at hx
      obtain ⟨j, hj, rfl⟩ := hx
      exact hp j hj) h
  unfold State.fetch
  rw [hl, this]

/-- With no event pending the machine's step is the selected unit's. -/
theorem step_of_no_event {s : State} (h : s.agenda = []) : step s = s.unitStep := by
  simp [step, State.advanceMachine, h]

theorem unitStep_of_fetch {s : State} {w : Word} (hb : s.unit.busy = true) (h : s.fetch = .ok w) :
    s.unitStep = s.runWord w := by
  simp [State.unitStep, hb, h]

theorem unitStep_of_fetch_error {s : State} {e : Stop} (hb : s.unit.busy = true)
    (h : s.fetch = .error e) : s.unitStep = s.endCommand (.error e) := by
  simp [State.unitStep, hb, h]

/-- Everything a unit's step can answer as a next state: nothing changes (the unit is idle), a fault is
taken before any effect, or a command runs. -/
theorem unitStep_next {s t : State} (h : s.unitStep = .next t) :
    (s.unit.busy = false ∧ t = s)
      ∨ (s.unit.busy = true ∧ ∃ code info, code ≠ .none
        ∧ t = { s with unit := s.unit.enterFault code info, draws := s.draws + 1 })
      ∨ (s.unit.busy = true ∧ ∃ i, exec i s = .next t) := by
  by_cases hb : s.unit.busy = true
  · right
    cases hf : s.fetch with
    | error e =>
      rw [unitStep_of_fetch_error hb hf] at h
      obtain ⟨u, h', -⟩ | ⟨code, info, h', rfl⟩ := endCommand_next h
      · cases h'
      · cases h'
        obtain ⟨a, ha⟩ := fetch_error hf
        exact .inl ⟨hb, code, info, ne_none_of_mayStop (.inr ⟨a, ha⟩), rfl⟩
    | ok w =>
      rw [unitStep_of_fetch hb hf, State.runWord] at h
      split at h
      · exact .inl ⟨hb, .illegalOp, w, by decide, by simpa using h.symm⟩
      · exact .inr ⟨hb, _, h⟩
  · simp only [Bool.not_eq_true] at hb
    exact .inl ⟨hb, by simpa [State.unitStep, hb] using h.symm⟩

/-! ### Host accesses -/

/-- Everything a host access can answer as a next state: the action, on the unit whose block holds the
address, selected. -/
theorem hostAccess_next {s t : State} {addr size : Nat} {act : State → MmioReg → State}
    (h : s.hostAccess addr size act = .next t) :
    ∃ u off v, unitAtHostAddr addr 0 s.plat.mmioBase = some (u, off) ∧ s.select u = some v
      ∧ t = act v (mmioReg off) := by
  unfold State.hostAccess at h
  split at h
  · split at h
    · cases h
    · rename_i u off hu
      split at h
      · cases h
      · rename_i v hv
        exact ⟨u, off, v, hu, hv, by simpa using h.symm⟩
  · cases h

/-- Everything a host read can answer: the unit is selected and the word read is kept; only the list of
races may change beside. -/
theorem hostRead_next {s t : State} {addr size : Nat} (h : s.hostRead addr size = .next t) :
    ∃ u off v r, unitAtHostAddr addr 0 s.plat.mmioBase = some (u, off) ∧ s.select u = some v
      ∧ t = { v with hostData := v.unit.mmioRead v.nUnits v.self (mmioReg off), races := r } := by
  obtain ⟨u, off, v, hu, hv, rfl⟩ := hostAccess_next h
  dsimp only
  split
  · exact ⟨u, off, v, _, hu, hv, rfl⟩
  · exact ⟨u, off, v, _, hu, hv, rfl⟩

/-- Everything a host write can answer: the unit is selected and its register written. -/
theorem hostWrite_next {s t : State} {addr size : Nat} {w : Word}
    (h : s.hostWrite addr size w = .next t) :
    ∃ u off v, unitAtHostAddr addr 0 s.plat.mmioBase = some (u, off) ∧ s.select u = some v
      ∧ t = v.afterHostWrite (v.unit.mmioWrite w (mmioReg off)) :=
  hostAccess_next h

/-- A host write replaces the selected unit, and orders writes before a run that it starts. -/
theorem afterHostWrite_eq (s : State) (u : UnitState) :
    ∃ r, s.afterHostWrite u = { s with unit := u, races := r } := by
  unfold State.afterHostWrite
  split
  · exact ⟨_, rfl⟩
  · exact ⟨_, rfl⟩

/-- A byte write by the host changes memory and the list of races, and takes a draw. -/
theorem hostMemWrite_eq (s : State) (a : Word) (v : Byte) : ∃ m r,
    s.hostMemWrite a v = { s with mem := m, races := r, draws := s.draws + 1 }
      ∧ (m = s.mem.write a.toNat v ∨ s.contested .host a.toNat = true ∧ m = s.mem) := by
  unfold State.hostMemWrite
  obtain ⟨r, h⟩ | ⟨hc, r, h⟩ := writeAs_cases s .host (.store 0) a v <;> rw [h]
  · exact ⟨_, r, rfl, .inl rfl⟩
  · exact ⟨_, r, rfl, .inr ⟨hc, rfl⟩⟩

/-- Looking at an interrupt line changes the host's data and the list of races. -/
theorem hostLineRead_eq (s : State) (line : Nat) : ∃ r,
    s.hostLineRead line = { s with hostData := if s.hostLine line then 1 else 0, races := r } := by
  have key : ∀ (l : List Nat) (s : State), ∃ r, l.foldl State.seeEnd s = { s with races := r } := by
    intro l
    induction l with
    | nil => exact fun s => ⟨s.races, rfl⟩
    | cons u l ih =>
      intro s
      obtain ⟨r, h⟩ := ih (s.seeEnd u)
      exact ⟨r, h⟩
  obtain ⟨r, h⟩ := key (s.drivers line) s
  exact ⟨r, by rw [State.hostLineRead, h]⟩

/-! ### Races: what starts and ends of runs order -/

/-- Taking off writes that every agent sees changes what no agent may read. -/
theorem takeWhile_pruneRaces {p : RaceWrite → Bool} (hp : ∀ e : RaceWrite, e.settled = true → p e = false)
    (a : Nat) : ∀ l : List RaceWrite,
    ((pruneRaces l).filter (·.addr == a)).takeWhile p = (l.filter (·.addr == a)).takeWhile p
  | [] => rfl
  | e :: es => by
    unfold pruneRaces
    split
    · rename_i h
      by_cases ha : e.addr = a
      · have : ((pruneRaces es).filter (·.addr != e.addr)).filter (·.addr == a) = [] := by
          rw [List.filter_filter, List.filter_eq_nil_iff]
          intro x _
          simp [ha]
        rw [this, List.filter_cons, if_pos (by simpa using ha), List.takeWhile_cons, hp e h]
        rfl
      · have : ((pruneRaces es).filter (·.addr != e.addr)).filter (·.addr == a)
            = (pruneRaces es).filter (·.addr == a) := by
          rw [List.filter_filter]
          refine List.filter_congr fun x _ => ?_
          by_cases hx : x.addr = a
          · simp [hx, Ne.symm ha]
          · simp [hx]
        rw [this, takeWhile_pruneRaces hp a es, List.filter_cons, if_neg (by simpa using ha)]
    · by_cases ha : e.addr = a
      · rw [List.filter_cons, if_pos (by simpa using ha), List.filter_cons, if_pos (by simpa using ha),
          List.takeWhile_cons, List.takeWhile_cons, takeWhile_pruneRaces hp a es]
      · rw [List.filter_cons, if_neg (by simpa using ha), List.filter_cons,
          if_neg (by simpa using ha), takeWhile_pruneRaces hp a es]

/-- A write that every agent sees is hidden from none. -/
theorem hides_of_settled (s : State) (r : Agent) (e : RaceWrite) (h : e.settled = true) :
    s.hides r e = false := by
  simp only [RaceWrite.settled, Bool.and_eq_true, Bool.or_eq_true, List.isEmpty_iff,
    beq_iff_eq] at h
  obtain ⟨hh, hw⟩ := h
  cases r with
  | unit u => simp [State.hides, hh]
  | host =>
    cases hwr : e.writer
    · simp [State.hides, State.ongoing, hwr]
    · rcases hw with (hw | hw) | hw
      · rw [hwr] at hw; cases hw
      · simp [State.hides, State.ongoing, hwr, hw]
      · simp [State.hides, State.ongoing, hwr, hw]

theorem filter_map_addr {f : RaceWrite → RaceWrite} (hf : ∀ e, (f e).addr = e.addr) (a : Nat)
    (l : List RaceWrite) : (l.map f).filter (·.addr == a) = (l.filter (·.addr == a)).map f := by
  rw [List.filter_map]
  refine congrArg _ (List.filter_congr fun e _ => ?_)
  simp [hf]

/-- What an agent may read once every listed write is changed by `f` and the settled ones are taken off. -/
theorem staleFor_of_races {s t : State} {f : RaceWrite → RaceWrite}
    (hr : t.races = pruneRaces (s.races.map f)) (hf : ∀ e, (f e).addr = e.addr) (r : Agent) (a : Nat) :
    t.staleFor r a = (((s.racesAt a).map f).takeWhile (t.hides r)).map (·.under) := by
  unfold State.staleFor State.racesAt
  rw [hr, takeWhile_pruneRaces (hides_of_settled t r), filter_map_addr hf]

/-- Where the newest write of a byte is the host's, or one of a run whose end the host has seen, a unit whose
run starts sees it (20_memory.md R81, R83). -/
theorem settled_settleAtStart {s : State} {a : Word}
    (h : ∀ e es, s.racesAt a.toNat = e :: es → e.writer = .host ∨ e.seen = true) :
    s.settleAtStart.Settled a := by
  unfold State.Settled State.staleAt
  rw [staleFor_of_races (s := s) (f := RaceWrite.atStart s.self) rfl fun _ => rfl]
  generalize s.racesAt a.toNat = l at h
  cases l with
  | nil => rfl
  | cons e es =>
    have he := h e es rfl
    have : s.settleAtStart.hides (.unit s.settleAtStart.self) (RaceWrite.atStart s.self e) = false := by
      simp only [State.hides, RaceWrite.atStart, State.settleAtStart, he, if_true]
      simp
    rw [List.map_cons, List.takeWhile_cons, this]
    rfl

/-- A host write that no running unit contests stays, and it is the newest write of its byte. -/
theorem hostMemWrite_of_uncontested {s : State} {a : Word} {v : Byte}
    (h : s.contested .host a.toNat = false) :
    (s.hostMemWrite a v).mem = s.mem.write a.toNat v
      ∧ ∃ es, (s.hostMemWrite a v).racesAt a.toNat
          = s.newWrite .host a.toNat (s.mem.read a.toNat) :: es := by
  have hk : s.keepsOther .host (.store 0) a = false := by simp [State.keepsOther, h]
  refine ⟨by simp [State.hostMemWrite, State.writeAs, hk], s.racesAt a.toNat, ?_⟩
  simp [State.hostMemWrite, State.writeAs, hk, State.racesAt, State.newWrite]

/-! ### Every memory operation keeps the canonical form -/

/-- Writing consecutive bytes keeps the canonical form. -/
theorem Memory.wf_writeBytes : ∀ (bytes : List Byte) {m : Memory} (a : Word), m.wf = true →
    (m.writeBytes a bytes).wf = true
  | [], _, _, h => h
  | b :: bytes, _, a, h => wf_writeBytes bytes (a + 1) (Memory.wf_write h a.isLt b)

/-- A byte written by a command keeps the canonical form. -/
theorem wf_storeByte {s : State} (h : s.mem.wf = true) (left : Nat) (a : Word) (v : Byte) :
    (s.storeByte left a v).mem.wf = true := by
  obtain ⟨m, r, h', rfl | rfl⟩ := storeByte_eq s left a v <;> rw [h']
  · exact Memory.wf_write h a.isLt v
  · exact h

/-- A byte written by the host keeps the canonical form. -/
theorem wf_hostMemWrite {s : State} (h : s.mem.wf = true) (a : Word) (v : Byte) :
    (s.hostMemWrite a v).mem.wf = true := by
  obtain ⟨m, r, h', rfl | ⟨-, rfl⟩⟩ := hostMemWrite_eq s a v <;> rw [h']
  · exact Memory.wf_write h a.isLt v
  · exact h

/-- Placing a word for the next fetch keeps the canonical form. -/
theorem wf_placeWord {s : State} (h : s.mem.wf = true) (w : Word) :
    (s.placeWord w).mem.wf = true := Memory.wf_writeBytes (leBytes w) s.unit.pc h

/-- The memory of the reset state has the canonical form. -/
theorem wf_reset : State.reset.mem.wf = true := rfl

end Sys2Proof.Machine
end

