-- ==== Sys2Proof/Tests/Slice0.lean ====
section
/-! SUPPORT. The model's own tests: ill-formed terms refused, words written out field by field from the
encoding tables of 30_encoding.md, one or two vectors per command from 95_test_vectors.md (their numbers
stand in the comments), and for every obligation with hypotheses states that meet them. -/

namespace Sys2Proof.Tests

open Sys2Proof.Machine

-- One theorem at a time: each evaluation in its own thread would fill the sandbox's memory.
set_option Elab.async false

/-! ### WellFormed -/

/-- 6.9: H = 1 with M = 0 is no legal encoding. -/
theorem test_wellFormed_refuses : (Instr.ldpx 0 0 false true).wellFormed = false := by decide

theorem test_wellFormed_admits :
    (Instr.ldpx 7 3 true true).WellFormed ∧ (Instr.ldpx 7 3 true false).WellFormed
      ∧ (Instr.ldpx 7 3 false false).WellFormed ∧ (Instr.qgen 3 127).WellFormed := by decide

/-! ### Words written out from the encoding tables (R102 to R105) -/

/-- Format N: OP, 24 zeros. -/
theorem test_decode_formatN :
    decodeWord (0x00#8 ++ 0#24) = .ok .nop ∧ decodeWord (0x01#8 ++ 0#24) = .ok .halt
      ∧ decodeWord (0x32#8 ++ 0#24) = .ok .encmv ∧ decodeWord (0x33#8 ++ 0#24) = .ok .decmv := by
  decide +kernel

/-- Format J: OP, off24. -/
theorem test_decode_formatJ :
    decodeWord (0x02#8 ++ 0b000000000000000000000011#24) = .ok (.jmp 3)
      ∧ decodeWord (0x03#8 ++ 0b111111111111111111111111#24) = .ok (.bz (-1))
      ∧ decodeWord (0x04#8 ++ 0b100000000000000000000000#24) = .ok (.bnz 0x800000) := by
  decide +kernel

/-- Formats L (OP, 7 zeros, n, imm16) and D (OP, n, off23). -/
theorem test_decode_formatLD :
    decodeWord (0x05#8 ++ 0#7 ++ 0b1#1 ++ 0b0000000000000100#16) = .ok (.setlc .lc1 4)
      ∧ decodeWord (0x06#8 ++ 0b1#1 ++ 0b11111111111111111111100#23)
        = .ok (.djnz .lc1 (-4)) := by
  decide +kernel

/-- Formats I (OP, 8 zeros, imm16) and V (OP, dx12, dy12). -/
theorem test_decode_formatIM :
    decodeWord (0x08#8 ++ 0#8 ++ 0b0000000000010000#16) = .ok (.setx 16)
      ∧ decodeWord (0x09#8 ++ 0#8 ++ 0b0000000000001000#16) = .ok (.sety 8)
      ∧ decodeWord (0x0A#8 ++ 0#8 ++ 0b1111111111111000#16) = .ok (.addx 0xFFF8)
      ∧ decodeWord (0x0B#8 ++ 0#8 ++ 0b0000000011110000#16) = .ok (.addy 240)
      ∧ decodeWord (0x0C#8 ++ 0b000000000001#12 ++ 0b111111111111#12) = .ok (.setmv 1 (-1)) := by
  decide +kernel

/-- Format B, sample movement: OP, d, a, b, then aux with p in 14:13, M in 12, H in 11. -/
theorem test_decode_movement :
    decodeWord (0x10#8 ++ 0b010#3 ++ 0#3 ++ 0#3 ++ 0b01#2 ++ 0b1#1 ++ 0b1#1 ++ 0#11)
        = .ok (.ldpx 2 1 true true)
      ∧ decodeWord (0x10#8 ++ 0b101#3 ++ 0#3 ++ 0#3 ++ 0b10#2 ++ 0b1#1 ++ 0b0#1 ++ 0#11)
        = .ok (.ldpx 5 2 true false)
      ∧ decodeWord (0x11#8 ++ 0#3 ++ 0b011#3 ++ 0#3 ++ 0b10#2 ++ 0#13) = .ok (.stpx 3 2)
      ∧ decodeWord (0x12#8 ++ 0b001#3 ++ 0b100#3 ++ 0#3 ++ 0#15) = .ok (.mov 1 4)
      ∧ decodeWord (0x13#8 ++ 0b111#3 ++ 0#3 ++ 0#3 ++ 0#15) = .ok (.clr 7) := by
  decide +kernel

/-- Format B, residual arithmetic: OP, d, a, b, 15 zeros. -/
theorem test_decode_residual :
    decodeWord (0x18#8 ++ 0b010#3 ++ 0b000#3 ++ 0b001#3 ++ 0#15) = .ok (.sub 2 0 1)
      ∧ decodeWord (0x19#8 ++ 0b011#3 ++ 0b010#3 ++ 0b110#3 ++ 0#15) = .ok (.addc 3 2 6)
      ∧ decodeWord (0x1A#8 ++ 0#3 ++ 0b101#3 ++ 0b001#3 ++ 0#15) = .ok (.sad 5 1) := by
  decide +kernel

/-- Format B, transform and quantizer: aux with C in 12, t in 14:13, q in 6:0. -/
theorem test_decode_transform :
    decodeWord (0x20#8 ++ 0b001#3 ++ 0b110#3 ++ 0#3 ++ 0#15) = .ok (.fdct 1 6)
      ∧ decodeWord (0x21#8 ++ 0b001#3 ++ 0b110#3 ++ 0#3 ++ 0#2 ++ 0b1#1 ++ 0#12)
        = .ok (.idct 1 6 true)
      ∧ decodeWord (0x28#8 ++ 0b010#3 ++ 0b001#3 ++ 0#3 ++ 0b11#2 ++ 0#13) = .ok (.quant 2 1 3)
      ∧ decodeWord (0x29#8 ++ 0b011#3 ++ 0b010#3 ++ 0#3 ++ 0b01#2 ++ 0#13) = .ok (.dequant 3 2 1)
      ∧ decodeWord (0x2A#8 ++ 0#9 ++ 0b01#2 ++ 0#6 ++ 0b0110010#7) = .ok (.qgen 1 50) := by
  decide +kernel

/-- Format B, entropy coder and search: aux with ps in 14:13, pr in 12:11, R in 5:0. -/
theorem test_decode_entropy_search :
    decodeWord (0x30#8 ++ 0#3 ++ 0b010#3 ++ 0#3 ++ 0#15) = .ok (.encb 2)
      ∧ decodeWord (0x31#8 ++ 0b110#3 ++ 0#3 ++ 0#3 ++ 0#15) = .ok (.decb 6)
      ∧ decodeWord (0x38#8 ++ 0#9 ++ 0b10#2 ++ 0b01#2 ++ 0#5 ++ 0b000100#6)
        = .ok (.msrch 2 1 4) := by
  decide +kernel

/-- 2.24, 8.1, 4.1, 6.9: why a word is no command. -/
theorem test_decode_refuses :
    decodeWord 0x05020000 = .error .reservedBitSet ∧ decodeWord 0x07000000 = .error .unassignedOpcode
      ∧ decodeWord 0x2A0000FF = .error .reservedBitSet
      ∧ decodeWord 0x10000800 = .error .halveWithoutOffset := by
  decide +kernel

/-- Four bytes are consumed, the first being the lowest (R100, 20 R74). -/
theorem test_decode_bytes :
    decode [0x03, 0x00, 0x00, 0x02, 0xAA] = .ok (.jmp 3, [0xAA])
      ∧ decode [0x03, 0x00, 0x00] = .error .truncated := by
  decide +kernel

theorem test_decodeTableWord : decodeTableWord 32 0x02000003 = some (.jmp 3)
    ∧ decodeTableWord 32 0x07000000 = none := by decide +kernel

/-! ### States -/

/-- A running unit with every block register valid and zero. -/
def unit : UnitState := { UnitState.reset with busy := true, bvalid := tabulate fun _ => true }

/-- The reset machine with the given unit. -/
def on (u : UnitState) : State := { State.reset with unit := u }

/-- A block whose elements are all `v`. -/
def solid (v : Int) : Block := tabulate fun _ => half16 v

/-- A block of zeros but for the element at a raster index. -/
def single (i : Nat) (v : Int) : Block := tabulate fun j => if j.val = i then half16 v else 0

/-- The machine with the blocks in B0, B1 and so on, all of them valid. -/
def blocksOn (l : List Block) : State := on { unit with blocks := tabulate fun n => l.getD n.val (solid 0) }

/-- The step or command goes on, to a state with the property. -/
def goes (r : Result) (p : State → Bool) : Bool :=
  match r with
  | .next t => p t
  | _ => false

/-- It goes on with a fault of the given code and information. -/
def faults (r : Result) (code : FaultCode) (info : Word) : Bool :=
  goes r fun t => t.unit.fault && !t.unit.busy && t.unit.fcode == code && t.unit.faultInfo == info

/-- The step or command is refused for this reason. -/
def refuses (r : Result) (why : Refusal) : Bool :=
  match r with
  | .refused w => w == why
  | _ => false

/-- All elements of the block are `v`. -/
def isSolid (b : Block) (v : Int) : Bool := b.toList.all (·.toInt == v)

/-! ### Control commands -/

/-- 2.1, 2.26. -/
theorem test_nop : goes (exec .nop (on { unit with pc := 0x100 })) (fun t =>
      t.unit.pc == 0x104 && t.unit.cmdcnt == 1 && t.unit.busy)
    ∧ goes (step ((on { unit with sstep := true }).withFetchWord 32 0)) (fun t =>
      t.unit.pc == 4 && !t.unit.busy && t.unit.done && t.unit.cmdcnt == 1) := by decide +kernel

/-- 2.2. -/
theorem test_halt : goes (exec .halt (on { unit with pc := 0x20 })) (fun t =>
    t.unit.pc == 0x24 && !t.unit.busy && t.unit.done && t.unit.cmdcnt == 1) := by decide +kernel

/-- 2.4, 2.5. -/
theorem test_jmp : goes (exec (.jmp (-1)) (on { unit with pc := 0x40 })) (fun t => t.unit.pc == 0x40)
    ∧ goes (exec (.jmp 0x800000) (on { unit with pc := 0x40 }))
      (fun t => t.unit.pc == 0xFE000044) := by decide +kernel

/-- 2.6, 2.7. -/
theorem test_bz : goes (exec (.bz 1) (on { unit with pc := 0x40, z := true }))
      (fun t => t.unit.pc == 0x48)
    ∧ goes (exec (.bz 1) (on { unit with pc := 0x40 })) (fun t => t.unit.pc == 0x44) := by
  decide +kernel

/-- 2.8, 2.9. -/
theorem test_bnz : goes (exec (.bnz 1) (on { unit with pc := 0x40, z := true }))
      (fun t => t.unit.pc == 0x44)
    ∧ goes (exec (.bnz 1) (on { unit with pc := 0x40 })) (fun t => t.unit.pc == 0x48) := by
  decide +kernel

/-- 2.10. -/
theorem test_setlc : goes (exec (.setlc .lc1 4) (on unit))
    (fun t => t.unit.lc1 == 4 && t.unit.lc0 == 0) := by decide +kernel

/-- 2.12, 2.13. -/
theorem test_djnz : goes (exec (.djnz .lc0 (-4)) (on { unit with lc0 := 1, pc := 0x30 }))
      (fun t => t.unit.lc0 == 0 && t.unit.pc == 0x34)
    ∧ goes (exec (.djnz .lc0 (-4)) (on { unit with pc := 0x30 }))
      (fun t => t.unit.lc0 == 65535 && t.unit.pc == 0x24) := by decide +kernel

/-- 2.15, 2.16. -/
theorem test_setx_sety : goes (exec (.setx 16) (on unit)) (fun t => t.unit.x == 16 && t.unit.y == 0)
    ∧ goes (exec (.sety 8) (on unit)) (fun t => t.unit.y == 8 && t.unit.x == 0) := by
  decide +kernel

/-- 2.19, 2.20. -/
theorem test_addx_addy : goes (exec (.addx 8) (on { unit with x := 0xFFF8 })) (fun t => t.unit.x == 0)
    ∧ goes (exec (.addy 240) (on unit)) (fun t => t.unit.y == 240) := by decide +kernel

/-- 2.22. -/
theorem test_setmv : goes (exec (.setmv 2047 0x800) (on unit))
    (fun t => t.unit.dx.toInt == 2047 && t.unit.dy.toInt == -2048) := by decide +kernel

/-! ### Sample movement -/

/-- A plane at 0x1000 of 32 by 32 samples in PD0, and one at 0x2000 of 16 by 16 in PD2. -/
def planed (x y : Half) : UnitState :=
  { unit with
    x := x, y := y
    pd := #v[⟨0x1000, 32, 32, 32⟩, ⟨0x4FF8, 8, 8, 8⟩, ⟨0x2000, 16, 16, 16⟩, ⟨0, 0, 0, 0⟩] }

/-- 6.1: the first sample of the window at (8, 8) is at 0x1108, the last at 0x11EF. -/
theorem test_ldpx : goes (exec (.ldpx 0 0 false false)
      { on (planed 8 8) with mem := [(0x1108, 7), (0x11EF, 255)] })
    (fun t => elem t.unit.blocks[0] 0 == 7 && elem t.unit.blocks[0] 63 == 255
      && elem t.unit.blocks[0] 1 == 0) := by decide +kernel

/-- 6.4 and 6.7: the halved offset rounds toward zero; a window above the plane. -/
theorem test_ldpx_offset :
    ({ planed 8 8 with dx := -3, dy := 3 }).loadPosition true true = (7, 9)
      ∧ faults (exec (.ldpx 0 0 true false) (on { planed 8 0 with dy := -1 })) .pixBounds
        0xFFFF0008 := by decide +kernel

/-- 6.10. -/
theorem test_stpx : goes (exec (.stpx 0 2) { blocksOn [(single 1 300).set 0 (half16 (-5))] with
      unit := { planed 8 0 with blocks := tabulate fun _ => (single 1 300).set 0 (half16 (-5)) } })
    (fun t => t.mem == [(0x2009, 255)] && t.unit.pc == 4) := by decide +kernel

/-- 6.12: row 0 is written, the first byte of row 1 is a hole. -/
theorem test_stpx_busError : goes (exec (.stpx 0 1)
      { on { planed 0 0 with blocks := tabulate fun _ => solid 9 } with
        plat := { platformAtReset with regions := [⟨0x5000, 0x1000, .hole⟩] } })
    (fun t => t.unit.fcode == .busError && t.unit.faultInfo == 0x5000
      && t.mem == (List.range 8).map fun i => (0x4FF8 + i, 9)) := by decide +kernel

/-- 6.13. -/
theorem test_mov : goes (exec (.mov 1 0) (blocksOn [solid 5]))
    (fun t => isSolid t.unit.blocks[1] 5 && t.unit.bvalid[1]) := by decide +kernel

/-- 6.14. -/
theorem test_clr : goes (exec (.clr 7) (blocksOn [solid 5]))
    (fun t => isSolid t.unit.blocks[7] 0 && t.unit.bvalid[7]) := by decide +kernel

/-! ### Residual arithmetic and search -/

/-- 7.1.5, and source a checked before b. -/
theorem test_sub : goes (exec (.sub 2 0 1) (blocksOn [solid 32767, solid (-32768)]))
      (fun t => isSolid t.unit.blocks[2] 32767)
    ∧ faults (exec (.sub 2 0 1) State.reset) .uninitBlock 0 := by decide +kernel

/-- 7.1.1, 7.1.4. -/
theorem test_addc : goes (exec (.addc 3 0 1) (blocksOn [solid 130, solid 128]))
      (fun t => isSolid t.unit.blocks[3] 255)
    ∧ goes (exec (.addc 3 0 1) (blocksOn [solid (-3), solid 1]))
      (fun t => isSolid t.unit.blocks[3] 0) := by decide +kernel

/-- 7.1.5, 7.1.7. -/
theorem test_sad : goes (exec (.sad 0 1) (blocksOn [solid 32767, solid (-32768)]))
      (fun t => t.unit.acc == 4194240 && !t.unit.z)
    ∧ goes (exec (.sad 0 1) (blocksOn [solid 32767, solid 32767]))
      (fun t => t.unit.acc == 0 && t.unit.z) := by decide +kernel

/-- 7.3.8: no candidate in bounds. -/
theorem test_msrch_none : faults (exec (.msrch 0 1 4) (on (planed 0 0))) .pixBounds 0 := by
  decide +kernel

/-- 7.3.2 in small: every candidate of a uniform plane has SAD 0, the first wins. -/
theorem test_msrch_tie : goes (exec (.msrch 0 0 1) (on (planed 8 8)))
    (fun t => t.unit.dx == 0 && t.unit.dy == 0 && t.unit.acc == 0 && t.unit.z) := by
  decide +kernel

/-! ### Transform -/

/-- 3.1.4, 3.1.5. -/
theorem test_fdct : goes (exec (.fdct 1 0) (blocksOn [solid (-255)]))
      (fun t => t.unit.blocks[1] == single 0 (-2039))
    ∧ goes (exec (.fdct 1 0) (blocksOn [solid 32767]))
      (fun t => t.unit.blocks[1] == single 0 32767) := by decide +kernel

/-- 3.2.3, 3.2.5. -/
theorem test_idct : goes (exec (.idct 1 0 true) (blocksOn [single 0 (-8)]))
      (fun t => isSolid t.unit.blocks[1] 0)
    ∧ goes (exec (.idct 1 0 false) (blocksOn [single 0 (-32768)]))
      (fun t => isSolid t.unit.blocks[1] (-4095)) := by decide +kernel

/-! ### Quantizer -/

/-- 4.2: a tie goes away from zero, and the factor of raster index 8 is entry 2. -/
theorem test_quant : goes (exec (.quant 1 0 0)
      (on { unit with blocks := tabulate fun _ => single 0 (-5)
                      qt := tabulate fun _ => tabulate fun _ => 2 }))
      (fun t => t.unit.blocks[1] == single 0 (-3) && !t.unit.z)
    ∧ goes (exec (.quant 1 0 0)
      (on { unit with blocks := tabulate fun _ => single 8 100, qt := tabulate fun _ => qgen 50 }))
      (fun t => t.unit.blocks[1] == single 8 6) := by decide +kernel

/-- 4.2: saturation both ways. -/
theorem test_dequant : goes (exec (.dequant 1 0 0)
      (on { unit with blocks := tabulate fun _ => single 0 300
                      qt := tabulate fun _ => tabulate fun _ => 200 }))
      (fun t => t.unit.blocks[1] == single 0 32767)
    ∧ goes (exec (.dequant 1 0 0)
      (on { unit with blocks := tabulate fun _ => single 0 (-32768)
                      qt := tabulate fun _ => tabulate fun _ => 65535 }))
      (fun t => t.unit.blocks[1] == single 0 (-32768)) := by decide +kernel

/-- 4.1: the table of quality 81, and 8.3. -/
theorem test_qgen : goes (exec (.qgen 0 81) (on unit))
      (fun t => (t.unit.qt[0].toList.take 8).map (·.toNat) == [6, 6, 7, 7, 8, 8, 8, 9]
        && t.unit.qt[0][63] == 30)
    ∧ faults (exec (.qgen 0 101) (on unit)) .badParam 0x2A000065 := by decide +kernel

/-! ### Entropy coder -/

/-- The window from 0x100 to 0x100 + n, with the given cells. -/
def window (n : Nat) (m : Memory) : State :=
  { on { unit with bsp := 0x100, bse := 0x100 + BitVec.ofNat 32 n } with mem := m }

/-- 5.1. -/
theorem test_codes : ue 7 = [false, false, false, true, false, false, false]
    ∧ se (-4) = [false, false, false, true, false, false, true] ∧ se 0 = [true] := by
  decide +kernel

/-- 5.2.8 and the overflow of 5.2. -/
theorem test_encb : goes (exec (.encb 0)
      { window 5 [] with unit := { (window 5 []).unit with blocks := tabulate fun _ => single 0 32767 } })
      (fun t => t.mem == [(0x100, 0x40), (0x102, 0x7F), (0x103, 0xFF), (0x104, 0x40)]
        && t.unit.bsp == 0x105 && t.unit.acc == 5 && !t.unit.z)
    ∧ faults (exec (.encb 0)
      { window 3 [] with unit := { (window 3 []).unit with blocks := tabulate fun _ => single 0 1024 } })
      .bsOverflow 4 := by decide +kernel

/-- 5.3.3, 5.3.11. -/
theorem test_decb : goes (exec (.decb 0) (window 3 [(0x100, 0x45), (0x101, 0x25), (0x102, 0x74)]))
      (fun t => t.unit.blocks[0] == ((single 0 5).set 1 (half16 (-2))).set 16 1 && t.unit.acc == 3)
    ∧ faults (exec (.decb 0) (window 3 [(0x100, 0x02), (0x101, 0x0C), (0x102, 0xA8)])) .bsCorrupt
      18 := by decide +kernel

/-- 5.4: (-2, 3). -/
theorem test_encmv : goes (exec .encmv
      { window 2 [] with unit := { (window 2 []).unit with dx := -2, dy := 3 } })
    (fun t => t.mem == [(0x100, 0x29), (0x101, 0x80)] && t.unit.acc == 2 && !t.unit.z) := by
  decide +kernel

/-- 5.4: (-32768, 0), and +32768 refused. -/
theorem test_decmv : goes (exec .decmv (window 5 [(0x102, 0x80), (0x104, 0xC0)]))
      (fun t => t.unit.dx == 0x8000 && t.unit.dy == 0 && t.unit.acc == 5)
    ∧ faults (exec .decmv (window 5 [(0x102, 0x80), (0x104, 0x40)])) .bsCorrupt 33 := by
  decide +kernel

/-! ### Host accesses and races -/

/-- 8.9, 8.13: the reset machine's register block is at host address 0. -/
theorem test_host_writes : goes (step { State.reset with agenda := [.mmioWrite 0x800 4 0x00050000] })
      (fun t => t.unit.qt[0][0] == 1 && t.unit.qt[0][1] == 5)
    ∧ goes (step { State.reset with agenda := [.mmioWrite 0x010 4 0x12345679] })
      (fun t => t.unit.pc == 0x12345678) := by decide +kernel

/-- 8.7, 8.15. -/
theorem test_host_reads : goes (step { State.reset with agenda := [.mmioRead 0 4] })
      (fun t => t.hostData == 0x50465601)
    ∧ goes (step { on { UnitState.reset with fault := true, fcode := .illegalOp } with
        agenda := [.mmioWrite 8 4 1] })
      (fun t => t.unit.fault && !t.unit.busy) := by decide +kernel

/-- A host write to a byte of a running unit leaves the byte's earlier value open to that unit (20 R84);
the START of its next run orders the write before that run (20 R81). -/
theorem test_race : goes (step { on unit with agenda := [.memWrite 0x30 7], mem := [(0x30, 5)] })
      (fun t => t.mem.read 0x30 == 7 && t.staleAt 0x30 == [5])
    ∧ goes (step { on UnitState.reset with
        agenda := [.mmioWrite 8 4 1], mem := [(0x30, 7)], races := [⟨0x30, .host, 5, [0], false, false⟩] })
      (fun t => t.unit.busy && t.staleAt 0x30 == []) := by decide +kernel

/-- Units `a` and `b`, the first selected, register blocks at 0 and 0x1000, one interrupt line. -/
def two (a b : UnitState) : State :=
  { on a with
    others := [b], plat := { platformAtReset with mmioBase := [0, 0x1000], irqRoute := [0, 0] } }

/-- Unit 1's write of byte 0x30, its end seen by the host or not. -/
def wrote (seen : Bool) : List RaceWrite := [⟨0x30, .unit 1, 5, [0], seen, false⟩]

/-- A run's write stays open to another unit's next run unless the host has seen the run's end, also when
its unit runs again by then (20 R83). -/
theorem test_race_seen :
    goes (step { two UnitState.reset unit with agenda := [.mmioWrite 8 4 1], races := wrote true })
      (fun t => t.unit.busy && t.staleAt 0x30 == [])
    ∧ goes (step { two UnitState.reset unit with agenda := [.mmioWrite 8 4 1], races := wrote false })
      (fun t => t.unit.busy && t.staleAt 0x30 == [5]) := by decide +kernel

/-- Reading the STATUS of a unit that has ended, or its interrupt line, shows the host the end (20 R82). -/
theorem test_race_end :
    goes (step { two unit { UnitState.reset with done := true } with
        agenda := [.mmioRead 0x100C 4], races := wrote false })
      (fun t => t.hostData == 2 && t.races == wrote true)
    ∧ goes (step { two unit { UnitState.reset with done := true, ie := true } with
        agenda := [.lineRead 0], races := wrote false })
      (fun t => t.hostData == 1 && t.races == wrote true) := by decide +kernel

/-- A byte that unit 1's going run wrote: the host may read either value; once the run has ended only the
written one (60 R264). -/
theorem test_race_host :
    ({ two unit unit with mem := [(0x30, 7)], races := wrote false } : State).staleFor .host 0x30 = [5]
    ∧ goes (step { two unit { UnitState.reset with done := true } with
        agenda := [.memRead 0x30], mem := [(0x30, 7)], races := wrote false })
      (fun t => t.hostData == 7) := by decide +kernel

/-- Of two units' racing writes of a byte either may be the one that stays (20 R84). -/
theorem test_race_writes :
    let s : State := { two unit unit with mem := [(0x30, 7)], races := wrote false }
    s.contested (.unit 0) 0x30 = true
      ∧ ((s.storeByte 0 0x30 9).mem.read 0x30 = 9 ∨ (s.storeByte 0 0x30 9).mem.read 0x30 = 7) := by
  refine ⟨by decide +kernel, ?_⟩
  obtain ⟨m, r, h, rfl | rfl⟩ := storeByte_eq
    { two unit unit with mem := [(0x30, 7)], races := wrote false } 0 0x30 9 <;> rw [h]
  · exact .inl (show Memory.read (Memory.write [(0x30, 7)] 0x30 9) 0x30 = 9 by decide)
  · exact .inr (show Memory.read [(0x30, 7)] 0x30 = 7 by decide)

/-- Memory with read side effects may be written; a unit's read of it is refused (20 R77). -/
theorem test_sideEffect :
    let s : State := { window 1 [] with
      plat := { platformAtReset with regions := [⟨0x100, 1, .sideEffect⟩] } }
    goes (exec .encmv s) (fun t => t.mem == [(0x100, 0xC0)] && t.unit.acc == 1)
      ∧ refuses (exec .decmv s) (.sideEffectMemory 0x100) := by decide +kernel

/-! ### Hypotheses met: encoding and the step -/

theorem witness_DecodeOfEncode : (Instr.ldpx 7 3 true true).WellFormed
    ∧ (Instr.msrch 3 3 63).WellFormed ∧ (Instr.jmp 0xFFFFFF).WellFormed := by decide

theorem witness_EncodeOfDecode : decodeWord 0x3800783F = .ok (.msrch 3 3 63)
    ∧ decodeWord 0x00000000 = .ok .nop := by decide +kernel

/-- The machine running at pc with the word 0x02000003 there. -/
def fetching : State :=
  { on { unit with pc := 0xFFFFFFFC } with mem := [(0xFFFFFFFC, 3), (0xFFFFFFFF, 2)] }

theorem witness_StepRunsTheDecodedCommand : fetching.agenda = [] ∧ fetching.unit.busy = true
    ∧ (∀ k < 4, fetching.Readable (fetching.unit.pc + BitVec.ofNat 32 k))
    ∧ decodeWord (fetching.mem.read (fetching.unit.pc + 3).toNat
      ++ fetching.mem.read (fetching.unit.pc + 2).toNat
      ++ fetching.mem.read (fetching.unit.pc + 1).toNat
      ++ fetching.mem.read fetching.unit.pc.toNat) = .ok (.jmp 3)
    ∧ ({ fetching with agenda := [.unitStep 0] } : State).agenda = [.unitStep 0]
    ∧ ({ fetching with agenda := [] } : State).select 0 = some fetching := by decide +kernel

/-- The machine running at 0 with an unassigned opcode there. -/
def illegal : State := { on unit with mem := [(3, 0x07)] }

theorem witness_IllegalWordFaults : illegal.agenda = [] ∧ illegal.unit.busy = true
    ∧ (∀ k < 4, illegal.Readable (illegal.unit.pc + BitVec.ofNat 32 k))
    ∧ (0x07000000 : Word) = illegal.mem.read (illegal.unit.pc + 3).toNat
      ++ illegal.mem.read (illegal.unit.pc + 2).toNat
      ++ illegal.mem.read (illegal.unit.pc + 1).toNat ++ illegal.mem.read illegal.unit.pc.toNat
    ∧ ∀ i, decodeWord 0x07000000 ≠ .ok i := by
  refine ⟨by decide, by decide, by decide +kernel, by decide +kernel, fun i h => ?_⟩
  rw [show decodeWord 0x07000000 = .error .unassignedOpcode by decide +kernel] at h
  cases h

/-- The running machine with a hole of one byte. -/
def holeAt (a : Nat) (u : UnitState) : State :=
  { on u with plat := { platformAtReset with regions := [⟨a, 1, .hole⟩] } }

/-- The first byte, and the last (8.4 is the third). -/
theorem witness_FetchBusErrorNamesFirstByte :
    ((holeAt 0 unit).agenda = [] ∧ (holeAt 0 unit).unit.busy = true ∧ (0 < 4)
      ∧ (holeAt 0 unit).busOK ((holeAt 0 unit).unit.pc + BitVec.ofNat 32 0) = false
      ∧ ∀ j < 0, (holeAt 0 unit).Plain ((holeAt 0 unit).unit.pc + BitVec.ofNat 32 j))
    ∧ (holeAt 3 unit).busOK ((holeAt 3 unit).unit.pc + BitVec.ofNat 32 3) = false
      ∧ ∀ j < 3, (holeAt 3 unit).Plain ((holeAt 3 unit).unit.pc + BitVec.ofNat 32 j) := by
  decide +kernel

theorem witness_EveryStepGoesOn : State.reset.agenda = [] ∧ State.reset.unit.busy = false
    ∧ (holeAt 3 unit).agenda = [] ∧ (holeAt 3 unit).NothingRefused := by decide +kernel

/-- The state after a hardware reset, and after a soft reset of a running unit. -/
theorem witness_ResetValues : State.reset.unit = State.reset.unit
    ∧ (2 : Word).getLsbD 1 = true ∧ unit.mmioWrite 2 .ctrl = State.reset.unit := by decide +kernel

theorem witness_EveryStepKeepsInv : (on unit).Inv ∧ ∃ t, step (on unit) = .next t :=
  ⟨⟨⟨by decide, by decide +kernel, by decide, by decide +kernel⟩, by simp [on, State.reset],
    by decide, rfl⟩, _, rfl⟩

theorem witness_UnitsAreIsolated : (on unit).self ≤ (on unit).others.length
    ∧ ∃ t, step (on unit) = .next t := ⟨by decide, _, rfl⟩

/-- A completing command and a faulting one; one that stores and one that does not. -/
theorem witness_commands : (∃ t, exec .nop (on unit) = .next t ∧ t.unit.cmdcnt = (on unit).unit.cmdcnt + 1)
    ∧ (∃ t, exec (.mov 0 1) State.reset = .next t ∧ t.unit.fault = true)
    ∧ branches .nop = false ∧ storesOf .nop = false ∧ storesOf .encmv = true :=
  ⟨⟨_, rfl, by decide⟩, ⟨_, rfl, rfl⟩, rfl, rfl, rfl⟩

theorem witness_SingleStepEndsTheRun :
    (∃ t, exec .nop (on { unit with sstep := true }) = .next t
      ∧ t.unit.cmdcnt = (on { unit with sstep := true }).unit.cmdcnt + 1)
    ∧ (on { unit with sstep := true }).unit.busy = true
    ∧ (∃ t, exec .nop (on unit) = .next t ∧ t.unit.cmdcnt = (on unit).unit.cmdcnt + 1)
    ∧ (on unit).unit.sstep = false ∧ Instr.nop ≠ .halt :=
  ⟨⟨_, rfl, by decide⟩, rfl, ⟨_, rfl, by decide⟩, rfl, by decide⟩

/-! ### Hypotheses met: block registers, transform, quantizer -/

theorem witness_InvalidSourceFaults :
    (Instr.mov 0 7 ∈ [Instr.mov 0 7, .fdct 0 7, .idct 0 7 true, .quant 0 7 0, .dequant 0 7 0, .encb 7,
        .stpx 7 0] ∧ State.reset.unit.bvalid[(7 : BReg)] = false)
    ∧ (Instr.sub 0 0 1 ∈ [Instr.sub 0 0 1, .addc 0 0 1, .sad 0 1]
      ∧ State.reset.unit.bvalid[(0 : BReg)] = false)
    ∧ ({ State.reset with unit := State.reset.unit.setBlock 0 Block.zero }).unit.bvalid[(0 : BReg)] = true
    ∧ ({ State.reset with unit := State.reset.unit.setBlock 0 Block.zero }).unit.bvalid[(1 : BReg)]
      = false := by decide +kernel

/-- For MOV, SUB, ADDC, SAD, FDCT, IDCT and DEQUANT: valid sources. -/
theorem witness_validSources : ∀ n : BReg, (on unit).unit.bvalid[n] = true := by decide +kernel

theorem witness_FdctOfSamplesNeverSaturates :
    ∀ i, -255 ≤ elem ((solid 255).set 0 (half16 (-255))) i
      ∧ elem ((solid 255).set 0 (half16 (-255))) i ≤ 255 := by decide +kernel

theorem witness_QuantRoundsToNearest : (on unit).unit.bvalid[(0 : BReg)] = true
    ∧ ∀ k : Fin 64, 1 ≤ (on unit).unit.qt[(0 : Table)][k].toNat := by decide +kernel

theorem witness_QgenMonotoneAndIdentity : 0 ≤ 100 ∧ 100 ≤ 100 := by decide

/-! ### Hypotheses met: entropy coder -/

theorem witness_UeIsExpGolomb : (2 ^ 0 ≤ 0 + 1 ∧ 0 + 1 < 2 ^ (0 + 1))
    ∧ (2 ^ 15 ≤ 65534 + 1 ∧ 65534 + 1 < 2 ^ (15 + 1)) ∧ 0 < 15 ∧ 15 ≤ 15 := by decide

theorem witness_BlockCodeLengthBounds : (∀ i, elem (solid (-32768)) i = -32768)
    ∧ (∀ i, elem Block.zero i = 0) ∧ (-1 : Int) ≠ 0 ∧ 1 ≤ 32768 := by decide +kernel

/-- The code of the zero block fills the window of one byte exactly. -/
theorem witness_EncbWritesTheBlockCode : (window 1 []).unit.bvalid[(0 : BReg)] = true
    ∧ (window 1 []).mem.wf = true
    ∧ (window 1 []).unit.bsp.toNat + (pack (blockBits (window 1 []).unit.blocks[(0 : BReg)])).length
      = (window 1 []).unit.bse.toNat
    ∧ ∀ j < (pack (blockBits (window 1 []).unit.blocks[(0 : BReg)])).length,
      (window 1 []).Storable ((window 1 []).unit.bsp + BitVec.ofNat 32 j) := by decide +kernel

/-- The code of (0, 0) fills the window of one byte exactly. -/
theorem witness_EncmvWritesTheOffsetCode : (window 1 []).mem.wf = true
    ∧ (window 1 []).unit.bsp.toNat
        + (pack (mvBits (window 1 []).unit.dx.toInt (window 1 []).unit.dy.toInt)).length
      = (window 1 []).unit.bse.toNat
    ∧ ∀ j < (pack (mvBits (window 1 []).unit.dx.toInt (window 1 []).unit.dy.toInt)).length,
      (window 1 []).Storable ((window 1 []).unit.bsp + BitVec.ofNat 32 j) := by decide +kernel

/-- An empty window: ENCB and ENCMV overflow. -/
theorem witness_EncodeOverflowWritesNothing : (window 0 []).unit.bvalid[(0 : BReg)] = true
    ∧ (window 0 []).unit.bse.toNat < (window 0 []).unit.bsp.toNat
      + (pack (blockBits (window 0 []).unit.blocks[(0 : BReg)])).length
    ∧ (window 0 []).unit.bse.toNat < (window 0 []).unit.bsp.toNat
      + (pack (se (window 0 []).unit.dx.toInt ++ se (window 0 []).unit.dy.toInt)).length := by
  decide +kernel

theorem witness_EncodeStaysInTheWindow : (window 1 []).mem.wf = true
    ∧ (∃ t, exec (.encb 0) (window 1 []) = .next t) ∧ ∃ t, exec .encmv (window 1 []) = .next t := by
  refine ⟨rfl, ?_, ?_⟩
  · have h : goes (exec (.encb 0) (window 1 [])) (fun _ => true) = true := by decide +kernel
    revert h
    cases exec (.encb 0) (window 1 []) <;> simp [goes]
  · have h : goes (exec .encmv (window 1 [])) (fun _ => true) = true := by decide +kernel
    revert h
    cases exec .encmv (window 1 []) <;> simp [goes]

theorem witness_DecbDecodesTheBlockCode :
    (window 1 [(0x100, 0x80)]).unit.bsp.toNat + (pack (blockBits Block.zero)).length
      ≤ (window 1 [(0x100, 0x80)]).unit.bse.toNat
    ∧ ∀ j (h : j < (pack (blockBits Block.zero)).length),
      (window 1 [(0x100, 0x80)]).Readable
          ((window 1 [(0x100, 0x80)]).unit.bsp + BitVec.ofNat 32 j)
        ∧ (window 1 [(0x100, 0x80)]).mem.read ((window 1 [(0x100, 0x80)]).unit.bsp.toNat + j)
          = (pack (blockBits Block.zero))[j] := by decide +kernel

theorem witness_DecmvDecodesTheOffsetCode :
    (window 1 [(0x100, 0xC0)]).unit.bsp.toNat
        + (pack (se (0 : Half).toInt ++ se (0 : Half).toInt)).length
      ≤ (window 1 [(0x100, 0xC0)]).unit.bse.toNat
    ∧ ∀ j (h : j < (pack (se (0 : Half).toInt ++ se (0 : Half).toInt)).length),
      (window 1 [(0x100, 0xC0)]).Readable
          ((window 1 [(0x100, 0xC0)]).unit.bsp + BitVec.ofNat 32 j)
        ∧ (window 1 [(0x100, 0xC0)]).mem.read ((window 1 [(0x100, 0xC0)]).unit.bsp.toNat + j)
          = (pack (se (0 : Half).toInt ++ se (0 : Half).toInt))[j] := by decide +kernel

theorem witness_EncodeThenDecodeRoundTrip : (window 1 []).unit.bvalid[(0 : BReg)] = true
    ∧ (window 1 []).mem.wf = true
    ∧ (window 1 []).unit.bsp.toNat + (pack (blockBits (window 1 []).unit.blocks[(0 : BReg)])).length
      ≤ (window 1 []).unit.bse.toNat
    ∧ (∀ j < (pack (blockBits (window 1 []).unit.blocks[(0 : BReg)])).length,
      (window 1 []).Readable ((window 1 []).unit.bsp + BitVec.ofNat 32 j))
    ∧ (window 1 []).unit.bsp.toNat
        + (pack (mvBits (window 1 []).unit.dx.toInt (window 1 []).unit.dy.toInt)).length
      ≤ (window 1 []).unit.bse.toNat
    ∧ ∀ j < (pack (mvBits (window 1 []).unit.dx.toInt (window 1 []).unit.dy.toInt)).length,
      (window 1 []).Readable ((window 1 []).unit.bsp + BitVec.ofNat 32 j) := by decide +kernel

/-- A completed command, from a test of the state it leaves. -/
theorem next_of_goes {r : Result} {p : State → Bool} (h : goes r p = true) :
    ∃ t, r = .next t ∧ p t = true := by
  cases r with
  | next t => exact ⟨t, rfl, h⟩
  | _ => simp [goes] at h

/-- Windows of one byte with the code of the zero block and of (0, 0). -/
theorem witness_DecodeAcceptsOnlyCodes :
    (∀ m k, (window 1 m).Settled ((window 1 m).unit.bsp + BitVec.ofNat 32 k))
    ∧ (∃ t, exec (.decb 0) (window 1 [(0x100, 0x80)]) = .next t
      ∧ t.unit.cmdcnt = (window 1 [(0x100, 0x80)]).unit.cmdcnt + 1)
    ∧ ∃ t, exec .decmv (window 1 [(0x100, 0xC0)]) = .next t
      ∧ t.unit.cmdcnt = (window 1 [(0x100, 0xC0)]).unit.cmdcnt + 1 := by
  refine ⟨fun _ _ => rfl, ?_, ?_⟩
  · obtain ⟨t, ht, h⟩ := next_of_goes (r := exec (.decb 0) (window 1 [(0x100, 0x80)]))
      (p := fun t => t.unit.cmdcnt == 1) (by decide +kernel)
    exact ⟨t, ht, show t.unit.cmdcnt = 1 by simpa using h⟩
  · obtain ⟨t, ht, h⟩ := next_of_goes (r := exec .decmv (window 1 [(0x100, 0xC0)]))
      (p := fun t => t.unit.cmdcnt == 1) (by decide +kernel)
    exact ⟨t, ht, show t.unit.cmdcnt = 1 by simpa using h⟩

/-- No triple at all is legal. -/
theorem legalTriples_nil : legalTriples [] := ⟨by simp, by decide⟩

/-- The five ways to be no block code, each with the least run, magnitude or padding that is wrong. -/
theorem witness_BrokenCodesFault_decb :
    (windowHolds (window 3 []) (List.replicate 17 false) ∧ corruptBlock (List.replicate 17 false))
    ∧ (windowHolds (window 2 [(0x100, 0x02), (0x101, 0x10)]) (ue 65) ∧ corruptBlock (ue 65))
    ∧ (windowHolds (window 3 [(0x100, 0x40)]) (ue 1 ++ List.replicate 17 false)
      ∧ corruptBlock (ue 1 ++ List.replicate 17 false))
    ∧ (windowHolds (window 5 [(0x100, 0x40), (0x102, 0x20)]) (ue 1 ++ ue 32767 ++ [false])
      ∧ corruptBlock (ue 1 ++ ue 32767 ++ [false]))
    ∧ windowHolds (window 1 [(0x100, 0x81)]) (ue 0 ++ List.replicate 6 false ++ [true])
      ∧ corruptBlock (ue 0 ++ List.replicate 6 false ++ [true]) := by
  refine ⟨⟨?_, ?_⟩, ⟨?_, ?_⟩, ⟨?_, ?_⟩, ⟨?_, ?_⟩, ?_, ?_⟩
  any_goals (unfold windowHolds; decide +kernel)
  · exact ⟨[], legalTriples_nil, .inl rfl⟩
  · exact ⟨[], legalTriples_nil, .inr (.inl ⟨65, by decide, by decide, by decide, rfl⟩)⟩
  · exact ⟨[], legalTriples_nil, .inr (.inr (.inl ⟨0, by decide, rfl⟩))⟩
  · exact ⟨[], legalTriples_nil, .inr (.inr (.inr (.inl
      ⟨0, 32768, false, by decide, by decide, by decide, fun _ => rfl, rfl⟩)))⟩
  · exact ⟨[], legalTriples_nil, .inr (.inr (.inr (.inr ⟨6, by unfold badPadding; decide, rfl⟩)))⟩

/-- A 17th zero in DX and in DY, a DX of 32768, and a 1 in the padding. -/
theorem witness_BrokenCodesFault_decmv :
    (windowHolds (window 3 []) (List.replicate 17 false) ∧ corruptOffset (List.replicate 17 false))
    ∧ (windowHolds (window 3 [(0x100, 0x80)]) (se (0 : Half).toInt ++ List.replicate 17 false)
      ∧ corruptOffset (se (0 : Half).toInt ++ List.replicate 17 false))
    ∧ (windowHolds (window 5 [(0x102, 0x80)]) (ue 65535) ∧ corruptOffset (ue 65535))
    ∧ windowHolds (window 1 [(0x100, 0xC1)])
        (mvBits (0 : Half).toInt (0 : Half).toInt ++ List.replicate 5 false ++ [true])
      ∧ corruptOffset (mvBits (0 : Half).toInt (0 : Half).toInt ++ List.replicate 5 false ++ [true]) := by
  refine ⟨⟨?_, ?_⟩, ⟨?_, ?_⟩, ⟨?_, ?_⟩, ?_, ?_⟩
  any_goals (unfold windowHolds; decide +kernel)
  · exact .inl ⟨[], .inl rfl, .inl rfl⟩
  · exact .inl ⟨_, .inr ⟨0, rfl⟩, .inl rfl⟩
  · exact .inl ⟨[], .inl rfl, .inr ⟨65535, by decide, by decide, rfl⟩⟩
  · exact .inr ⟨0, 0, 5, by unfold badPadding; decide +kernel, rfl⟩

/-- Both streams may start with eight zeros: the ninth to the seventeenth follow. -/
theorem streams_of_zeros : blockStream (List.replicate 8 false ++ List.replicate 9 false)
    ∧ offsetStream (List.replicate 8 false ++ List.replicate 9 false) :=
  ⟨.inr ⟨[], legalTriples_nil, .inl (by decide)⟩, .inr (.inl ⟨[], .inl rfl, .inl (by decide)⟩)⟩

/-- A window of one byte that ends after eight zeros; a code cut off; an empty window. -/
theorem witness_BrokenCodesFault_truncated :
    (windowHolds (window 1 []) (List.replicate 8 false) ∧ List.replicate 9 false ≠ []
      ∧ (window 1 []).unit.bsp.toNat * 8 + (List.replicate 8 false).length
        = (window 1 []).unit.bse.toNat * 8
      ∧ blockStream (List.replicate 8 false ++ List.replicate 9 false)
      ∧ offsetStream (List.replicate 8 false ++ List.replicate 9 false))
    ∧ blockStream (blockBits (single 0 32767)) ∧ (blockBits (single 0 32767)).length = 34
    ∧ (window 0 []).unit.bse.toNat ≤ (window 0 []).unit.bsp.toNat :=
  ⟨⟨by unfold windowHolds; decide +kernel, by decide, by decide +kernel, streams_of_zeros.1,
    streams_of_zeros.2⟩, .inl ⟨_, rfl⟩, by decide +kernel, by decide⟩

/-- A window whose first byte is a hole; and one whose second is, after eight zeros. -/
theorem witness_DecodeReadsStayInTheWindow :
    goes (exec (.decb 0) (holeAt 0x100 (window 1 []).unit)) (fun t =>
      t.unit.cmdcnt == (window 1 []).unit.cmdcnt && t.unit.fcode == .busError
        && t.unit.faultInfo == 0x100)
    ∧ goes (exec .decmv (holeAt 0x100 (window 1 []).unit)) (fun t =>
      t.unit.cmdcnt == (window 1 []).unit.cmdcnt && t.unit.fcode == .busError)
    ∧ List.replicate 9 false ≠ [] ∧ (List.replicate 8 false).length = 8 * 1
    ∧ windowHolds (holeAt 0x101 (window 2 []).unit) (List.replicate 8 false)
    ∧ (holeAt 0x101 (window 2 []).unit).unit.bsp.toNat + 1
      < (holeAt 0x101 (window 2 []).unit).unit.bse.toNat
    ∧ (holeAt 0x101 (window 2 []).unit).busOK
      ((holeAt 0x101 (window 2 []).unit).unit.bsp + BitVec.ofNat 32 1) = false
    ∧ blockStream (List.replicate 8 false ++ List.replicate 9 false)
    ∧ offsetStream (List.replicate 8 false ++ List.replicate 9 false) :=
  ⟨by decide +kernel, by decide +kernel, by decide, by decide, by unfold windowHolds; decide +kernel,
    by decide +kernel, by decide +kernel, streams_of_zeros.1, streams_of_zeros.2⟩

/-! ### Hypotheses met: windows -/

/-- With no region and no race every address is readable. -/
theorem readable_on (u : UnitState) (m : Memory) (a : Word) :
    ({ on u with mem := m } : State).Readable a := ⟨rfl, rfl⟩

/-- The window at the far corner of PD0, in the three legal modes, with the offset (-8, -8). -/
theorem witness_LdpxLoadsTheWindow : ∀ mh ∈ [(false, false), (true, false), (true, true)],
    let s := on { planed 24 24 with dx := -8, dy := -8 }
    let x : Int := s.unit.x.toNat
      + (if mh.1 then (if mh.2 then Int.tdiv s.unit.dx.toInt 2 else s.unit.dx.toInt) else 0)
    let y : Int := s.unit.y.toNat
      + (if mh.1 then (if mh.2 then Int.tdiv s.unit.dy.toInt 2 else s.unit.dy.toInt) else 0)
    ¬ (mh.2 = true ∧ mh.1 = false) ∧ 0 ≤ x ∧ 0 ≤ y
      ∧ x + 8 ≤ s.unit.pd[(0 : Plane)].width.toNat ∧ y + 8 ≤ s.unit.pd[(0 : Plane)].height.toNat
      ∧ ∀ i < 64, s.Readable (s.unit.pd[(0 : Plane)].windowAddr x y 8 i) := by
  decide +kernel

/-- A hole under the first sample of the window at (24, 24), and under the last. -/
theorem witness_LdpxLoadsTheWindow_busError :
    (holeAt 0x1318 (planed 24 24)).busOK ((planed 24 24).pd[(0 : Plane)].windowAddr 24 24 8 0) = false
    ∧ (holeAt 0x13FF (planed 24 24)).busOK ((planed 24 24).pd[(0 : Plane)].windowAddr 24 24 8 63) = false
    ∧ ∀ i < 63, (holeAt 0x13FF (planed 24 24)).Plain
      ((planed 24 24).pd[(0 : Plane)].windowAddr 24 24 8 i) := by decide +kernel

/-- One sample past the plane, for LDPX and STPX at (25, 0) and MSRCH at (17, 0). -/
theorem witness_WindowOutsidePlaneFaults :
    (¬ ((0 : Int) ≤ 25 ∧ (0 : Int) ≤ 0
      ∧ (25 : Int) + (8 : Nat) ≤ (planed 25 0).pd[(0 : Plane)].width.toNat
      ∧ (0 : Int) + (8 : Nat) ≤ (planed 25 0).pd[(0 : Plane)].height.toNat))
    ∧ (planed 25 0).bvalid[(0 : BReg)] = true ∧ (planed 25 0).x.toNat = 25
    ∧ ¬ ((0 : Int) ≤ 17 ∧ (0 : Int) ≤ 0
      ∧ (17 : Int) + (16 : Nat) ≤ (planed 17 0).pd[(0 : Plane)].width.toNat
      ∧ (0 : Int) + (16 : Nat) ≤ (planed 17 0).pd[(0 : Plane)].height.toNat) := by
  decide +kernel

theorem witness_StpxStoresClampedSamples : (on (planed 24 24)).unit.bvalid[(0 : BReg)] = true
    ∧ (on (planed 24 24)).mem.wf = true
    ∧ (on (planed 24 24)).unit.x.toNat + 8 ≤ (on (planed 24 24)).unit.pd[(0 : Plane)].width.toNat
    ∧ (on (planed 24 24)).unit.y.toNat + 8 ≤ (on (planed 24 24)).unit.pd[(0 : Plane)].height.toNat
    ∧ ∀ i < 64, (on (planed 24 24)).Storable ((on (planed 24 24)).unit.pd[(0 : Plane)].windowAddr
      (on (planed 24 24)).unit.x.toNat (on (planed 24 24)).unit.y.toNat 8 i) := by decide +kernel

/-- A hole under the last sample of PD1's window at (0, 0). -/
theorem witness_StoreBusErrorKeepsThePrefix :
    (holeAt 0x5037 (planed 0 0)).unit.bvalid[(0 : BReg)] = true
    ∧ (holeAt 0x5037 (planed 0 0)).mem.wf = true
    ∧ (holeAt 0x5037 (planed 0 0)).unit.x.toNat + 8
      ≤ (holeAt 0x5037 (planed 0 0)).unit.pd[(1 : Plane)].width.toNat
    ∧ (holeAt 0x5037 (planed 0 0)).unit.y.toNat + 8
      ≤ (holeAt 0x5037 (planed 0 0)).unit.pd[(1 : Plane)].height.toNat
    ∧ (holeAt 0x5037 (planed 0 0)).busOK ((holeAt 0x5037 (planed 0 0)).unit.pd[(1 : Plane)].windowAddr
      0 0 8 63) = false
    ∧ ∀ i < 63, (holeAt 0x5037 (planed 0 0)).Storable
      ((holeAt 0x5037 (planed 0 0)).unit.pd[(1 : Plane)].windowAddr 0 0 8 i) := by decide +kernel

/-- A hole under the last of the five bytes of a block's code, and under the last of the two of (-2, 3)'s. -/
theorem witness_StoreBusErrorKeepsThePrefix_encode :
    let s := holeAt 0x104 { (window 5 []).unit with blocks := tabulate fun _ => single 0 32767 }
    let v := holeAt 0x101 { (window 2 []).unit with dx := -2, dy := 3 }
    (s.unit.bvalid[(0 : BReg)] = true ∧ s.mem.wf = true
      ∧ s.unit.bsp.toNat + (pack (blockBits s.unit.blocks[(0 : BReg)])).length ≤ s.unit.bse.toNat
      ∧ 4 < (pack (blockBits s.unit.blocks[(0 : BReg)])).length
      ∧ s.busOK (s.unit.bsp + BitVec.ofNat 32 4) = false
      ∧ ∀ j < 4, s.Storable (s.unit.bsp + BitVec.ofNat 32 j))
    ∧ v.mem.wf = true
      ∧ v.unit.bsp.toNat + (pack (mvBits v.unit.dx.toInt v.unit.dy.toInt)).length ≤ v.unit.bse.toNat
      ∧ 1 < (pack (mvBits v.unit.dx.toInt v.unit.dy.toInt)).length
      ∧ v.busOK (v.unit.bsp + BitVec.ofNat 32 1) = false
      ∧ ∀ j < 1, v.Storable (v.unit.bsp + BitVec.ofNat 32 j) := by decide +kernel

/-- PD0 as both planes, at (16, 16), where offsets to the right and down are out of bounds. -/
theorem witness_MsrchFindsTheBestOffset :
    (on (planed 16 16)).unit.x.toNat + 16 ≤ (on (planed 16 16)).unit.pd[(0 : Plane)].width.toNat
    ∧ (on (planed 16 16)).unit.y.toNat + 16 ≤ (on (planed 16 16)).unit.pd[(0 : Plane)].height.toNat
    ∧ (∀ i < 256, (on (planed 16 16)).Readable ((on (planed 16 16)).unit.pd[(0 : Plane)].windowAddr
      (on (planed 16 16)).unit.x.toNat (on (planed 16 16)).unit.y.toNat 16 i))
    ∧ (∀ dx dy, isCandidate (on (planed 16 16)) 0 63 dx dy → ∀ i < 256,
      (on (planed 16 16)).Readable ((on (planed 16 16)).unit.pd[(0 : Plane)].windowAddr
        ((on (planed 16 16)).unit.x.toNat + dx) ((on (planed 16 16)).unit.y.toNat + dy) 16 i))
    ∧ ∃ dx dy, isCandidate (on (planed 16 16)) 0 63 dx dy :=
  ⟨by decide +kernel, by decide +kernel, fun _ _ => readable_on (planed 16 16) [] _,
    fun _ _ _ _ _ => readable_on (planed 16 16) [] _, -16, 0, by unfold isCandidate; decide +kernel⟩

/-- PD1 is 8 by 8: no 16 by 16 window fits. -/
theorem witness_MsrchFaultsWriteNothing :
    (on (planed 0 0)).unit.x.toNat + 16 ≤ (on (planed 0 0)).unit.pd[(0 : Plane)].width.toNat
    ∧ (on (planed 0 0)).unit.y.toNat + 16 ≤ (on (planed 0 0)).unit.pd[(0 : Plane)].height.toNat
    ∧ (∀ i < 256, (on (planed 0 0)).Plain ((on (planed 0 0)).unit.pd[(0 : Plane)].windowAddr
      (on (planed 0 0)).unit.x.toNat (on (planed 0 0)).unit.y.toNat 16 i))
    ∧ ∀ dx dy, ¬ isCandidate (on (planed 0 0)) 1 63 dx dy := by
  have hw : (on (planed 0 0)).unit.pd[(1 : Plane)].width.toNat = 8 := by decide +kernel
  refine ⟨by decide +kernel, by decide +kernel, fun _ _ => rfl, fun dx dy h => ?_⟩
  obtain ⟨-, -, -, -, h1, -, h2, -⟩ := h
  omega

/-- A hole under the last byte of the source window at (16, 16). -/
theorem witness_MsrchFaultsWriteNothing_source :
    (holeAt 0x13FF (planed 16 16)).unit.x.toNat + 16 ≤ (planed 16 16).pd[(0 : Plane)].width.toNat
    ∧ (holeAt 0x13FF (planed 16 16)).unit.y.toNat + 16 ≤ (planed 16 16).pd[(0 : Plane)].height.toNat
    ∧ (holeAt 0x13FF (planed 16 16)).busOK
      ((planed 16 16).pd[(0 : Plane)].windowAddr 16 16 16 255) = false
    ∧ ∀ i < 255, (holeAt 0x13FF (planed 16 16)).Plain
      ((planed 16 16).pd[(0 : Plane)].windowAddr 16 16 16 i) := by decide +kernel

/-- A hole under the first byte of PD0: the window of the offset (-16, -16), which only that of (0, 0) comes
before. -/
theorem witness_MsrchFaultsWriteNothing_candidate :
    let s := holeAt 0x1000 (planed 16 16)
    (∀ i < 256, s.Plain (s.unit.pd[(0 : Plane)].windowAddr 16 16 16 i))
    ∧ isCandidate s 0 63 (-16) (-16)
    ∧ s.busOK (s.unit.pd[(0 : Plane)].windowAddr (16 + -16) (16 + -16) 16 0) = false
    ∧ ∀ dx dy, isCandidate s 0 63 dx dy → comesBefore dx dy (-16) (-16) → ∀ i < 256,
      s.Plain (s.unit.pd[(0 : Plane)].windowAddr (16 + dx) (16 + dy) 16 i) := by
  intro s
  have hp : ∀ i < 256, s.Plain (s.unit.pd[(0 : Plane)].windowAddr 16 16 16 i) := by decide +kernel
  refine ⟨hp, by unfold isCandidate; decide +kernel, by decide +kernel, fun dx dy h hb => ?_⟩
  have hx : s.unit.x.toNat = 16 := by decide +kernel
  have hy : s.unit.y.toNat = 16 := by decide +kernel
  unfold isCandidate at h
  unfold comesBefore at hb
  obtain ⟨rfl, rfl⟩ : dx = 0 ∧ dy = 0 := by omega
  exact hp

/-- From PD0 to PD2 at (8, 8), with M = 0 and, DX and DY being 0, with M = 1: the 64 destination addresses
are distinct. -/
theorem witness_SkipCopiesTheWindow : (on (planed 8 8)).mem.wf = true
    ∧ (on (planed 8 8)).unit.dx = 0 ∧ (on (planed 8 8)).unit.dy = 0
    ∧ 8 + 8 ≤ (on (planed 8 8)).unit.pd[(0 : Plane)].width.toNat
    ∧ 8 + 8 ≤ (on (planed 8 8)).unit.pd[(0 : Plane)].height.toNat
    ∧ 8 + 8 ≤ (on (planed 8 8)).unit.pd[(2 : Plane)].width.toNat
    ∧ 8 + 8 ≤ (on (planed 8 8)).unit.pd[(2 : Plane)].height.toNat
    ∧ (∀ i < 64, (on (planed 8 8)).Readable
      ((on (planed 8 8)).unit.pd[(0 : Plane)].windowAddr 8 8 8 i))
    ∧ (∀ i < 64, (on (planed 8 8)).Storable ((on (planed 8 8)).unit.pd[(2 : Plane)].windowAddr 8 8 8 i))
    ∧ ∀ i < 64, ∀ j < 64, i ≠ j → (on (planed 8 8)).unit.pd[(2 : Plane)].windowAddr 8 8 8 i
      ≠ (on (planed 8 8)).unit.pd[(2 : Plane)].windowAddr 8 8 8 j := by decide +kernel

/-! ### Hypotheses met: memory and the host -/

/-- A byte no race is open for; and the start of an idle unit on a byte that the host wrote last. -/
theorem witness_RacesAdmitOldOrNew : (on unit).Plain 0xFFFFFFFF ∧ (on unit).Settled 0xFFFFFFFF
    ∧ (on UnitState.reset).unit.busy = false ∧ unit.busy = true
    ∧ ∀ e es, ({ on UnitState.reset with races := [⟨0x30, .host, 5, [0], false, false⟩] } : State).racesAt
        0x30 = e :: es → e.writer = .host ∨ e.seen = true := by
  refine ⟨rfl, rfl, rfl, rfl, fun e es h => ?_⟩
  have h' := congrArg (fun l : List RaceWrite => l.head?.map (·.writer)) h
  left
  simpa [State.racesAt] using h'.symm

/-- The events of a host write and of a host read of the last byte. -/
theorem witness_MemoryReadsBackAndIsCanonical : Memory.wf [(0, 1), (0xFFFFFFFF, 2)] = true
    ∧ 0xFFFFFFFF < 2 ^ 32 ∧ (∀ a, Memory.read [(0, 1)] a = Memory.read [(0, 1)] a)
    ∧ ({ on unit with agenda := [.memWrite 0xFFFFFFFF 1] } : State).agenda = [.memWrite 0xFFFFFFFF 1]
    ∧ ({ on unit with agenda := [.memRead 0xFFFFFFFF] } : State).agenda = [.memRead 0xFFFFFFFF]
    ∧ (on unit).regionKind 0xFFFFFFFF = none
    ∧ (on unit).contested .host (0xFFFFFFFF : Word).toNat = false :=
  ⟨by decide, by decide, fun _ => rfl, rfl, rfl, rfl, rfl⟩

/-- START alone and IE alone, to an idle unit, a busy one and a faulted one. -/
theorem witness_StartProtocol : (1 : Word).getLsbD 0 = true ∧ (1 : Word).getLsbD 1 = false
    ∧ (4 : Word).getLsbD 0 = false ∧ (4 : Word).getLsbD 1 = false
    ∧ UnitState.reset.busy = false ∧ UnitState.reset.fault = false ∧ unit.busy = true
    ∧ (unit.enterFault .busError 0).fault = true := by decide

/-- Hardware reset and SRST (with START) of the second of two units. -/
theorem witness_ResetByHost : (3 : Word).getLsbD 1 = true
    ∧ (two unit unit).self ≤ (two unit unit).others.length ∧ 1 < (two unit unit).nUnits
    ∧ ({ two unit unit with agenda := [.hwReset 1] } : State).agenda = [.hwReset 1]
    ∧ ({ two unit unit with agenda := [.mmioWrite 0x1008 4 3] } : State).agenda = [.mmioWrite 0x1008 4 3]
    ∧ 0x1008 % 4 = 0
    ∧ unitAtHostAddr 0x1008 0 (two unit unit).plat.mmioBase = some (1, 8) := by decide

/-- A busy unit in a legal state; a register that takes no write; a plane register that is not another. -/
theorem witness_HostWritesOnlyItsRegister : unit.busy = true ∧ MmioReg.status ≠ .ctrl
    ∧ MmioReg.blk 7 31 ≠ .ctrl ∧ unit.StatusLegal ∧ hostWritesOf .reserved = []
    ∧ RegName.pc ∉ hostWritesOf .status ∧ MmioReg.pdStride 3 ≠ .pdBase 3
    ∧ MmioReg.pdStride 3 ≠ .pdWidth 3 ∧ MmioReg.pdBase 3 ≠ .pdStride 3
    ∧ MmioReg.pdBase 3 ≠ .pdHeight 3 := by decide

/-- The first and last offset of each range; a listed register of an idle unit; events that reach the second
of two units, at the first and the last word of its block. -/
theorem witness_HostRegisterMap : (0x000, MmioReg.id) ∈ scalarOffsets ∧ (0x03C, MmioReg.bvalid) ∈ scalarOffsets
    ∧ (0x080 ≤ 0x080 ∧ 0x080 < 0x400) ∧ (0x080 ≤ 0x3FF ∧ 0x3FF < 0x400) ∧ 0xA00 ≤ 0xFFC
    ∧ 65535 < 65536 ∧ (FaultCode.badParam, 8) ∈ faultNumbers ∧ UnitState.reset.busy = false
    ∧ (MmioReg.pc, (0xFFFFFFFC : Word)) ∈ [(MmioReg.pc, (0xFFFFFFFC : Word))]
    ∧ (two unit unit).self ≤ (two unit unit).others.length
    ∧ (∀ a ∈ [0x1000, 0x1FFC], a % 4 = 0
      ∧ unitAtHostAddr a 0 (two unit unit).plat.mmioBase = some (1, a - 0x1000))
    ∧ (({ two unit unit with agenda := [] } : State).select 1).isSome = true
    ∧ ({ two unit unit with agenda := [.mmioRead 0x1FFC 4] } : State).agenda = [.mmioRead 0x1FFC 4] := by
  decide +kernel

theorem witness_HostWritesTablesAndValidBits : UnitState.reset.busy = false
    ∧ (0x80 : Word).getLsbD (7 : BReg).val = true ∧ (0x80 : Word).getLsbD (0 : BReg).val = false
    ∧ (2 : Fin 64) ≠ evenIdx 0 ∧ (2 : Fin 64) ≠ oddIdx 0 := by decide

theorem witness_StatusWriteOneToClear : (6 : Word).getLsbD 2 = true ∧ (6 : Word).getLsbD 1 = true
    ∧ (0 : Word).getLsbD 2 = false ∧ (0 : Word).getLsbD 1 = false
    ∧ (two unit unit).self ≤ (two unit unit).others.length
    ∧ ({ two unit unit with agenda := [.lineRead 0] } : State).agenda = [.lineRead 0] := by decide

/-- A unit that had its interrupt enabled when it halted. -/
theorem witness_HaltEndsTheRun : (on { unit with ie := true }).unit.ie = true := rfl

end Sys2Proof.Tests
end

section
/-! Scope: what a command and a step of the machine leave alone (00_scope.md R5, R9). Every command's end is
`exec_next`'s; a step is one event on the units as they stand or on the units with one of them selected. -/

namespace Sys2Proof.Machine

/-! ### Commands -/

/-- A command's next state is reached by a change of its unit, memory, the races and the draw number. -/
theorem exec_sameOutside {i : Instr} {s t : State} (h : exec i s = .next t) : s.SameOutside t := by
  obtain ⟨cells, m, st, -, -, ⟨u, -, rfl⟩ | ⟨code, info, -, rfl⟩⟩ := exec_next h
  · exact ⟨rfl, rfl, rfl, rfl, rfl⟩
  · exact ⟨rfl, rfl, rfl, rfl, rfl⟩

/-- Ending a command without a store leaves memory and the races as they are. -/
theorem endCommand_keeps_memory {s t : State} {r : Except Stop UnitState}
    (h : s.endCommand r = .next t) : t.mem = s.mem ∧ t.races = s.races := by
  obtain ⟨u, -, rfl⟩ | ⟨code, info, -, rfl⟩ := endCommand_next h
  · exact ⟨rfl, rfl⟩
  · exact ⟨rfl, rfl⟩

/-- A command that stores nothing ends through `endCommand` alone. -/
theorem exec_eq_endCommand_of_not_storesOf {i : Instr} (s : State) (hi : storesOf i = false) :
    ∃ r, exec i s = s.endCommand r := by
  obtain ⟨cells, r, he, hc, -, -⟩ := exec_shape i s
  refine ⟨r, ?_⟩
  rw [he, hc hi, ← endCommand_eq_endAfter]

/-- Settles O12: a next state is a completion, framed by the command's `Effect`, or a fault entry. -/
theorem commandWritesOnlyItsRegisters : Obligations.CommandWritesOnlyItsRegisters := by
  intro i s t h
  obtain ⟨cells, m, st, -, -, ⟨u, hu, rfl⟩ | ⟨code, info, hcode, rfl⟩⟩ := exec_next h
  · refine .inl ⟨?_, fun hb => ?_, fun r hr hw => ?_⟩
    · simp [hu.cmdcnt]
    · simp [hu.pc hb]
    · exact RegName.same_trans (hu.frame r hr hw) (same_complete u r hr)
  · exact .inr ⟨rfl, hcode, rfl, rfl, same_enterFault s.unit code info⟩

/-- Settles O13: the frame of every command, and the end of those that store nothing. -/
theorem onlyStoresTouchMemory : Obligations.OnlyStoresTouchMemory := by
  refine fun i s t h => ⟨exec_sameOutside h, fun hi => ?_⟩
  obtain ⟨r, hr⟩ := exec_eq_endCommand_of_not_storesOf s hi
  exact endCommand_keeps_memory (hr ▸ h)

/-! ### Steps -/

/-- The same unit is selected, and the units beside it keep their state. -/
def State.SameOthers (s t : State) : Prop := t.self = s.self ∧ t.others = s.others

theorem State.SameOthers.nUnits {s t : State} (h : s.SameOthers t) : t.nUnits = s.nUnits := by
  rw [State.nUnits, State.nUnits, h.2]

theorem State.SameOthers.getElem?_units {s t : State} (h : s.SameOthers t) {k : Nat} (hk : k ≠ t.self) :
    t.units[k]? = s.units[k]? := by
  obtain ⟨hself, hothers⟩ := h
  have hunits : t.units = ({ s with unit := t.unit } : State).units := by
    rw [State.units, State.units, hself, hothers]
  rw [hunits, units_of_ne t.unit (hself ▸ hk)]

/-- Selecting a unit adds none and takes none away. -/
theorem nUnits_select {s v : State} {u : Nat} (hs : s.self ≤ s.others.length)
    (h : s.select u = some v) : v.nUnits = s.nUnits := by
  obtain ⟨-, -, hlen⟩ := self_select hs h
  rw [State.nUnits, State.nUnits, hlen]

/-- A step of a unit changes no other. -/
theorem unitStep_sameOthers {s t : State} (h : s.unitStep = .next t) : s.SameOthers t := by
  obtain ⟨-, rfl⟩ | ⟨-, code, info, -, rfl⟩ | ⟨-, i, hi⟩ := unitStep_next h
  · exact ⟨rfl, rfl⟩
  · exact ⟨rfl, rfl⟩
  · obtain ⟨hself, hothers, -⟩ := exec_sameOutside hi
    exact ⟨hself, hothers⟩

/-- The host's read of a byte changes no unit. -/
theorem hostMemRead_sameOthers {s t : State} {a : Word} (h : s.hostMemRead a = .next t) :
    s.SameOthers t := by
  unfold State.hostMemRead at h
  split at h
  · cases h
    exact ⟨rfl, rfl⟩
  · cases h

/-- A hardware reset is of one unit, selected for it. -/
theorem hardwareReset_next {s t : State} {u : Nat} (h : s.hardwareReset u = .next t) :
    ∃ v, s.select u = some v ∧ t = { v with unit := UnitState.reset } := by
  unfold State.hardwareReset at h
  split at h
  · cases h
  · next v hv => exact ⟨v, hv, by simpa using h.symm⟩

/-- The step of a named unit is that unit's, selected for it. -/
theorem handle_unitStep_next {s t : State} {u : Nat} (h : s.handle (.unitStep u) = .next t) :
    ∃ v, s.select u = some v ∧ v.unitStep = .next t := by
  simp only [State.handle] at h
  split at h
  · cases h
  · next v hv => exact ⟨v, hv, h⟩

/-- Every event acts on the machine as it stands or on the machine with one unit selected, and changes
nothing of the units beside the selected one. -/
theorem handle_next_sameOthers {s t : State} {e : Event} (h : s.handle e = .next t) :
    s.SameOthers t ∨ ∃ u v, s.select u = some v ∧ v.SameOthers t := by
  cases e with
  | unitStep u =>
    obtain ⟨v, hv, hstep⟩ := handle_unitStep_next h
    exact .inr ⟨u, v, hv, unitStep_sameOthers hstep⟩
  | memWrite a b =>
    cases h
    obtain ⟨m, r, hw, -⟩ := hostMemWrite_eq s a b
    exact .inl (by rw [hw]; exact ⟨rfl, rfl⟩)
  | memRead a => exact .inl (hostMemRead_sameOthers h)
  | lineRead line =>
    cases h
    obtain ⟨r, hl⟩ := hostLineRead_eq s line
    exact .inl (by rw [hl]; exact ⟨rfl, rfl⟩)
  | mmioRead addr size =>
    obtain ⟨u, off, v, r, -, hv, rfl⟩ := hostRead_next h
    exact .inr ⟨u, v, hv, rfl, rfl⟩
  | mmioWrite addr size w =>
    obtain ⟨u, off, v, -, hv, rfl⟩ := hostWrite_next h
    obtain ⟨r, hw⟩ := afterHostWrite_eq v (v.unit.mmioWrite w (mmioReg off))
    exact .inr ⟨u, v, hv, by rw [hw]; exact ⟨rfl, rfl⟩⟩
  | hwReset u =>
    obtain ⟨v, hv, rfl⟩ := hardwareReset_next h
    exact .inr ⟨u, v, hv, rfl, rfl⟩

/-- An event changes no unit but the one it leaves selected, and the number of units stays. -/
theorem handle_keeps_other_units {s t : State} {e : Event} (hs : s.self ≤ s.others.length)
    (h : s.handle e = .next t) :
    t.nUnits = s.nUnits ∧ ∀ k, k ≠ t.self → t.units[k]? = s.units[k]? := by
  obtain hsame | ⟨u, v, hv, hsame⟩ := handle_next_sameOthers h
  · exact ⟨hsame.nUnits, fun k hk => hsame.getElem?_units hk⟩
  · refine ⟨hsame.nUnits.trans (nUnits_select hs hv), fun k hk => ?_⟩
    rw [hsame.getElem?_units hk, units_select hv]

/-- With an event pending the machine takes it off the agenda and handles it. -/
theorem step_of_event {s : State} {e : Event} {rest : List Event} (h : s.agenda = e :: rest) :
    step s = ({ s with agenda := rest } : State).handle e := by
  simp [step, State.advanceMachine, h]

/-- Settles O60: a step is the selected unit's own or one event's, and neither changes another unit. -/
theorem unitsAreIsolated : Obligations.UnitsAreIsolated := by
  intro s t hs h
  cases hagenda : s.agenda with
  | nil =>
    rw [step_of_no_event hagenda] at h
    have hsame := unitStep_sameOthers h
    exact ⟨hsame.nUnits, fun k hk => hsame.getElem?_units hk⟩
  | cons e rest =>
    rw [step_of_event hagenda] at h
    exact handle_keeps_other_units (s := { s with agenda := rest }) hs h

end Sys2Proof.Machine
end

section
/-! What a host write does to a unit, register by register (10_state.md R40 to R47): one lemma per kind of
register, and what a pair of halves written into a table or a block reads as. -/

namespace Sys2Proof.Machine

/-! ### The two halves of a word -/

theorem evenIdx_ne_oddIdx (j : Fin 32) : evenIdx j ≠ oddIdx j := by
  simp [evenIdx, oddIdx]

/-- A vector with entries 2j and 2j + 1 written, entry by entry. -/
theorem getElem_set_even_odd {α : Type} (q : Vector α 64) (j : Fin 32) (a b : α) (k : Fin 64) :
    ((q.set (evenIdx j) a).set (oddIdx j) b)[k]
      = if k = oddIdx j then b else if k = evenIdx j then a else q[k] := by
  simp only [Fin.getElem_fin, Vector.getElem_set, Fin.ext_iff, eq_comm]

theorem toNat_floorAtOne (v : Half) : (floorAtOne v).toNat = max 1 v.toNat := by
  unfold floorAtOne
  split <;> bv_omega

theorem one_le_floorAtOne (v : Half) : 1 ≤ (floorAtOne v).toNat := by
  rw [toNat_floorAtOne]
  exact le_max_left ..

/-- Clearing the two low bits of a word makes it a multiple of 4 (10_state.md R38). -/
theorem aligned_and_mask (v : Word) : (v &&& 0xFFFFFFFC).toNat % 4 = 0 := by
  rw [BitVec.toNat_and, show 4 = 2 ^ 2 from rfl, Nat.and_mod_two_pow]
  simp

/-! ### Which write a host write is -/

@[simp] theorem mmioWrite_ctrl (u : UnitState) (v : Word) : u.mmioWrite v .ctrl = u.writeCtrl v := rfl

@[simp] theorem mmioWrite_status (u : UnitState) (v : Word) :
    u.mmioWrite v .status = u.writeStatus v := rfl

/-- Every register but CTRL and STATUS is written only while the unit is idle (10_state.md R46). -/
theorem mmioWrite_idle (u : UnitState) (v : Word) {r : MmioReg} (hc : r ≠ .ctrl) (hs : r ≠ .status) :
    u.mmioWrite v r = if u.busy then u else u.writeIdle v r := by
  cases r with
  | ctrl => exact absurd rfl hc
  | status => exact absurd rfl hs
  | _ => rfl

theorem mmioWrite_of_idle {u : UnitState} (hu : u.busy = false) (v : Word) {r : MmioReg}
    (hc : r ≠ .ctrl) (hs : r ≠ .status) : u.mmioWrite v r = u.writeIdle v r := by
  rw [mmioWrite_idle u v hc hs, hu]
  rfl

theorem mmioWrite_of_busy {u : UnitState} (hu : u.busy = true) (v : Word) {r : MmioReg}
    (hc : r ≠ .ctrl) (hs : r ≠ .status) : u.mmioWrite v r = u := by
  rw [mmioWrite_idle u v hc hs, hu]
  rfl

theorem writeCtrl_of_srst (u : UnitState) {v : Word} (h : v.getLsbD 1 = true) :
    u.writeCtrl v = UnitState.reset := if_pos h

@[simp] theorem clearBlocks_bvalid (u : UnitState) (v : Word) (n : BReg) :
    (u.clearBlocks v).bvalid[n] = (u.bvalid[n] && !v.getLsbD n.val) := by
  simp [UnitState.clearBlocks]

@[simp] theorem clearBlocks_blocks (u : UnitState) (v : Word) (n : BReg) :
    (u.clearBlocks v).blocks[n] = if v.getLsbD n.val then Block.zero else u.blocks[n] := by
  simp [UnitState.clearBlocks]

@[simp] theorem writeStatus_done (u : UnitState) (v : Word) :
    (u.writeStatus v).done = (u.done && !v.getLsbD 1) := rfl

@[simp] theorem writeStatus_fault (u : UnitState) (v : Word) :
    (u.writeStatus v).fault = (u.fault && !v.getLsbD 2) := rfl

@[simp] theorem writeStatus_fcode (u : UnitState) (v : Word) :
    (u.writeStatus v).fcode = if v.getLsbD 2 then .none else u.fcode := rfl

/-! ### What a write of a table word or of a block word leaves in the entries -/

theorem writeIdle_qt_entry (u : UnitState) (v : Word) (t : Table) (j : Fin 32) (k : Fin 64) :
    (u.writeIdle v (.qt t j)).qt[t][k]
      = if k = oddIdx j then floorAtOne (highHalf v)
        else if k = evenIdx j then floorAtOne (lowHalf v) else u.qt[t][k] := by
  rw [← getElem_set_even_odd]
  simp [UnitState.writeIdle]

theorem writeIdle_blk_entry (u : UnitState) (v : Word) (n : BReg) (j : Fin 32) (k : Fin 64) :
    (u.writeIdle v (.blk n j)).blocks[n][k]
      = if k = oddIdx j then highHalf v
        else if k = evenIdx j then lowHalf v else u.blocks[n][k] := by
  rw [← getElem_set_even_odd]
  simp [UnitState.writeIdle]

end Sys2Proof.Machine
end

section
/-! The invariant of legal states (10_state.md R24, R27, R38, R41): it holds at reset, and every command,
fault and host access keeps a unit legal. -/

namespace Sys2Proof.Machine

/-! ### Reset -/

/-- Settles O9: a soft reset leaves the reset state of the unit, and each of its rows is R48's. -/
theorem resetValues : Obligations.ResetValues := by
  intro r hr
  have hreset : r = UnitState.reset := by
    obtain rfl | ⟨u, v, hv, rfl⟩ := hr
    · rfl
    · exact writeCtrl_of_srst u hv
  subst hreset
  refine ⟨fun n i => ?_, fun n => ?_, fun t k => ?_, fun p => ?_, rfl, rfl, rfl, rfl⟩
  · simp [UnitState.reset]
  · simp [UnitState.reset]
  · simp [UnitState.reset, QTable.ones]
  · simp [UnitState.reset, PlaneDesc.reset]

theorem legal_reset : UnitState.reset.Legal := by
  refine ⟨rfl, fun t k => ?_, by decide, fun n _ => ?_⟩
  · simp [UnitState.reset, QTable.ones]
  · simp [UnitState.reset]

/-- Settles O10: the one unit is the reset unit, and the empty memory is canonical. -/
theorem invAtReset : Obligations.InvAtReset :=
  ⟨legal_reset, by simp [State.reset], le_rfl, wf_reset⟩

/-! ### Units -/

/-- A running unit with legal status has no DONE, no FAULT and no fault code. -/
theorem status_of_busy {u : UnitState} (h : u.StatusLegal) (hb : u.busy = true) :
    u.done = false ∧ u.fault = false ∧ u.fcode = .none := by
  obtain ⟨hrun, -, hcode⟩ := h
  obtain ⟨hd, hf⟩ := hrun hb
  refine ⟨hd, hf, ?_⟩
  simpa [hf] using hcode

/-- No command writes FAULT or FCODE by its own rule. -/
theorem Effect.fault_fcode {i : Instr} {u₀ u : UnitState} (h : Effect i u₀ u) :
    u.fault = u₀.fault ∧ u.fcode = u₀.fcode := by
  have hnot : RegName.fault ∉ writesOf i ∧ RegName.fcode ∉ writesOf i := by
    cases i <;> simp [writesOf]
  exact ⟨h.frame .fault (by decide) hnot.1, h.frame .fcode (by decide) hnot.2⟩

/-- What a command leaves of BUSY and DONE: they stay, or HALT ended the run. -/
theorem Effect.busy_done {i : Instr} {u₀ u : UnitState} (h : Effect i u₀ u) :
    (u.busy = u₀.busy ∧ u.done = u₀.done) ∨ (u.busy = false ∧ u.done = true) := by
  by_cases hi : i = .halt
  · exact .inr (h.halted hi)
  · exact .inl (h.run hi)

/-- A command that a legal running unit completes leaves it legal. -/
theorem legal_complete {i : Instr} {u₀ u : UnitState} (h : Effect i u₀ u) (hl : u₀.Legal)
    (hb : u₀.busy = true) : u.complete.Legal := by
  obtain ⟨hpc, hqt, hst, hz⟩ := hl
  obtain ⟨hd, hf, hc⟩ := status_of_busy hst hb
  obtain ⟨hf', hc'⟩ := h.fault_fcode
  refine ⟨by simpa using h.aligned hpc, by simpa using h.tables hqt, ?_, by simpa using h.zeros hz⟩
  obtain ⟨hb', hd'⟩ | ⟨hb', hd'⟩ := h.busy_done
  · cases hs : u.sstep <;> simp [UnitState.StatusLegal, hf', hc', hf, hc, hb', hd', hb, hd, hs]
  · simp [UnitState.StatusLegal, hf', hc', hf, hc, hb', hd']

/-- A fault that a legal running unit takes leaves it legal. -/
theorem legal_enterFault {u : UnitState} {code : FaultCode} (info : Word) (hl : u.Legal)
    (hb : u.busy = true) (hcode : code ≠ .none) : (u.enterFault code info).Legal := by
  obtain ⟨hpc, hqt, hst, hz⟩ := hl
  obtain ⟨hd, -, -⟩ := status_of_busy hst hb
  exact ⟨hpc, hqt, by simp [UnitState.StatusLegal, hd, hcode], hz⟩

/-! ### Host writes -/

/-- START runs an idle unit without a pending fault, and clears DONE with it (70_reset_and_hazards.md
R294). -/
theorem legal_start {u : UnitState} (hl : u.Legal) : u.start.Legal := by
  unfold UnitState.start
  split
  · exact hl
  next h =>
    obtain ⟨hpc, hqt, ⟨-, -, hcode⟩, hz⟩ := hl
    have hf : u.fault = false := by simp_all
    exact ⟨hpc, hqt, ⟨fun _ => ⟨rfl, hf⟩, by simp, hcode⟩, hz⟩

theorem legal_writeCtrl {u : UnitState} (v : Word) (hl : u.Legal) : (u.writeCtrl v).Legal := by
  unfold UnitState.writeCtrl
  split
  · exact legal_reset
  · dsimp only
    split
    · exact legal_start hl
    · exact hl

/-- Clearing FAULT clears FCODE with it, and clearing DONE needs nothing else (10_state.md R41). -/
theorem legal_writeStatus {u : UnitState} (v : Word) (hl : u.Legal) : (u.writeStatus v).Legal := by
  obtain ⟨hpc, hqt, ⟨hrun, hexcl, hcode⟩, hz⟩ := hl
  refine ⟨hpc, hqt, ⟨fun hb => ?_, ?_, ?_⟩, hz⟩
  · obtain ⟨hd, hf⟩ := hrun hb
    simp [hd, hf]
  · simp only [writeStatus_done, writeStatus_fault, Bool.and_eq_true]
    exact fun ⟨hd, hf⟩ => hexcl ⟨hd.1, hf.1⟩
  · rw [writeStatus_fault, writeStatus_fcode]
    cases v.getLsbD 2 with
    | true => simp
    | false => simpa using hcode

theorem zeros_clearBlocks {u : UnitState} (v : Word)
    (h : ∀ n : BReg, u.bvalid[n] = false → u.blocks[n] = Block.zero) (n : BReg)
    (hn : (u.clearBlocks v).bvalid[n] = false) : (u.clearBlocks v).blocks[n] = Block.zero := by
  rw [clearBlocks_bvalid] at hn
  rw [clearBlocks_blocks]
  cases hv : v.getLsbD n.val with
  | true => rfl
  | false => exact h n (by simpa only [hv, Bool.not_false, Bool.and_true] using hn)

/-- A table whose entries are at least 1 keeps them so when a word of it is written (10_state.md R27). -/
theorem tables_writeIdle_qt {u : UnitState} (v : Word) (t : Table) (j : Fin 32)
    (h : ∀ (t : Table) (k : Fin 64), 1 ≤ u.qt[t][k].toNat) (m : Table) (k : Fin 64) :
    1 ≤ (u.writeIdle v (.qt t j)).qt[m][k].toNat := by
  by_cases hm : m = t
  · subst hm
    rw [writeIdle_qt_entry]
    split
    · exact one_le_floorAtOne _
    · split
      · exact one_le_floorAtOne _
      · exact h m k
  · have hother : (u.writeIdle v (.qt t j)).qt[m] = u.qt[m] := tables_set_of_ne _ _ _ _ hm
    rw [hother]
    exact h m k

theorem legal_writeIdle {u : UnitState} (v : Word) (r : MmioReg) (hl : u.Legal) :
    (u.writeIdle v r).Legal := by
  obtain ⟨hpc, hqt, hst, hz⟩ := hl
  cases r with
  | pc => exact ⟨aligned_and_mask v, hqt, hst, hz⟩
  | bvalid => exact ⟨hpc, hqt, hst, zeros_clearBlocks v hz⟩
  | blk n j => exact ⟨hpc, hqt, hst, zeros_setBlock n _ hz⟩
  | qt t j => exact ⟨hpc, tables_writeIdle_qt v t j hqt, hst, hz⟩
  | _ => exact ⟨hpc, hqt, hst, hz⟩

/-- Every host write of a register leaves a legal unit legal. -/
theorem legal_mmioWrite {u : UnitState} (v : Word) (r : MmioReg) (hl : u.Legal) :
    (u.mmioWrite v r).Legal := by
  by_cases hc : r = .ctrl
  · subst hc; exact legal_writeCtrl v hl
  by_cases hs : r = .status
  · subst hs; exact legal_writeStatus v hl
  rw [mmioWrite_idle u v hc hs]
  split
  · exact hl
  · exact legal_writeIdle v r hl

/-! ### The machine -/

/-- A step that leaves the other units alone keeps the invariant where it keeps the unit legal and memory
canonical. -/
theorem State.SameOthers.inv {s t : State} (h : s.SameOthers t) (hs : s.Inv) (hu : t.unit.Legal)
    (hm : t.mem.wf = true) : t.Inv := by
  obtain ⟨hself, hothers⟩ := h
  obtain ⟨-, hlegal, hle, -⟩ := hs
  exact ⟨hu, hothers ▸ hlegal, by rw [hself, hothers]; exact hle, hm⟩

/-- In a state of the invariant all units are legal. -/
theorem legal_of_mem_units {s : State} (hs : s.Inv) {x : UnitState} (hx : x ∈ s.units) : x.Legal := by
  obtain ⟨hunit, hothers, hle, -⟩ := hs
  obtain rfl | hx := (List.mem_insertIdx hle).mp hx
  · exact hunit
  · exact hothers x hx

/-- Selecting a unit keeps the invariant. -/
theorem inv_select {s v : State} {u : Nat} (hs : s.Inv) (h : s.select u = some v) : v.Inv := by
  obtain ⟨-, -, hself, hwf⟩ := id hs
  obtain ⟨-, hle, -⟩ := self_select hself h
  obtain ⟨x, hx, rfl⟩ := select_spec h
  exact ⟨legal_of_mem_units hs (List.mem_of_getElem? hx),
    fun y hy => legal_of_mem_units hs (List.mem_of_mem_eraseIdx hy), hle, hwf⟩

/-- What a command stored keeps memory canonical. -/
theorem wf_storeBytes {s : State} (h : s.mem.wf = true) (cells : List (Word × Byte)) :
    (s.storeBytes cells).1.mem.wf = true := by
  obtain ⟨done, -, hm⟩ := storeBytes_mem s cells
  rw [hm]
  exact wf_writeCells done h

/-- A step of the selected unit keeps the invariant: the unit idles, takes a fault, or runs a command. -/
theorem inv_unitStep {s t : State} (hs : s.Inv) (h : s.unitStep = .next t) : t.Inv := by
  have hsame := unitStep_sameOthers h
  obtain ⟨hunit, -, -, hwf⟩ := id hs
  obtain ⟨-, rfl⟩ | ⟨hb, code, info, hcode, rfl⟩ | ⟨hb, i, hi⟩ := unitStep_next h
  · exact hs
  · exact hsame.inv hs (legal_enterFault info hunit hb hcode) hwf
  · obtain ⟨cells, m, st, rfl, -, ⟨u, hu, rfl⟩ | ⟨code, info, hcode, rfl⟩⟩ := exec_next hi
    · exact hsame.inv hs (legal_complete hu hunit hb) (wf_storeBytes hwf cells)
    · exact hsame.inv hs (legal_enterFault info hunit hb hcode) (wf_storeBytes hwf cells)

/-- The host's read of a byte of memory changes what the host last read and takes a draw. -/
theorem hostMemRead_next {s t : State} {a : Word} (h : s.hostMemRead a = .next t) :
    ∃ d, t = { s with hostData := d, draws := s.draws + 1 } := by
  unfold State.hostMemRead at h
  split at h
  · cases h; exact ⟨_, rfl⟩
  · cases h

/-- Every event keeps the invariant. -/
theorem inv_handle {s t : State} {e : Event} (hs : s.Inv) (h : s.handle e = .next t) : t.Inv := by
  obtain ⟨hunit, hothers, hself, hwf⟩ := id hs
  cases e with
  | unitStep u =>
    obtain ⟨v, hv, hstep⟩ := handle_unitStep_next h
    exact inv_unitStep (inv_select hs hv) hstep
  | memWrite a b =>
    cases h
    have hwf' := wf_hostMemWrite hwf a b
    obtain ⟨m, r, hw, -⟩ := hostMemWrite_eq s a b
    rw [hw] at hwf' ⊢
    exact ⟨hunit, hothers, hself, hwf'⟩
  | memRead a =>
    obtain ⟨d, rfl⟩ := hostMemRead_next h
    exact hs
  | lineRead line =>
    cases h
    obtain ⟨r, hl⟩ := hostLineRead_eq s line
    rw [hl]
    exact hs
  | mmioRead addr size =>
    obtain ⟨u, off, v, r, -, hv, rfl⟩ := hostRead_next h
    have hinv : v.Inv := inv_select hs hv
    exact hinv
  | mmioWrite addr size w =>
    obtain ⟨u, off, v, -, hv, rfl⟩ := hostWrite_next h
    obtain ⟨hlegal, hrest⟩ := inv_select hs hv
    obtain ⟨r, hw⟩ := afterHostWrite_eq v (v.unit.mmioWrite w (mmioReg off))
    rw [hw]
    exact ⟨legal_mmioWrite w _ hlegal, hrest⟩
  | hwReset u =>
    obtain ⟨v, hv, rfl⟩ := hardwareReset_next h
    obtain ⟨-, hrest⟩ := inv_select hs hv
    exact ⟨legal_reset, hrest⟩

/-- Settles O11: a step is the selected unit's own or one event's, and both keep the invariant. -/
theorem everyStepKeepsInv : Obligations.EveryStepKeepsInv := by
  intro s t hs h
  cases hagenda : s.agenda with
  | nil => exact inv_unitStep hs (step_of_no_event hagenda ▸ h)
  | cons e rest => exact inv_handle (s := { s with agenda := rest }) hs (step_of_event hagenda ▸ h)

end Sys2Proof.Machine
end

section
/-! The registers a host write changes and leaves alone (10_state.md R44 to R46,
70_reset_and_hazards.md R296), and the writes of tables, blocks, BVALID and STATUS. -/

namespace Sys2Proof.Machine

/-! ### Frames -/

/-- The fields of every plane descriptor after a host write, each changed by the write of its own register
only. -/
theorem writeIdle_pd (u : UnitState) (v : Word) (r : MmioReg) (p : Plane) :
    (u.writeIdle v r).pd[p]
      = { base := if r = .pdBase p then v else u.pd[p].base
          stride := if r = .pdStride p then lowHalf v else u.pd[p].stride
          width := if r = .pdWidth p then lowHalf v else u.pd[p].width
          height := if r = .pdHeight p then lowHalf v else u.pd[p].height } := by
  have hset : ∀ (q : Plane) (f : PlaneDesc → PlaneDesc),
      (u.setPlane q f).pd[p] = if q = p then f u.pd[p] else u.pd[p] := by
    intro q f
    simp only [UnitState.setPlane, Fin.getElem_fin, Vector.getElem_set, Fin.ext_iff]
    split
    next h => simp only [h]
    next => rfl
  cases r with
  | pdBase q | pdStride q | pdWidth q | pdHeight q =>
    by_cases hq : q = p <;> simp [UnitState.writeIdle, hset, hq]
  | _ => simp [UnitState.writeIdle, UnitState.clearBlocks]

theorem same_setPlane {u : UnitState} (p : Plane) (f : PlaneDesc → PlaneDesc) (r : RegName)
    (h : r ∉ [RegName.plane p]) : r.same u (u.setPlane p f) := by
  cases r with
  | plane q =>
    have hne : p.val ≠ q.val := fun e => h (by simp [Fin.ext e])
    exact Vector.getElem_set_ne p.isLt q.isLt hne
  | lc n => cases n <;> rfl
  | _ => rfl

theorem same_clearBlocks {u : UnitState} (v : Word) (r : RegName)
    (h : r ∉ hostWritesOf .bvalid) : r.same u (u.clearBlocks v) := by
  cases r with
  | block n => exact absurd (by simp [hostWritesOf]) h
  | valid n => exact absurd (by simp [hostWritesOf]) h
  | lc n => cases n <;> rfl
  | _ => rfl

theorem same_writeStatus (u : UnitState) (v : Word) (r : RegName)
    (h : r ∉ hostWritesOf .status) : r.same u (u.writeStatus v) := by
  cases r with
  | done | fault | fcode => exact absurd (by simp [hostWritesOf]) h
  | lc n => cases n <;> rfl
  | _ => rfl

/-- A host write of a register that is written while the unit is idle changes no register but its own. -/
theorem same_writeIdle (u : UnitState) (v : Word) (r : MmioReg) (n : RegName)
    (h : n ∉ hostWritesOf r) : n.same u (u.writeIdle v r) := by
  cases r with
  | bvalid => exact same_clearBlocks v n h
  | blk b j => exact same_setBlock b _ n h
  | qt t j => exact same_setTable t _ n (by simpa [hostWritesOf] using h)
  | pdBase p | pdStride p | pdWidth p | pdHeight p => exact same_setPlane p _ n h
  | id | unitId | ctrl | status | faultPc | faultInfo | reserved => exact n.same_refl u
  | pc | cmdcnt | bsp | bse | pos | mv | lc | acc | flags =>
    cases n with
    | lc c => cases c <;> simp_all [RegName.same, hostWritesOf, UnitState.writeIdle, UnitState.counter]
    | _ => simp_all [RegName.same, hostWritesOf, UnitState.writeIdle]

/-- A read-only or reserved register ignores host writes. -/
theorem mmioWrite_of_readOnly (u : UnitState) (v : Word) {r : MmioReg} (hc : r ≠ .ctrl)
    (h : hostWritesOf r = []) : u.mmioWrite v r = u := by
  cases r with
  | id | unitId | faultPc | faultInfo | reserved => exact ite_self u
  | ctrl => exact absurd rfl hc
  | _ => exact absurd h (by simp [hostWritesOf])

/-- While it runs, a unit in a legal state has nothing in STATUS to clear. -/
theorem writeStatus_of_busy {u : UnitState} (v : Word) (hl : u.StatusLegal) (hb : u.busy = true) :
    u.writeStatus v = u := by
  obtain ⟨hd, hf, hc⟩ := status_of_busy hl hb
  cases u
  simp_all [UnitState.writeStatus]

/-- Settles O56: a write is STATUS's, or an idle register's framed by its kind, or ignored. -/
theorem hostWritesOnlyItsRegister : Obligations.HostWritesOnlyItsRegister := by
  intro u v r hc
  by_cases hs : r = .status
  · subst hs
    exact ⟨same_writeStatus u v, fun h => absurd h (by simp [hostWritesOf]),
      fun p => ⟨fun _ => rfl, fun _ => rfl, fun _ => rfl, fun _ => rfl⟩,
      fun hb hl => writeStatus_of_busy v (hl rfl) hb⟩
  refine ⟨fun n hn => ?_, mmioWrite_of_readOnly u v hc, fun p => ?_,
    fun hb _ => mmioWrite_of_busy hb v hc hs⟩
  · rw [mmioWrite_idle u v hc hs]
    split
    · exact n.same_refl u
    · exact same_writeIdle u v r n hn
  · rw [mmioWrite_idle u v hc hs]
    split
    · exact ⟨fun _ => rfl, fun _ => rfl, fun _ => rfl, fun _ => rfl⟩
    · rw [writeIdle_pd]
      exact ⟨fun h => if_neg h, fun h => if_neg h, fun h => if_neg h, fun h => if_neg h⟩

/-! ### Halves of words -/

theorem toNat_append_add {m n : Nat} (x : BitVec m) (y : BitVec n) :
    (x ++ y).toNat = x.toNat * 2 ^ n + y.toNat := by
  rw [BitVec.toNat_append, ← Nat.shiftLeft_add_eq_or_of_lt y.isLt, Nat.shiftLeft_eq]

theorem toNat_packHalves (lo hi : Half) : (packHalves lo hi).toNat = lo.toNat + 65536 * hi.toNat := by
  rw [packHalves, toNat_append_add]
  omega

theorem toNat_lowHalf (v : Word) : (lowHalf v).toNat = v.toNat % 65536 := by
  simp [lowHalf]

theorem toNat_highHalf (v : Word) : (highHalf v).toNat = v.toNat / 65536 := by
  have := v.isLt
  simp only [highHalf, BitVec.extractLsb'_toNat, Nat.shiftRight_eq_div_pow]
  omega

theorem packHalves_halves (v : Word) : packHalves (lowHalf v) (highHalf v) = v := by
  apply BitVec.eq_of_toNat_eq
  rw [toNat_packHalves, toNat_lowHalf, toNat_highHalf]
  omega

/-! ### Tables, blocks and valid bits -/

/-- Settles O58: each clause is an entry of the table or block word written, or a bit of BVALID. -/
theorem hostWritesTablesAndValidBits : Obligations.HostWritesTablesAndValidBits := by
  intro u v n t j c k
  refine ⟨?_, fun hb => ?_⟩
  · exact (toNat_packHalves _ _).trans (by rw [Nat.mul_comm])
  have hidle : ∀ r : MmioReg, r ≠ .ctrl → r ≠ .status → u.mmioWrite v r = u.writeIdle v r :=
    fun _ hc hs => mmioWrite_of_idle hb v hc hs
  rw [hidle (.qt t j) nofun nofun, hidle (.blk n j) nofun nofun, hidle .bvalid nofun nofun]
  refine ⟨fun i heven hodd => ?_, ?_, ?_, ?_, ?_, ?_, fun hv => ?_, fun hv => ?_⟩
  · rw [writeIdle_qt_entry, writeIdle_blk_entry, if_neg hodd, if_neg heven, if_neg hodd, if_neg heven]
    exact ⟨rfl, rfl⟩
  · rw [writeIdle_qt_entry, if_neg (evenIdx_ne_oddIdx j), if_pos rfl, toNat_floorAtOne, toNat_lowHalf]
  · rw [writeIdle_qt_entry, if_pos rfl, toNat_floorAtOne, toNat_highHalf]
  · rw [elem, writeIdle_blk_entry, if_neg (evenIdx_ne_oddIdx j), if_pos rfl, lowHalf]
  · rw [elem, writeIdle_blk_entry, if_pos rfl, highHalf]
  · simp [UnitState.writeIdle]
  · rw [UnitState.writeIdle, clearBlocks_bvalid, clearBlocks_blocks, hv]
    exact ⟨Bool.and_false _, elem_zero⟩
  · rw [UnitState.writeIdle, clearBlocks_bvalid, clearBlocks_blocks, hv]
    exact ⟨Bool.and_true _, rfl⟩

/-! ### STATUS and the interrupt lines -/

/-- A host line is high exactly when some unit that IRQ_ROUTE wires to it drives it (60_exceptions.md
R265). -/
theorem hostLine_iff {s : State} (hs : s.self ≤ s.others.length) (line : Nat) :
    s.hostLine line = true ↔ ∃ (u : Nat) (x : UnitState), s.units[u]? = some x
      ∧ s.plat.irqRoute[u]? = some line ∧ x.ie = true ∧ (x.done = true ∨ x.fault = true) := by
  have hdrivers : s.hostLine line = true ↔ ∃ u, u ∈ s.drivers line := by
    rw [State.hostLine, Bool.not_eq_true', List.isEmpty_eq_false_iff_exists_mem]
  rw [hdrivers]
  refine exists_congr fun u => ?_
  simp only [State.drivers, List.mem_filter, List.mem_range]
  constructor
  · rintro ⟨-, hu⟩
    split at hu
    next x l hx hl =>
      simp only [UnitState.irq, Bool.and_eq_true, Bool.or_eq_true, beq_iff_eq] at hu
      obtain ⟨rfl, hirq⟩ := hu
      exact ⟨x, hx, hl, hirq⟩
    next => cases hu
  · rintro ⟨x, hx, hl, hirq⟩
    refine ⟨length_units hs ▸ (List.getElem?_eq_some_iff.mp hx).1, ?_⟩
    simpa [hx, hl, UnitState.irq] using hirq

/-- Settles O59: STATUS is written bit by bit, and looking at a line changes the host's data and the races
only. -/
theorem statusWriteOneToClear : Obligations.StatusWriteOneToClear := by
  refine ⟨fun u v => ?_, fun s line rest hs hagenda => ?_⟩
  · dsimp only
    rw [mmioWrite_status]
    refine ⟨fun h2 => ?_, fun h2 => ?_, fun h1 => ?_, fun h1 => ?_, fun h1 h2 => ?_,
      fun r hr => same_writeStatus u v r hr⟩
    · rw [writeStatus_fault, writeStatus_fcode, h2]
      exact ⟨Bool.and_false _, rfl⟩
    · rw [writeStatus_fault, writeStatus_fcode, h2]
      exact ⟨Bool.and_true _, rfl⟩
    · rw [writeStatus_done, h1]
      exact Bool.and_false _
    · rw [writeStatus_done, h1]
      exact Bool.and_true _
    · rw [UnitState.irq, writeStatus_done, writeStatus_fault, h1, h2]
      simp
  · obtain ⟨r, hl⟩ := hostLineRead_eq { s with agenda := rest } line
    have hlevel : ∀ b : Bool, ((if b then 1 else 0 : Word) = 0 ∨ (if b then 1 else 0 : Word) = 1)
        ∧ ((if b then 1 else 0 : Word) = 1 ↔ b = true) := by decide
    refine ⟨_, (step_of_event hagenda).trans (congrArg Host.Outcome.next hl), rfl, rfl, rfl, rfl, ?_⟩
    rw [← hostLine_iff hs line]
    exact hlevel (s.hostLine line)

end Sys2Proof.Machine
end

section
/-! The register map of 10_state.md R44 as the host sees it: offsets, read values, and the steps that take the
events of host accesses. -/

namespace Sys2Proof.Machine

/-! ### Offsets -/

theorem mmioReg_plane (p : Plane) :
    mmioReg (0x040 + 0x10 * p.val) = .pdBase p ∧ mmioReg (0x044 + 0x10 * p.val) = .pdStride p
      ∧ mmioReg (0x048 + 0x10 * p.val) = .pdWidth p
      ∧ mmioReg (0x04C + 0x10 * p.val) = .pdHeight p := by
  revert p
  decide

theorem mmioReg_blk (n : BReg) (j : Fin 32) : mmioReg (0x400 + 0x80 * n.val + 4 * j.val) = .blk n j := by
  have hn := n.isLt
  have hj := j.isLt
  rw [mmioReg, if_neg (by omega), if_neg (by omega), if_neg (by omega), if_pos (by omega)]
  congr 1 <;> ext <;> simp only [Fin.ofNat] <;> omega

theorem mmioReg_qt (t : Table) (j : Fin 32) : mmioReg (0x800 + 0x80 * t.val + 4 * j.val) = .qt t j := by
  have ht := t.isLt
  have hj := j.isLt
  rw [mmioReg, if_neg (by omega), if_neg (by omega), if_neg (by omega), if_neg (by omega),
    if_pos (by omega)]
  congr 1 <;> ext <;> simp only [Fin.ofNat] <;> omega

theorem mmioReg_reserved {off : Nat} (h : 0x080 ≤ off ∧ off < 0x400 ∨ 0xA00 ≤ off) :
    mmioReg off = .reserved := by
  rw [mmioReg, if_neg (by omega), if_neg (by omega)]
  obtain ⟨-, hlt⟩ | hge := h
  · rw [if_pos hlt]
  · rw [if_neg (by omega), if_neg (by omega), if_neg (by omega)]

/-! ### Read values -/

theorem toNat_ctrlWord (u : UnitState) : u.ctrlWord.toNat = 4 * u.ie.toNat + 8 * u.sstep.toNat := by
  simp only [UnitState.ctrlWord, toNat_append_add, BitVec.toNat_ofBool, BitVec.toNat_ofNat]
  omega

theorem toNat_num_of_mem {x : FaultCode × Nat} (h : x ∈ faultNumbers) : x.1.num.toNat = x.2 := by
  revert x
  decide

theorem toNat_statusWord (u : UnitState) : u.statusWord.toNat
    = u.busy.toNat + 2 * u.done.toNat + 4 * u.fault.toNat + 256 * u.fcode.num.toNat := by
  simp only [UnitState.statusWord, toNat_append_add, BitVec.toNat_ofBool, BitVec.toNat_ofNat]
  omega

theorem toNat_flag (b : Bool) : ((BitVec.ofBool b).setWidth 32 : Word).toNat = b.toNat := by
  cases b <;> rfl

theorem getLsbD_bvalidWord (u : UnitState) (n : Fin 32) :
    u.bvalidWord.getLsbD n.val = if h : n.val < 8 then u.bvalid[n.val] else false := by
  have hn := n.isLt
  simp only [UnitState.bvalidWord, BitVec.getLsbD_setWidth, BitVec.getLsbD_ofBoolListLE]
  split
  next h => simp [h, hn]
  next h => simp [h]

/-! ### What a register reads after a write -/

theorem and_full (v : Word) : v &&& 0xFFFFFFFF = v := BitVec.and_allOnes

theorem ofBool_bit_zero (v : Word) : (BitVec.ofBool (v.getLsbD 0)).setWidth 32 = v &&& 1 := by
  apply BitVec.eq_of_getLsbD_eq
  intro i hi
  cases i with
  | zero => simp
  | succ i => simp

theorem setWidth_lowHalf (v : Word) : (lowHalf v).setWidth 32 = v &&& 0xFFFF := by
  have hmask : v.toNat &&& 0xFFFF = v.toNat % 2 ^ 16 := Nat.and_two_pow_sub_one_eq_mod v.toNat 16
  apply BitVec.eq_of_toNat_eq
  rw [BitVec.toNat_setWidth, toNat_lowHalf, BitVec.toNat_and]
  exact (Nat.mod_eq_of_lt (by omega)).trans hmask.symm

/-- A block word reads as it was written. -/
theorem mmioRead_writeIdle_blk (u : UnitState) (v : Word) (c k : Nat) (n : BReg) (j : Fin 32) :
    (u.writeIdle v (.blk n j)).mmioRead c k (.blk n j) = v := by
  rw [UnitState.mmioRead, writeIdle_blk_entry, writeIdle_blk_entry, if_neg (evenIdx_ne_oddIdx j),
    if_pos rfl, if_pos rfl, packHalves_halves]

/-- The registers of a plane descriptor read what was written, the 16-bit ones its low half. -/
theorem mmioRead_writeIdle_plane (u : UnitState) (v : Word) (c k : Nat) (p : Plane) :
    (u.writeIdle v (.pdBase p)).mmioRead c k (.pdBase p) = v
      ∧ (u.writeIdle v (.pdStride p)).mmioRead c k (.pdStride p) = v &&& 0xFFFF
      ∧ (u.writeIdle v (.pdWidth p)).mmioRead c k (.pdWidth p) = v &&& 0xFFFF
      ∧ (u.writeIdle v (.pdHeight p)).mmioRead c k (.pdHeight p) = v &&& 0xFFFF := by
  simp only [UnitState.mmioRead, writeIdle_pd, if_true, setWidth_lowHalf, and_self]

/-- What an idle unit's register reads after a host write: the value written, under the register's mask. -/
theorem mmioRead_mmioWrite {u : UnitState} (hu : u.busy = false) (v : Word) (n : BReg) (p : Plane)
    (j : Fin 32) (c k : Nat) {r : MmioReg} {mask : Word}
    (h : (r, mask) ∈ [(.pc, 0xFFFFFFFC), (.cmdcnt, 0xFFFFFFFF), (.bsp, 0xFFFFFFFF),
      (.bse, 0xFFFFFFFF), (.pos, 0xFFFFFFFF), (.mv, 0xFFFFFFFF), (.lc, 0xFFFFFFFF),
      (.acc, 0xFFFFFFFF), (.flags, 1), (.pdBase p, 0xFFFFFFFF), (.pdStride p, 0xFFFF),
      (.pdWidth p, 0xFFFF), (.pdHeight p, 0xFFFF), (MmioReg.blk n j, 0xFFFFFFFF)]) :
    (u.mmioWrite v r).mmioRead c k r = v &&& mask := by
  have hc : r ≠ .ctrl := by rintro rfl; simp at h
  have hs : r ≠ .status := by rintro rfl; simp at h
  obtain ⟨hbase, hstride, hwidth, hheight⟩ := mmioRead_writeIdle_plane u v c k p
  have hpair : packHalves (lowHalf v) (highHalf v) = v &&& 0xFFFFFFFF := by
    rw [packHalves_halves, and_full]
  rw [mmioWrite_of_idle hu v hc hs]
  simp only [List.mem_cons, Prod.mk.injEq, List.not_mem_nil, or_false] at h
  obtain ⟨rfl, rfl⟩ | ⟨rfl, rfl⟩ | ⟨rfl, rfl⟩ | ⟨rfl, rfl⟩ | ⟨rfl, rfl⟩ | ⟨rfl, rfl⟩ | ⟨rfl, rfl⟩
    | ⟨rfl, rfl⟩ | ⟨rfl, rfl⟩ | ⟨rfl, rfl⟩ | ⟨rfl, rfl⟩ | ⟨rfl, rfl⟩ | ⟨rfl, rfl⟩ | ⟨rfl, rfl⟩ := h
  · rfl
  · exact (and_full v).symm
  · exact (and_full v).symm
  · exact (and_full v).symm
  · exact hpair
  · exact hpair
  · exact hpair
  · exact (and_full v).symm
  · exact ofBool_bit_zero v
  · rw [hbase, and_full]
  · exact hstride
  · exact hwidth
  · exact hheight
  · rw [mmioRead_writeIdle_blk, and_full]

/-! ### The step that takes the event of a host access -/

/-- An aligned host access to the block of a unit that exists acts on that unit, selected. -/
theorem hostAccess_eq {s v : State} {addr k off : Nat} (act : State → MmioReg → State)
    (ha : addr % 4 = 0) (hk : unitAtHostAddr addr 0 s.plat.mmioBase = some (k, off))
    (hv : s.select k = some v) : s.hostAccess addr 4 act = .next (act v (mmioReg off)) := by
  simp only [State.hostAccess, ha, hk, hv, and_self, if_true]

theorem hostRead_eq {s v : State} {addr k off : Nat} (ha : addr % 4 = 0)
    (hk : unitAtHostAddr addr 0 s.plat.mmioBase = some (k, off)) (hv : s.select k = some v) :
    ∃ r, s.hostRead addr 4
      = .next { v with hostData := v.unit.mmioRead v.nUnits v.self (mmioReg off), races := r } := by
  rw [State.hostRead, hostAccess_eq _ ha hk hv]
  dsimp only
  split
  · exact ⟨_, rfl⟩
  · exact ⟨_, rfl⟩

theorem hostWrite_eq {s v : State} {addr k off : Nat} (w : Word) (ha : addr % 4 = 0)
    (hk : unitAtHostAddr addr 0 s.plat.mmioBase = some (k, off)) (hv : s.select k = some v) :
    ∃ r, s.hostWrite addr 4 w
      = .next { v with unit := v.unit.mmioWrite w (mmioReg off), races := r } := by
  obtain ⟨r, hr⟩ := afterHostWrite_eq v (v.unit.mmioWrite w (mmioReg off))
  exact ⟨r, (hostAccess_eq _ ha hk hv).trans (congrArg Host.Outcome.next hr)⟩

/-- Selecting a unit for an event already taken off the agenda: the index is the unit's, and the units, memory
and the rest of the agenda are as they were. -/
theorem select_for_event {s v : State} {k : Nat} {rest : List Event} (hs : s.self ≤ s.others.length)
    (h : ({ s with agenda := rest } : State).select k = some v) :
    v.self = k ∧ v.units = s.units ∧ v.nUnits = s.nUnits ∧ v.mem = s.mem ∧ v.agenda = rest := by
  obtain ⟨hself, -, -⟩ := self_select (s := { s with agenda := rest }) hs h
  have hunits : v.units = s.units := units_select (s := { s with agenda := rest }) h
  have hn : v.nUnits = s.nUnits := nUnits_select (s := { s with agenda := rest }) hs h
  obtain ⟨x, -, rfl⟩ := select_spec h
  exact ⟨hself, hunits, hn, rfl, rfl⟩

/-- Settles O57: the map by its ranges, each read value by its packing, and the two host accesses by the unit
they select. -/
theorem hostRegisterMap : Obligations.HostRegisterMap := by
  refine ⟨⟨by decide, mmioReg_plane, mmioReg_blk, mmioReg_qt, fun _ => mmioReg_reserved⟩,
    fun u c k => ⟨rfl, fun hk => ?_, toNat_ctrlWord u, fun x hx hu => ?_, rfl, rfl, rfl, rfl, rfl, rfl,
      rfl, toNat_packHalves _ _, toNat_packHalves _ _, toNat_packHalves _ _, ?_, getLsbD_bvalidWord u,
      fun p => ⟨rfl, ?_, ?_, ?_⟩, fun t j => toNat_packHalves _ _, rfl⟩,
    fun u v n p j c k r mask hu hr => mmioRead_mmioWrite hu v n p j c k hr,
    fun s v addr k off w rest ha hk hs hv => ⟨fun hagenda => ?_, fun hagenda => ?_⟩⟩
  · rw [UnitState.mmioRead, toNat_packHalves, BitVec.toNat_ofNat, BitVec.toNat_ofNat]
    omega
  · rw [← toNat_num_of_mem hx, ← hu]
    exact toNat_statusWord u
  · exact toNat_flag u.z
  · exact BitVec.toNat_setWidth_of_le (by decide)
  · exact BitVec.toNat_setWidth_of_le (by decide)
  · exact BitVec.toNat_setWidth_of_le (by decide)
  · obtain ⟨r, hread⟩ := hostRead_eq (s := { s with agenda := rest }) ha hk hv
    obtain ⟨hself, hunits, hn, hmem, hrest⟩ := select_for_event hs hv
    refine ⟨_, (step_of_event hagenda).trans hread, hrest, ?_, hunits, hmem⟩
    rw [← hn, ← hself]
  · obtain ⟨r, hwrite⟩ := hostWrite_eq (s := { s with agenda := rest }) w ha hk hv
    obtain ⟨hself, hunits, -, hmem, hrest⟩ := select_for_event hs hv
    refine ⟨_, (step_of_event hagenda).trans hwrite, hrest, hself, rfl, hmem, fun j hj => ?_⟩
    rw [← hunits]
    exact units_of_ne (s := { v with races := r }) _ (hself ▸ hj)

end Sys2Proof.Machine
end

section
/-! LDPX and the window it reads (44_motion_residual.md R220 to R223). -/

namespace Sys2Proof.Machine

/-- A command that ends in a raised fault takes it and does nothing else (60_exceptions.md R256). -/
theorem faultsWith_of_endCommand {s : State} {i : Instr} {code : FaultCode} {info : Word}
    (h : exec i s = s.endCommand (.error (.raise code info))) : faultsWith s i code info :=
  ⟨_, h, rfl, rfl, rfl, rfl, rfl, rfl, same_enterFault s.unit code info⟩

/-- The position of LDPX's window under the mode bits of a legal encoding: M adds the motion offset, H
halves it toward zero. -/
theorem loadPosition_eq (u : UnitState) {m h : Bool} (hmode : ¬ (h = true ∧ m = false)) :
    u.loadPosition m h
      = (u.x.toNat + (if m then (if h then Int.tdiv u.dx.toInt 2 else u.dx.toInt) else 0),
        u.y.toNat + (if m then (if h then Int.tdiv u.dy.toInt 2 else u.dy.toInt) else 0)) := by
  cases m with
  | true => cases h <;> rfl
  | false =>
    have hh : h = false := by simpa using hmode
    rw [hh]
    rfl

/-- LDPX in a legal mode whose window is inside its plane reads the window and writes its block. -/
theorem exec_ldpx_of_inBounds {s : State} {d : BReg} {p : Plane} {m h : Bool} {x y : Int}
    (hmode : ¬ (h = true ∧ m = false)) (hpos : s.unit.loadPosition m h = (x, y))
    (hin : s.unit.pd[p].inBounds x y 8 = true) :
    exec (.ldpx d p m h) s
      = s.endCommand ((s.readWindow s.unit.pd[p] x y 8 .sample).map fun bytes =>
          (s.unit.setBlock d (blockOfSamples bytes)).advance) := by
  have hillegal : ¬ (h && !m) = true := by simpa using hmode
  simp only [exec, execLdpx, if_neg hillegal, hpos, if_pos hin]

/-- Settles O45: the window is read before the block is written, so LDPX either gets all 64 samples or stops
at the first byte that is denied. -/
theorem ldpxLoadsTheWindow : Obligations.LdpxLoadsTheWindow := by
  refine ⟨toNat_windowAddr, fun d p m h s x y hmode hx hy hx0 hy0 hxw hyh => ?_⟩
  have hpos : s.unit.loadPosition m h = (x, y) := by rw [loadPosition_eq _ hmode, hx, hy]
  have hin : s.unit.pd[p].inBounds x y 8 = true := inBounds_iff.mpr ⟨hx0, hy0, hxw, hyh⟩
  have hexec := exec_ldpx_of_inBounds (d := d) hmode hpos hin
  constructor
  · intro hread
    have hwin := readWindow_of_readable (size := 8) (t := .sample) hread
    refine ⟨_, next_of_map hexec hwin, ?_, ?_, fun i => ?_⟩
    · simp
    · simp
    · simp only [UnitState.complete_blocks, UnitState.advance_blocks, UnitState.setBlock_blocks,
        blocks_set_self]
      exact elem_blockOfSamples (fun i => s.mem.read (s.unit.pd[p].windowAddr x y 8 i).toNat) i
  · intro k hk hbus hplain
    have hwin := readWindow_of_denied (size := 8) (t := .sample) hk (denies_of_not_busOK hbus) hplain
    exact faultsWith_of_endCommand (by rw [hexec, hwin]; rfl)

end Sys2Proof.Machine
end

section
/-! What reads and writes of a byte give under races (20_memory.md R80 to R84), for a unit and for the host. -/

namespace Sys2Proof.Machine

/-- A write by an agent races with none exactly where no race leaves the byte open for the agent's reads. -/
theorem contested_eq_false_iff {s : State} {w : Agent} {a : Nat} :
    s.contested w a = false ↔ s.staleFor w a = [] := by
  refine ⟨fun h => staleFor_eq_nil.mpr fun e es he => ?_, contested_of_staleFor⟩
  simpa only [State.contested, he] using h

/-- A read returns the byte memory holds, or one of the values that a race leaves open for the reader. -/
theorem observeAs_cases (s : State) (r : Agent) (t : Access) (a : Word) :
    s.observeAs r t a = s.mem.read a.toNat ∨ s.observeAs r t a ∈ s.staleFor r a.toNat := by
  unfold State.observeAs
  cases s.staleFor r a.toNat with
  | nil => exact .inl rfl
  | cons old olds =>
    dsimp only
    generalize Config.raceDraw s.draws a.toNat t % (olds.length + 2) = k
    by_cases hk : k < (old :: olds).length
    · rw [List.getD_eq_getElem _ _ hk]
      exact .inr (List.getElem_mem hk)
    · exact .inl (List.getD_eq_default _ _ (not_lt.mp hk))

theorem observeAs_of_staleFor {s : State} {r : Agent} {a : Word} (t : Access)
    (h : s.staleFor r a.toNat = []) : s.observeAs r t a = s.mem.read a.toNat := by
  simp only [State.observeAs, h]

/-- Every value a race leaves open is the one before a listed write of that byte that the agent need not
see. -/
theorem mem_staleFor {s : State} {r : Agent} {a : Nat} {v : Byte} (h : v ∈ s.staleFor r a) :
    ∃ e ∈ s.races, e.addr = a ∧ s.hides r e = true ∧ v = e.under := by
  obtain ⟨e, he, rfl⟩ := List.mem_map.mp h
  obtain ⟨hmem, haddr⟩ := List.mem_filter.mp ((List.takeWhile_sublist _).mem he)
  exact ⟨e, hmem, beq_iff_eq.mp haddr, List.mem_takeWhile_imp he, rfl⟩

/-- A unit reads the byte memory holds, or the value before a racing write of that byte. -/
theorem observe_cases (s : State) (t : Access) (a : Word) : s.observe t a = s.mem.read a.toNat
    ∨ ∃ e ∈ s.races, e.addr = a.toNat ∧ s.self ∈ e.hidden ∧ s.observe t a = e.under := by
  obtain hread | hstale := observeAs_cases s (.unit s.self) t a
  · exact .inl hread
  · obtain ⟨e, he, haddr, hhides, hunder⟩ := mem_staleFor hstale
    exact .inr ⟨e, he, haddr, List.contains_iff_mem.mp hhides, hunder⟩

/-- A unit's byte stays unless it races with the write in memory, and then that one may stay. -/
theorem storeByte_mem_cases (s : State) (left : Nat) (a : Word) (v : Byte) :
    (s.storeByte left a v).mem = s.mem.write a.toNat v
      ∨ s.contested (.unit s.self) a.toNat = true ∧ (s.storeByte left a v).mem = s.mem := by
  obtain ⟨r, h⟩ | ⟨hc, r, h⟩ := writeAs_cases s (.unit s.self) (.store left) a v
  · exact .inl (by rw [State.storeByte, h])
  · exact .inr ⟨hc, by rw [State.storeByte, h]⟩

/-- A host write that starts a run orders the writes before it. -/
theorem afterHostWrite_of_start {s : State} {u : UnitState} (hs : s.unit.busy = false)
    (hu : u.busy = true) : s.afterHostWrite u = { s.settleAtStart with unit := u } := by
  simp [State.afterHostWrite, hs, hu]

/-- Settles O52: reads by what a race leaves open, writes by `writeAs_cases`, and a START by what it
orders. -/
theorem racesAdmitOldOrNew : Obligations.RacesAdmitOldOrNew := by
  refine fun s acc a => ⟨readByte_of_plain, observe_of_settled, observe_cases s acc a,
    fun left v => storeByte_mem_cases s left a v, fun h left v => storeByte_of_settled h,
    fun u hs hu hnewest => ?_⟩
  rw [afterHostWrite_of_start hs hu]
  exact settled_settleAtStart hnewest

/-- The host's read of plain memory that no running unit contests gives it the byte. -/
theorem hostMemRead_of_uncontested {s : State} {a : Word} (hplain : s.regionKind a = none)
    (hc : s.contested .host a.toNat = false) : s.hostMemRead a
      = .next { s with hostData := (s.mem.read a.toNat).setWidth 32, draws := s.draws + 1 } := by
  simp only [State.hostMemRead, hplain, observeAs_of_staleFor .host (contested_eq_false_iff.mp hc)]

/-- Settles O53: the laws of canonical memories, and the host's byte events by what they do to the state. -/
theorem memoryReadsBackAndIsCanonical : Obligations.MemoryReadsBackAndIsCanonical := by
  refine ⟨fun m a b v hm => Memory.read_write hm a b v, fun m a v hm ha => Memory.wf_write hm ha v,
    fun m m' => Memory.ext_of_read, fun s a v rest hagenda => ?_, fun s a rest hagenda hplain hc => ?_⟩
  · obtain ⟨m, r, hw, hm⟩ := hostMemWrite_eq { s with agenda := rest } a v
    exact ⟨_, (step_of_event hagenda).trans (congrArg Host.Outcome.next hw), rfl, rfl, rfl, hm⟩
  · have hread := hostMemRead_of_uncontested (s := { s with agenda := rest }) hplain hc
    exact ⟨_, (step_of_event hagenda).trans hread, rfl, rfl, rfl, rfl,
      BitVec.toNat_setWidth_of_le (by decide)⟩

end Sys2Proof.Machine
end

section
/-! Decoding and encoding (30_encoding.md R102 to R106): what the decoder answers, in terms of the row a word
matches; the formats of R102 as ways to put a word together from its fields; and every row of the opcode map
read back by the encoder. -/

namespace Sys2Proof

/-! ### What the decoder answers -/

/-- A word decodes to what the row it matches reads from it, if that is well formed. -/
theorem decodeWord_eq_ok_iff {w : Word} {i : Instr} :
    decodeWord w = .ok i ↔ ∃ r ∈ opRows, r.matches w = true ∧ r.read w = i ∧ i.WellFormed := by
  constructor
  · intro h
    simp only [decodeWord] at h
    split at h
    · next r hfind =>
      split at h
      · next hwf =>
        obtain rfl := Except.ok.inj h
        have hmatches := List.find?_some (p := fun r : OpRow => r.matches w) hfind
        exact ⟨r, List.mem_of_find?_eq_some hfind, hmatches, rfl, hwf⟩
      · cases h
    · cases h
  · rintro ⟨r, hr, hmatches, rfl, hwf⟩
    simp only [decodeWord, find_row hr hmatches]
    exact if_pos hwf

/-- Every command's own row matches its word and reads it back. -/
theorem ownRow (i : Instr) : Laws.OwnRow.Statement i := by
  cases i with
  | nop => exact Laws.OwnRow.nop
  | halt => exact Laws.OwnRow.halt
  | jmp off => exact Laws.OwnRow.jmp off
  | bz off => exact Laws.OwnRow.bz off
  | bnz off => exact Laws.OwnRow.bnz off
  | setlc n imm => exact Laws.OwnRow.setlc n imm
  | djnz n off => exact Laws.OwnRow.djnz n off
  | setx imm => exact Laws.OwnRow.setx imm
  | sety imm => exact Laws.OwnRow.sety imm
  | addx imm => exact Laws.OwnRow.addx imm
  | addy imm => exact Laws.OwnRow.addy imm
  | setmv dx dy => exact Laws.OwnRow.setmv dx dy
  | ldpx d p m h => exact Laws.OwnRow.ldpx d p m h
  | stpx a p => exact Laws.OwnRow.stpx a p
  | mov d a => exact Laws.OwnRow.mov d a
  | clr d => exact Laws.OwnRow.clr d
  | sub d a b => exact Laws.OwnRow.sub d a b
  | addc d a b => exact Laws.OwnRow.addc d a b
  | sad a b => exact Laws.OwnRow.sad a b
  | fdct d a => exact Laws.OwnRow.fdct d a
  | idct d a c => exact Laws.OwnRow.idct d a c
  | quant d a t => exact Laws.OwnRow.quant d a t
  | dequant d a t => exact Laws.OwnRow.dequant d a t
  | qgen t q => exact Laws.OwnRow.qgen t q
  | encb a => exact Laws.OwnRow.encb a
  | decb d => exact Laws.OwnRow.decb d
  | encmv => exact Laws.OwnRow.encmv
  | decmv => exact Laws.OwnRow.decmv
  | msrch ps pr radius => exact Laws.OwnRow.msrch ps pr radius

/-- Settles O2: a command's own row matches its word, and no other row does. -/
theorem decodeOfEncode : Obligations.DecodeOfEncode := by
  intro i hwf
  obtain ⟨r, hr, hmatches, hread⟩ := ownRow i
  exact decodeWord_eq_ok_iff.mpr ⟨r, hr, hmatches, hread, hwf⟩

/-! ### Which matching words decode -/

/-- The commands that have no encoding are LDPX with H = 1 and M = 0 (R106). -/
theorem wellFormed_read_iff {r : OpRow} (hr : r ∈ opRows) (w : Word) :
    (r.read w).WellFormed
      ↔ ¬ (field r.pat 24 8 = 0x10 ∧ w.getLsbD 11 = true ∧ w.getLsbD 12 = false) := by
  revert r
  cases hoffset : w[12] <;> cases hhalve : w[11] <;>
    simp [opRows, controlRows, blockRows, Instr.WellFormed, Instr.wellFormed, field, bitOf, hoffset,
      hhalve]

/-- Settles O1: the row's opcode is the word's, and only LDPX's row can read an ill-formed command. -/
theorem wordDecodesIffRowMatches : Obligations.WordDecodesIffRowMatches := by
  intro w
  constructor
  · rintro ⟨i, hi⟩
    obtain ⟨r, hr, hmatches, rfl, hwf⟩ := decodeWord_eq_ok_iff.mp hi
    rw [wellFormed_read_iff hr, opcode_of_matches hr hmatches] at hwf
    exact ⟨⟨r, hr, beq_iff_eq.mp hmatches⟩, hwf⟩
  · rintro ⟨⟨r, hr, hpat⟩, hmode⟩
    have hmatches : r.matches w = true := beq_iff_eq.mpr hpat
    refine ⟨r.read w, decodeWord_eq_ok_iff.mpr ⟨r, hr, hmatches, rfl, ?_⟩⟩
    rw [wellFormed_read_iff hr, opcode_of_matches hr hmatches]
    exact hmode

/-! ### Fields of a word that matches a row -/

/-- A field that the mask covers holds what the row's pattern has there: the opcode, or the zeros of a
reserved field. -/
theorem OpRow.field_of_matches {r : OpRow} {w : Word} (h : r.matches w = true) {lo len : Nat}
    {v : BitVec len} (hrow : field r.mask lo len = BitVec.allOnes len ∧ field r.pat lo len = v := by
      exact ⟨rfl, rfl⟩) : field w lo len = v := by
  obtain ⟨hmask, rfl⟩ := hrow
  rw [← beq_iff_eq.mp h]
  simp only [field] at hmask ⊢
  rw [BitVec.extractLsb'_and, hmask, BitVec.and_allOnes]

/-- Two adjacent fields are one field. -/
theorem field_append {w : Word} {s lo m n : Nat} {hi : BitVec n} {v : BitVec m}
    (hhi : field w s n = hi) (hv : field w lo m = v) (hs : s = lo + m := by rfl) :
    field w lo (n + m) = hi ++ v := by
  rw [← hhi, ← hv]
  exact (BitVec.extractLsb'_append_extractLsb'_eq_extractLsb' hs).symm

/-- The field of all 32 bits is the word. -/
theorem eq_of_field {w v : Word} (h : field w 0 32 = v) : v = w :=
  h.symm.trans BitVec.extractLsb'_eq_self

/-- A register number read from a field is written back as that field. -/
theorem field_eq_regField {w : Word} {lo : Nat} : field w lo 3 = BitVec.ofNat 3 (regField w lo) := by
  simp [regField]

/-- A plane or table number read from a field is written back as that field. -/
theorem field_eq_quadField {w : Word} {lo : Nat} :
    field w lo 2 = BitVec.ofNat 2 (quadField w lo) := by
  simp [quadField]

/-- A bit of the word is a field of length 1. -/
theorem field_eq_bitOf {w : Word} {i : Nat} : field w i 1 = BitVec.ofBool (bitOf w i) := by
  apply BitVec.eq_of_getLsbD_eq
  simp [field, bitOf]

/-- A counter read from a bit is written back as that bit. -/
theorem field_eq_counterField {w : Word} {i : Nat} : field w i 1 = (counterField w i).bit := by
  rw [field_eq_bitOf, counterField]
  cases bitOf w i <;> rfl

/-! ### The formats (R102): a word is put together from its fields -/

section Formats

variable {w : Word} {op : BitVec 8}

/-- Formats N and J: OP and 24 bits. -/
theorem eq_of_formatJ {off : BitVec 24} (hop : field w 24 8 = op) (hoff : field w 0 24 = off) :
    op ++ off = w :=
  eq_of_field (field_append hop hoff)

/-- Format L: OP, seven reserved bits, a counter, an immediate. -/
theorem eq_of_formatL {z : BitVec 7} {n : BitVec 1} {imm : Half} (hop : field w 24 8 = op)
    (hz : field w 17 7 = z) (hn : field w 16 1 = n) (himm : field w 0 16 = imm) :
    op ++ z ++ n ++ imm = w :=
  eq_of_field (field_append (field_append (field_append hop hz) hn) himm)

/-- Format D: OP, a counter, an offset. -/
theorem eq_of_formatD {n : BitVec 1} {off : BitVec 23} (hop : field w 24 8 = op)
    (hn : field w 23 1 = n) (hoff : field w 0 23 = off) : op ++ n ++ off = w :=
  eq_of_field (field_append (field_append hop hn) hoff)

/-- Format I: OP, eight reserved bits, an immediate. -/
theorem eq_of_formatI {z : BitVec 8} {imm : Half} (hop : field w 24 8 = op)
    (hz : field w 16 8 = z) (himm : field w 0 16 = imm) : op ++ z ++ imm = w :=
  eq_of_field (field_append (field_append hop hz) himm)

/-- Format V: OP and two offsets of 12 bits. -/
theorem eq_of_formatV {dx dy : BitVec 12} (hop : field w 24 8 = op) (hdx : field w 12 12 = dx)
    (hdy : field w 0 12 = dy) : op ++ dx ++ dy = w :=
  eq_of_field (field_append (field_append hop hdx) hdy)

/-- Format B: OP, three block registers, aux. -/
theorem eq_of_formatB {d a b : BReg} {aux : BitVec 15} (hop : field w 24 8 = op)
    (hd : field w 21 3 = BitVec.ofNat 3 d) (ha : field w 18 3 = BitVec.ofNat 3 a)
    (hb : field w 15 3 = BitVec.ofNat 3 b) (haux : field w 0 15 = aux) : formatB op d a b aux = w :=
  eq_of_field (field_append (field_append (field_append (field_append hop hd) ha) hb) haux)

/-- Aux with a plane or table number in bits 14:13 (R103). -/
theorem field_eq_auxQuad {t : Fin 4} {low : BitVec 13} (ht : field w 13 2 = BitVec.ofNat 2 t)
    (hlow : field w 0 13 = low) : field w 0 15 = auxQuad t low :=
  field_append ht hlow

end Formats

/-! ### Every row read back by the encoder -/

/-- The encoder gives back every word that matches the row, bit for bit. -/
def OpRow.Faithful (r : OpRow) : Prop := ∀ w, r.matches w = true → encode (r.read w) = w

open OpRow (field_of_matches)

/-- The rows of the sequencer and control commands: formats N, J, L, D, I and V. -/
theorem controlRows_faithful : ∀ r ∈ controlRows, r.Faithful := by
  simp only [controlRows, List.forall_mem_cons, List.not_mem_nil, false_implies, implies_true, and_true]
  refine ⟨?nop, ?halt, ?jmp, ?bz, ?bnz, ?setlc, ?djnz, ?setx, ?sety, ?addx, ?addy, ?setmv⟩ <;>
    intro w h
  case nop | halt => exact eq_of_formatJ (field_of_matches h) (field_of_matches h)
  case jmp | bz | bnz => exact eq_of_formatJ (field_of_matches h) rfl
  case setlc =>
    exact eq_of_formatL (field_of_matches h) (field_of_matches h) field_eq_counterField rfl
  case djnz => exact eq_of_formatD (field_of_matches h) field_eq_counterField rfl
  case setx | sety | addx | addy => exact eq_of_formatI (field_of_matches h) (field_of_matches h) rfl
  case setmv => exact eq_of_formatV (field_of_matches h) rfl rfl

/-- The rows of format B, whose aux field is put together as R103 names its bits, and the two of format N
among them. -/
theorem blockRows_faithful : ∀ r ∈ blockRows, r.Faithful := by
  simp only [blockRows, List.forall_mem_cons, List.not_mem_nil, false_implies, implies_true, and_true]
  refine ⟨?ldpx, ?stpx, ?mov, ?clr, ?sub, ?addc, ?sad, ?fdct, ?idct, ?quant, ?dequant, ?qgen, ?encb,
    ?decb, ?encmv, ?decmv, ?msrch⟩ <;> intro w h
  case encmv | decmv => exact eq_of_formatJ (field_of_matches h) (field_of_matches h)
  case sub | addc =>
    exact eq_of_formatB (field_of_matches h) field_eq_regField field_eq_regField field_eq_regField
      (field_of_matches h)
  case sad =>
    exact eq_of_formatB (field_of_matches h) (field_of_matches h) field_eq_regField field_eq_regField
      (field_of_matches h)
  case mov | fdct =>
    exact eq_of_formatB (field_of_matches h) field_eq_regField field_eq_regField (field_of_matches h)
      (field_of_matches h)
  case clr | decb =>
    exact eq_of_formatB (field_of_matches h) field_eq_regField (field_of_matches h)
      (field_of_matches h) (field_of_matches h)
  case encb =>
    exact eq_of_formatB (field_of_matches h) (field_of_matches h) field_eq_regField
      (field_of_matches h) (field_of_matches h)
  case quant | dequant =>
    exact eq_of_formatB (field_of_matches h) field_eq_regField field_eq_regField (field_of_matches h)
      (field_eq_auxQuad field_eq_quadField (field_of_matches h))
  case stpx =>
    exact eq_of_formatB (field_of_matches h) (field_of_matches h) field_eq_regField
      (field_of_matches h) (field_eq_auxQuad field_eq_quadField (field_of_matches h))
  case ldpx =>
    have haux : field w 0 13 = BitVec.ofBool (bitOf w 12) ++ BitVec.ofBool (bitOf w 11) ++ 0#11 :=
      field_append (field_append field_eq_bitOf field_eq_bitOf) (field_of_matches h (len := 11))
    exact eq_of_formatB (field_of_matches h) field_eq_regField (field_of_matches h)
      (field_of_matches h) (field_eq_auxQuad field_eq_quadField haux)
  case idct =>
    have haux : field w 0 13 = BitVec.ofBool (bitOf w 12) ++ 0#12 :=
      field_append field_eq_bitOf (field_of_matches h (len := 12))
    exact eq_of_formatB (field_of_matches h) field_eq_regField field_eq_regField (field_of_matches h)
      (field_eq_auxQuad (field_of_matches h) haux)
  case qgen =>
    have haux : field w 0 13 = 0#6 ++ field w 0 7 :=
      field_append (field_of_matches h (lo := 7) (len := 6)) (rfl : field w 0 7 = _)
    exact eq_of_formatB (field_of_matches h) (field_of_matches h) (field_of_matches h)
      (field_of_matches h) (field_eq_auxQuad field_eq_quadField haux)
  case msrch =>
    have haux : field w 0 13 = BitVec.ofNat 2 (quadField w 11) ++ 0#5 ++ field w 0 6 :=
      field_append (field_append field_eq_quadField (field_of_matches h (lo := 6) (len := 5)))
        (rfl : field w 0 6 = _)
    exact eq_of_formatB (field_of_matches h) (field_of_matches h) (field_of_matches h)
      (field_of_matches h) (field_eq_auxQuad field_eq_quadField haux)

/-- Settles O3: a word that decodes is put together again from the fields its row reads and the bits that the
row's mask fixes. -/
theorem encodeOfDecode : Obligations.EncodeOfDecode := by
  intro w i h
  obtain ⟨r, hr, hmatches, rfl, hwf⟩ := decodeWord_eq_ok_iff.mp h
  exact ⟨List.forall_mem_append.mpr ⟨controlRows_faithful, blockRows_faithful⟩ r hr w hmatches, hwf⟩

end Sys2Proof
end

section
/-! The step on an illegal word (30_encoding.md R106, 60_exceptions.md R251). -/

namespace Sys2Proof.Machine

/-- A word that decodes to no command takes ILLEGAL_OP with the word. -/
theorem runWord_of_illegal {s : State} {w : Word} (h : ∀ i, decodeWord w ≠ .ok i) :
    s.runWord w = s.endCommand (.error (.raise .illegalOp w)) := by
  cases hd : decodeWord w with
  | ok i => exact absurd hd (h i)
  | error e => simp only [State.runWord, hd]

/-- Settles O6: the four readable bytes are the word fetched, and it takes the fault and nothing else. -/
theorem illegalWordFaults : Obligations.IllegalWordFaults := by
  rintro s w hagenda hbusy hread rfl hillegal
  have hstep := step_of_no_event hagenda
  rw [unitStep_of_fetch hbusy (fetch_of_readable hread), runWord_of_illegal hillegal,
    endCommand_raise] at hstep
  exact ⟨_, hstep, rfl, rfl, rfl, rfl, rfl, same_enterFault _ _ _, rfl, rfl, rfl, rfl, rfl, rfl⟩

end Sys2Proof.Machine
end

section
/-! The step around every command (40_control.md R130) and the sequencer and control commands (R131 to R143):
where pc goes, what is loaded, and that nothing else changes. -/

namespace Sys2Proof.Machine

/-! ### Decoding and running -/

/-- A word is decoded to the command it encodes. -/
theorem decodeWord_of_encode {i : Instr} {w : Word} (h : encode i = w) (hi : i.WellFormed) :
    decodeWord w = .ok i := h ▸ decodeOfEncode i hi

/-- Settles O4: each word is the encoding of its command, so `decodeOfEncode` decodes it. -/
theorem specWordsDecode : Obligations.SpecWordsDecode := by
  refine ⟨?_, ?_, ?_, ?_, ?_, ?_, ?_, ?_, ?_⟩ <;> exact decodeWord_of_encode rfl rfl

/-- A word that decodes runs the command it decodes to. -/
theorem runWord_of_decode {s : State} {w : Word} {i : Instr} (h : decodeWord w = .ok i) :
    s.runWord w = exec i s := by
  simp only [State.runWord, h]

/-- The event of a unit's step is the step of that unit, selected for it. -/
theorem step_of_unitStep {s v : State} {u : Nat} {rest : List Event}
    (h : s.agenda = .unitStep u :: rest)
    (hv : ({ s with agenda := rest } : State).select u = some v) : step s = v.unitStep := by
  rw [step_of_event h]
  simp only [State.handle, hv]

/-- Settles O5: either way the machine's step is the unit's, and the four readable bytes are the word
fetched. -/
theorem stepRunsTheDecodedCommand : Obligations.StepRunsTheDecodedCommand := by
  intro s v i hnext hbusy hread hdecode
  have hstep : step s = v.unitStep := by
    obtain ⟨hagenda, rfl⟩ | ⟨u, rest, hagenda, hselect⟩ := hnext
    · exact step_of_no_event hagenda
    · exact step_of_unitStep hagenda hselect
  rw [hstep, unitStep_of_fetch hbusy (fetch_of_readable hread), runWord_of_decode hdecode]

/-! ### The single step -/

/-- No command writes SSTEP. -/
theorem Effect.sstep {i : Instr} {u₀ u : UnitState} (h : Effect i u₀ u) : u.sstep = u₀.sstep := by
  have hnot : RegName.sstep ∉ writesOf i := by cases i <;> simp [writesOf]
  exact h.frame .sstep (by decide) hnot

/-- Settles O14: a completed command left BUSY and DONE alone or was HALT, and completion then looks at
SSTEP. -/
theorem singleStepEndsTheRun : Obligations.SingleStepEndsTheRun := by
  intro i s t h hcmdcnt
  obtain ⟨u, hu, ht⟩ := effect_of_cmdcnt h hcmdcnt
  rw [ht]
  constructor
  · intro hbusy hsstep
    obtain ⟨hb, -⟩ | ⟨hb, hd⟩ := hu.busy_done
    · simp [hb, hbusy, hu.sstep, hsstep]
    · simp [hb, hd]
  · intro hsstep hhalt
    obtain ⟨hb, hd⟩ := hu.run hhalt
    simp [hb, hd, hu.sstep, hsstep]

/-! ### Control commands -/

/-- A command whose rule writes the registers `u` and cannot stop: it completes, leaving memory and every
register alone that neither its rule nor the step writes, and goes on at the next word unless it
branches. -/
theorem exec_completes {i : Instr} {s : State} {u : UnitState} (h : exec i s = s.endCommand (.ok u))
    (hcmdcnt : u.cmdcnt = s.unit.cmdcnt) :
    ∃ t, exec i s = .next t ∧ t.unit = u.complete ∧ t.mem = s.mem
      ∧ (branches i = false → t.unit.pc = s.unit.pc + 4)
      ∧ ∀ r : RegName, r ∉ stepRegs → r ∉ writesOf i → r.same s.unit t.unit := by
  have hnext := next_of_ok h
  have hcount : u.complete.cmdcnt = s.unit.cmdcnt + 1 := by simp [hcmdcnt]
  obtain ⟨v, hv, hcomplete⟩ := effect_of_cmdcnt hnext hcount
  refine ⟨_, hnext, rfl, rfl, fun hb => ?_, frame_of_cmdcnt hnext hcount⟩
  rw [hcomplete, UnitState.complete_pc, hv.pc hb]

/-- `exec_completes` for a command that goes on at the next word and whose rule writes one register. -/
theorem exec_completes_writing {i : Instr} {s : State} {u : UnitState} {n : RegName}
    (h : exec i s = s.endCommand (.ok u)) (hcmdcnt : u.cmdcnt = s.unit.cmdcnt)
    (hbranch : branches i = false) (hwrites : writesOf i = [n]) :
    ∃ t, exec i s = .next t ∧ t.unit = u.complete ∧ t.unit.pc = s.unit.pc + 4 ∧ t.mem = s.mem
      ∧ ∀ r : RegName, r ∉ stepRegs → r ≠ n → r.same s.unit t.unit := by
  obtain ⟨t, hnext, hunit, hmem, hpc, hframe⟩ := exec_completes h hcmdcnt
  exact ⟨t, hnext, hunit, hpc hbranch, hmem, fun r hr hn => hframe r hr (by simpa [hwrites] using hn)⟩

/-- Settles O15, with `singleStepEndsTheRun` for BUSY and DONE. -/
theorem nopOnlyAdvances : Obligations.NopOnlyAdvances := by
  intro s
  obtain ⟨t, h, hunit, hmem, hpc, hframe⟩ := exec_completes (i := .nop) (s := s) rfl rfl
  have hcmdcnt : t.unit.cmdcnt = s.unit.cmdcnt + 1 := by simp [hunit]
  obtain ⟨-, hrun⟩ := singleStepEndsTheRun .nop s t h hcmdcnt
  exact ⟨t, h, hpc rfl, hcmdcnt, hmem, fun r hr => hframe r hr (by simp [writesOf]),
    fun hs => hrun hs (by decide)⟩

/-- Settles O16: completion keeps the DONE that HALT set, and DONE with IE drives the line (R265). -/
theorem haltEndsTheRun : Obligations.HaltEndsTheRun := by
  intro s
  obtain ⟨t, h, hunit, hmem, hpc, hframe⟩ := exec_completes (i := .halt) (s := s) rfl rfl
  have hdone : t.unit.done = true := by simp [hunit]
  have hie : t.unit.ie = s.unit.ie := by simp [hunit]
  exact ⟨t, h, hpc rfl, by simp [hunit], hdone, by simp [hunit], hmem,
    fun hs => by simp [UnitState.irq, hie, hs, hdone],
    fun r hr => hframe r hr (by simp [writesOf])⟩

/-- Settles O17: the three commands are `branchIf` under their conditions, and its target is R133's. -/
theorem jumpsAndBranches : Obligations.JumpsAndBranches := by
  intro off s
  obtain ⟨tj, hj, hjunit, hjmem, -, hjframe⟩ :=
    exec_completes (i := .jmp off) (s := s) rfl (by simp)
  obtain ⟨tz, hz, hzunit, hzmem, -, hzframe⟩ :=
    exec_completes (i := .bz off) (s := s) rfl (by simp)
  obtain ⟨tn, hn, hnunit, hnmem, -, hnframe⟩ :=
    exec_completes (i := .bnz off) (s := s) rfl (by simp)
  have htarget : tj.unit.pc = branchTarget s.unit.pc off := by simp [hjunit, UnitState.branchIf_pc]
  refine ⟨tj, tz, tn, hj, hz, hn, ?_, ?_, ?_, ?_⟩
  · rw [htarget, toNat_branchTarget]
  · rw [htarget, hzunit, UnitState.complete_pc, UnitState.branchIf_pc]
  · rw [htarget, hnunit, UnitState.complete_pc, UnitState.branchIf_pc]
    cases s.unit.z <;> rfl
  · exact List.forall_mem_cons.mpr ⟨⟨hjmem, fun r hr => hjframe r hr (by simp [writesOf])⟩,
      List.forall_mem_cons.mpr ⟨⟨hzmem, fun r hr => hzframe r hr (by simp [writesOf])⟩,
      List.forall_mem_singleton.mpr ⟨hnmem, fun r hr => hnframe r hr (by simp [writesOf])⟩⟩⟩

/-- Settles O18: the counter that n selects reads what was written to it. -/
theorem setlcLoadsTheCounter : Obligations.SetlcLoadsTheCounter := by
  intro n imm s
  obtain ⟨t, h, hunit, hrest⟩ :=
    exec_completes_writing (i := .setlc n imm) (s := s) rfl (by simp) rfl rfl
  exact ⟨t, h, by simp [hunit], hrest⟩

/-- The decrement modulo 2^16 gives 0 from 1 alone. -/
theorem sub_one_bne_zero_iff (c : Half) : (c - 1 != 0) = true ↔ ¬ c.toNat = 1 := by
  rw [bne_iff_ne]
  bv_omega

/-- Settles O19: DJNZ is `branchIf` on the decremented counter. -/
theorem djnzDecrementsAndBranches : Obligations.DjnzDecrementsAndBranches := by
  intro n off s
  obtain ⟨t, h, hunit, hmem, -, hframe⟩ :=
    exec_completes (i := .djnz n off) (s := s) rfl (by simp)
  have hcounter : t.unit.counter n = s.unit.counter n - 1 := by simp [hunit]
  have hpc : t.unit.pc = if (s.unit.counter n).toNat = 1 then s.unit.pc + 4
      else branchTarget s.unit.pc off := by
    rw [hunit, UnitState.complete_pc, UnitState.branchIf_pc, UnitState.setCounter_pc]
    simp only [sub_one_bne_zero_iff, ite_not]
  refine ⟨t, h, ?_, ?_, hmem, fun r hr hn => hframe r hr (by simpa [writesOf] using hn)⟩
  · rw [hcounter]
    bv_omega
  · split
    · next hone => rw [hpc, if_pos hone]
    · next hone => rw [hpc, if_neg hone, toNat_branchTarget]

/-- Settles O20: each command writes X or Y alone, and a sum of halves is modulo 2^16. -/
theorem positionCommands : Obligations.PositionCommands := by
  intro imm s
  obtain ⟨tx, hx, hxunit, hxrest⟩ :=
    exec_completes_writing (i := .setx imm) (s := s) rfl rfl rfl rfl
  obtain ⟨ty, hy, hyunit, hyrest⟩ :=
    exec_completes_writing (i := .sety imm) (s := s) rfl rfl rfl rfl
  obtain ⟨ax, hax, haxunit, haxrest⟩ :=
    exec_completes_writing (i := .addx imm) (s := s) rfl rfl rfl rfl
  obtain ⟨ay, hay, hayunit, hayrest⟩ :=
    exec_completes_writing (i := .addy imm) (s := s) rfl rfl rfl rfl
  refine ⟨tx, ty, ax, ay, hx, hy, hax, hay, by simp [hxunit], by simp [hyunit],
    by simp [haxunit], by simp [hayunit], ?_, ?_⟩
  · exact List.forall_mem_cons.mpr ⟨hxrest, List.forall_mem_singleton.mpr haxrest⟩
  · exact List.forall_mem_cons.mpr ⟨hyrest, List.forall_mem_singleton.mpr hayrest⟩

/-- Settles O21: sign extension keeps the number. -/
theorem setmvSignExtends : Obligations.SetmvSignExtends := by
  intro dx dy s
  obtain ⟨t, h, hunit, hmem, hpc, hframe⟩ := exec_completes (i := .setmv dx dy) (s := s) rfl rfl
  have hext : ∀ v : BitVec 12, (v.signExtend 16).toInt = v.toInt := fun v =>
    BitVec.toInt_signExtend_of_le (by decide)
  exact ⟨t, h, by simp [hunit, hext], by simp [hunit, hext], hpc rfl, hmem,
    fun r hr hx hy => hframe r hr (by simp [writesOf, hx, hy])⟩

end Sys2Proof.Machine
end

section
/-! FDCT and IDCT: the two rounded passes over the integer basis (41_transform.md R150 to R156). -/

namespace Sys2Proof.Machine

/-! ### The passes as sums -/

/-- Pass 1 of the forward transform (R151). -/
theorem fdctRow_eq (b : Block) (r u : Fin 8) :
    fdctRow b r u = ((∑ c : Fin 8, dctc u c * elem b (rasterIdx r c)) + 512) / 1024 := by
  rw [fdctRow, sum8_eq]; rfl

/-- Pass 2 of the forward transform (R151). -/
theorem fdctCol_eq (b : Block) (v u : Fin 8) :
    fdctCol b v u = ((∑ r : Fin 8, dctc v r * fdctRow b r u) + 32768) / 65536 := by
  rw [fdctCol, sum8_eq]; rfl

/-- Pass 1 of the inverse transform (R152). -/
theorem idctRow_eq (b : Block) (v c : Fin 8) :
    idctRow b v c = ((∑ u : Fin 8, dctc u c * elem b (rasterIdx v u)) + 512) / 1024 := by
  rw [idctRow, sum8_eq]; rfl

/-- Pass 2 of the inverse transform (R152). -/
theorem idctCol_eq (b : Block) (r c : Fin 8) :
    idctCol b r c = ((∑ v : Fin 8, dctc v r * idctRow b v c) + 32768) / 65536 := by
  rw [idctCol, sum8_eq]; rfl

/-! ### The transformed blocks -/

/-- A coefficient of the forward transform. -/
theorem elem_fdct (b : Block) (v u : Fin 8) :
    elem (fdct b) (rasterIdx v u) = sat16 (fdctCol b v u) := by
  rw [fdct, elem_tabulate_half16 _ _ (sat16_range _), rowOf_rasterIdx, colOf_rasterIdx]

/-- Either output mode of the inverse transform gives an int16. -/
theorem outputMode_range (c : Bool) (x : Int) :
    -32768 ≤ (if c then clamp8 x else sat16 x) ∧ (if c then clamp8 x else sat16 x) ≤ 32767 := by
  cases c with
  | true => have h := clamp8_range x; simp only [if_true]; omega
  | false => exact sat16_range x

/-- An element of the inverse transform. -/
theorem elem_idct (b : Block) (c : Bool) (r k : Fin 8) :
    elem (idct b c) (rasterIdx r k) = (if c then clamp8 else sat16) (idctCol b r k) := by
  rw [idct, elem_tabulate_half16 _ _ (outputMode_range c _), rowOf_rasterIdx, colOf_rasterIdx, ite_apply]

/-! ### The commands -/

/-- A command that computes a block from a valid source and writes it to `d` completes. -/
theorem exec_writes_block {i : Instr} {s : State} {d a : BReg} {f : Block → Block}
    (h : exec i s = s.endCommand
      ((s.unit.readBlock a).map fun src => (s.unit.setBlock d (f src)).advance))
    (ha : s.unit.bvalid[a] = true) :
    ∃ t, exec i s = .next t ∧ t.unit.bvalid[d] = true ∧ t.unit.pc = s.unit.pc + 4
      ∧ t.unit.blocks[d] = f s.unit.blocks[a] :=
  ⟨_, next_of_map h (readBlock_of_valid ha), by simp, by simp, by simp⟩

/-- Settles O26: each coefficient is the saturated second pass over the first. -/
theorem fdctComputesTheTransform : Obligations.FdctComputesTheTransform := by
  intro d a s ha
  obtain ⟨t, hnext, hvalid, hpc, hblock⟩ := exec_writes_block (i := .fdct d a) (s := s) rfl ha
  refine ⟨t, hnext, hvalid, hpc, fun v u => ?_⟩
  simp only [hblock, elem_fdct, fdctCol_eq, fdctRow_eq]

/-- Settles O27: each element is the second pass over the first, in the output mode that C selects. -/
theorem idctComputesTheTransform : Obligations.IdctComputesTheTransform := by
  intro d a c s ha
  obtain ⟨t, hnext, hvalid, hpc, hblock⟩ :=
    exec_writes_block (i := .idct d a c) (s := s) (f := (idct · c)) rfl ha
  refine ⟨t, hnext, hvalid, hpc, fun r k => ?_⟩
  simp only [hblock, elem_idct, idctCol_eq, idctRow_eq]

/-! ### The range of the forward transform -/

/-- The constant row of the basis has the largest absolute sum, 8 * 2896. -/
theorem sum_abs_dctc_le (k : Fin 8) : ∑ n : Fin 8, |dctc k n| ≤ 23168 := by
  revert k; decide

/-- A basis row applied to values of magnitude at most `m`. -/
theorem abs_sum_dctc_mul_le {f : Fin 8 → Int} {m : Int} (hf : ∀ n, |f n| ≤ m) (k : Fin 8) :
    |∑ n : Fin 8, dctc k n * f n| ≤ 23168 * m := by
  have hm : 0 ≤ m := (abs_nonneg _).trans (hf 0)
  calc |∑ n : Fin 8, dctc k n * f n|
      ≤ ∑ n : Fin 8, |dctc k n * f n| := Finset.abs_sum_le_sum_abs _ _
    _ ≤ ∑ n : Fin 8, |dctc k n| * m := Finset.sum_le_sum fun n _ => by
        rw [abs_mul]; exact mul_le_mul_of_nonneg_left (hf n) (abs_nonneg _)
    _ = (∑ n : Fin 8, |dctc k n|) * m := (Finset.sum_mul ..).symm
    _ ≤ 23168 * m := mul_le_mul_of_nonneg_right (sum_abs_dctc_le k) hm

/-- The first pass over elements in [-255, 255] (R156). -/
theorem abs_fdctRow_le {b : Block} (hb : ∀ i, |elem b i| ≤ 255) (r u : Fin 8) :
    |fdctRow b r u| ≤ 5769 := by
  have h := abs_le.mp (abs_sum_dctc_mul_le (fun c => hb (rasterIdx r c)) u)
  rw [fdctRow_eq, abs_le]
  omega

/-- The second pass over first-pass values in [-5769, 5769] (R156). -/
theorem abs_fdctCol_le {b : Block} (hrow : ∀ r u, |fdctRow b r u| ≤ 5769) (v u : Fin 8) :
    |fdctCol b v u| ≤ 2039 := by
  have h := abs_le.mp (abs_sum_dctc_mul_le (fun r => hrow r u) v)
  rw [fdctCol_eq, abs_le]
  omega

/-- Settles O28: a pass scales magnitudes by at most the constant row's sum, and 2039 is an int16. -/
theorem fdctOfSamplesNeverSaturates : Obligations.FdctOfSamplesNeverSaturates := by
  intro b hb
  have hrow := abs_fdctRow_le fun i => abs_le.mpr (hb i)
  have hcol := fun v u => abs_le.mp (abs_fdctCol_le hrow v u)
  refine ⟨fun r u => abs_le.mp (hrow r u), hcol, fun v u => ?_⟩
  obtain ⟨hlow, hhigh⟩ := hcol v u
  rw [elem_fdct, sat16_of_range (by omega) (by omega)]

end Sys2Proof.Machine
end

section
/-! QUANT, DEQUANT and QGEN: levels in zig-zag order and derived tables (42_quantizer.md R170 to R179). -/

namespace Sys2Proof.Machine

/-! ### Levels -/

/-- A level in the integer division of R171. -/
theorem quantLevel_eq (v : Int) (q : Nat) :
    quantLevel v q = v.sign * ((|v| + (q : Int) / 2) / q) := by
  rw [quantLevel, Int.abs_eq_natAbs]
  push_cast
  rfl

/-- Quantizing by 1 keeps every value (R179). -/
theorem quantLevel_one (v : Int) : quantLevel v 1 = v := by
  simp [quantLevel_eq, Int.sign_mul_abs]

/-- The level at raster index ZZ[k] is made with the table's entry k (R171). -/
theorem elem_quant_zz {a : Block} {q : QTable} (hq : ∀ k : Fin 64, 1 ≤ q[k].toNat) (k : Fin 64) :
    elem (quant a q) (zz k) = quantLevel (elem a (zz k)) q[k].toNat := by
  simp only [elem_quant hq, zzInv_zz]

/-- The value at raster index ZZ[k] is made with the table's entry k (R172). -/
theorem elem_dequant_zz (a : Block) (q : QTable) (k : Fin 64) :
    elem (dequant a q) (zz k) = sat16 (elem a (zz k) * q[k].toNat) := by
  simp only [elem_dequant, zzInv_zz]

/-! ### QUANT and DEQUANT -/

/-- QUANT writes the quantized source and Z computed from it. -/
theorem exec_quant {d a : BReg} {q : Table} {s : State} (ha : s.unit.bvalid[a] = true) :
    ∃ t, exec (.quant d a q) s = .next t ∧ t.unit.bvalid[d] = true ∧ t.unit.pc = s.unit.pc + 4
      ∧ t.unit.blocks[d] = quant s.unit.blocks[a] s.unit.qt[q]
      ∧ t.unit.z = zOfBlock t.unit.blocks[d] :=
  ⟨_, next_of_map rfl (readBlock_of_valid ha), by simp, by simp, by simp, by simp⟩

/-- DEQUANT writes the dequantized source and keeps Z. -/
theorem exec_dequant {d a : BReg} {q : Table} {s : State} (ha : s.unit.bvalid[a] = true) :
    ∃ t, exec (.dequant d a q) s = .next t ∧ t.unit.bvalid[d] = true ∧ t.unit.pc = s.unit.pc + 4
      ∧ t.unit.blocks[d] = dequant s.unit.blocks[a] s.unit.qt[q] ∧ t.unit.z = s.unit.z :=
  ⟨_, next_of_map rfl (readBlock_of_valid ha), by simp, by simp, by simp, by simp⟩

/-- Settles O29: the rounded division is `quantLevel`'s, and Z is computed from the block written. -/
theorem quantRoundsToNearest : Obligations.QuantRoundsToNearest := by
  intro d a q s ha hq
  obtain ⟨t, hnext, hvalid, hpc, hblock, hz⟩ := exec_quant ha
  refine ⟨t, hnext, hvalid, hpc, fun k => ?_, by rw [hz, zOfBlock_iff]⟩
  rw [hblock, elem_quant_zz hq, quantLevel_eq]

/-- Settles O30: the saturated product, and no write of Z. -/
theorem dequantMultiplies : Obligations.DequantMultiplies := by
  intro d a q s ha
  obtain ⟨t, hnext, hvalid, hpc, hblock, hz⟩ := exec_dequant ha
  exact ⟨t, hnext, hvalid, hpc, hz, fun k => by rw [hblock, elem_dequant_zz, sat16]⟩

/-! ### Derived tables -/

/-- A derived entry is at most that of quality 0 at the last zig-zag index. -/
theorem getElem_qgen_range {v : Nat} (h : v ≤ 100) (k : Fin 64) :
    1 ≤ (qgen v)[k].toNat ∧ (qgen v)[k].toNat ≤ 158 := by
  have hprod : (16 + k.val) * (100 - v) ≤ 79 * 100 := Nat.mul_le_mul (by omega) (by omega)
  rw [getElem_qgen h]
  omega

/-- A higher quality gives no larger entry (R177). -/
theorem getElem_qgen_anti {v w : Nat} (hvw : v ≤ w) (hw : w ≤ 100) (k : Fin 64) :
    (qgen w)[k].toNat ≤ (qgen v)[k].toNat := by
  have hprod : (16 + k.val) * (100 - w) ≤ (16 + k.val) * (100 - v) :=
    Nat.mul_le_mul_left _ (by omega)
  rw [getElem_qgen hw, getElem_qgen (hvw.trans hw)]
  omega

/-- Quality 100 gives the identity quantizer's table (R179). -/
theorem getElem_qgen_hundred (k : Fin 64) : (qgen 100)[k].toNat = 1 := by
  rw [getElem_qgen le_rfl]
  omega

/-- Quantizing and dequantizing by a table of ones keeps every block (R179). -/
theorem dequant_quant_of_ones {q : QTable} (hq : ∀ k : Fin 64, q[k].toNat = 1) (b : Block) :
    dequant (quant b q) q = b := by
  refine block_ext fun i => ?_
  obtain ⟨hlow, hhigh⟩ := elem_range b i
  rw [elem_dequant, elem_quant fun k => (hq k).ge, hq, quantLevel_one, Nat.cast_one, mul_one,
    sat16_of_range hlow hhigh]

/-- Settles O32: the entry's formula is monotone, and a table of ones neither rounds nor saturates. -/
theorem qgenMonotoneAndIdentity : Obligations.QgenMonotoneAndIdentity :=
  ⟨fun _ _ k hvw hw => getElem_qgen_anti hvw hw k, getElem_qgen_hundred,
    dequant_quant_of_ones getElem_qgen_hundred⟩

/-! ### QGEN -/

/-- A field of a word by division. -/
theorem toNat_field (w : Word) (lo len : Nat) :
    (field w lo len).toNat = w.toNat / 2 ^ lo % 2 ^ len := by
  rw [field, BitVec.extractLsb'_toNat, Nat.shiftRight_eq_div_pow]

/-- QGEN's word: the table number in bits 14:13 and the quality in bits 6:0 (R103, R105). -/
theorem encode_qgen (q : Table) (v : BitVec 7) :
    encode (.qgen q v) = 0x2A000000 + BitVec.ofNat 32 (q.val * 8192 + v.toNat) := by
  have hq := q.isLt
  have hv := v.isLt
  have hword : (0x2A000000 + BitVec.ofNat 32 (q.val * 8192 + v.toNat) : Word).toNat
      = 0x2A000000 + (q.val * 8192 + v.toNat) := by
    bv_omega
  refine eq_of_formatB ?op ?d ?a ?b (field_eq_auxQuad ?table
    (field_append (lo := 0) (n := 6) (m := 7) ?zeros ?quality))
  all_goals
    apply BitVec.eq_of_toNat_eq
    simp only [toNat_field, hword, BitVec.toNat_ofNat, BitVec.reduceToNat, Fin.val_zero]
    omega

/-- Settles O31: the quality decides between the derived table and the fault. -/
theorem qgenDerivesTheTable : Obligations.QgenDerivesTheTable := by
  intro q v s
  by_cases hv : v.toNat ≤ 100
  · obtain ⟨t, hnext, hunit, -, hpc, -⟩ :=
      exec_completes (i := .qgen q v) (s := s) (u := (s.unit.setTable q (qgen v.toNat)).advance)
        (by simp only [exec, execQgen, if_neg (not_lt.mpr hv)]) rfl
    have hqt : t.unit.qt[q] = qgen v.toNat := by simp [hunit]
    refine ⟨t, hnext, ?_⟩
    rw [if_pos hv, hqt]
    exact ⟨hpc rfl, by simp [hunit], fun k => ⟨getElem_qgen hv k, getElem_qgen_range hv k⟩⟩
  · obtain ⟨t, hnext, hcode, hinfo, hfaultPc, hfault, hbusy, -, hframe⟩ :=
      faultsWith_of_endCommand (s := s) (i := .qgen q v) (code := .badParam)
        (info := encode (.qgen q v)) (by simp only [exec, execQgen, if_pos (not_le.mp hv)])
    refine ⟨t, hnext, ?_⟩
    rw [if_neg hv]
    exact ⟨hcode, hfault, hbusy, by rw [hinfo, encode_qgen], hfaultPc, hframe⟩

end Sys2Proof.Machine
end

section
/-! The lengths of codewords, triples, blocks and motion offsets (43_entropy.md R190, R201, R202). -/

namespace Sys2Proof.Machine

/-! ### Codewords -/

/-- Digit `i` of a code after its `n` zeros, for a number of `n + 1` binary digits. -/
theorem getElem?_ue_digit {v n i : Nat} (hlog : (v + 1).log2 = n) (hi : i ≤ n) :
    (ue v)[n + i]? = some ((v + 1).testBit (n - i)) := by
  have hpos : n + i - (n + 1 - 1) = i := by omega
  have hlt : i < n + 1 := by omega
  simp only [ue, hlog]
  rw [List.getElem?_append_right (by simp), List.length_replicate, hpos]
  simp [hlt]

theorem ue_zero : ue 0 = [true] := by decide

/-- Settles O33: the number of digits is the binary logarithm of v + 1, plus one. -/
theorem ueIsExpGolomb : Obligations.UeIsExpGolomb := by
  intro v n hlow hhigh
  have hlog : (v + 1).log2 = n := (Nat.log2_eq_iff (by omega)).mpr ⟨hlow, hhigh⟩
  refine ⟨by rw [length_ue, hlog], fun i hi => ?_, fun i hi => ?_⟩
  · rw [ue_eq, hlog, List.getElem?_append_left (by simpa using hi)]
    simp [hi]
  · rw [getElem?_ue_digit hlog hi, Nat.testBit_eq_decide_div_mod_eq]

theorem length_ue_le {v n : Nat} (h : v + 1 < 2 ^ (n + 1)) : (ue v).length ≤ 2 * n + 1 := by
  have hlog : (v + 1).log2 < n + 1 := (Nat.log2_lt (by omega)).mpr h
  rw [length_ue]
  omega

/-- The code of an int16 has at most the 33 bits of -32768 (R202). -/
theorem length_se_le {x : Int} (h : -32768 ≤ x ∧ x ≤ 32767) : (se x).length ≤ 33 := by
  have hsm : sm x + 1 < 2 ^ (16 + 1) := by unfold sm; split <;> omega
  exact length_ue_le hsm

theorem length_pack_mvBits_le (x y : Half) : (pack (mvBits x.toInt y.toInt)).length ≤ 9 := by
  have hx := length_se_le (toInt_range x)
  have hy := length_se_le (toInt_range y)
  rw [length_pack, mvBits, List.length_append]
  omega

/-! ### Blocks -/

theorem length_levelBits (run : Nat) (v : Int) : (levelBits run v).length
    = (ue (run + 1)).length + (ue (v.natAbs - 1)).length + 1 := by
  simp only [levelBits, List.length_append, List.length_singleton]

/-- A magnitude takes at most 31 bits (R201). -/
theorem length_magnitude_le {m : Nat} (h : m ≤ 32768) : (ue (m - 1)).length ≤ 31 :=
  length_ue_le (n := 15) (by omega)

/-- A run of zeros never takes more bits than coding its zeros as levels would: the 35 bits of R201's
longest block bound every zig-zag position. -/
theorem length_levelBits_le (run : Nat) {v : Int} (h : -32768 ≤ v ∧ v ≤ 32767) :
    (levelBits run v).length ≤ 35 * (run + 1) := by
  have hrun : (ue (run + 1)).length ≤ 2 * (run + 1) + 1 :=
    length_ue_le (Nat.lt_two_pow_self (n := run + 1 + 1))
  have hmag := length_magnitude_le (m := v.natAbs) (by omega)
  rw [length_levelBits]
  omega

theorem length_codeLevels_le : ∀ (run : Nat) (l : List Int), (∀ v ∈ l, -32768 ≤ v ∧ v ≤ 32767) →
    (codeLevels run l).length ≤ 35 * (run + l.length) + 1
  | run, [], _ => by simp [codeLevels, ue_zero]
  | run, v :: l, h => by
    obtain ⟨hv, hl⟩ := List.forall_mem_cons.mp h
    rw [codeLevels, List.length_cons]
    split
    · have := length_codeLevels_le (run + 1) l hl
      omega
    · have := length_codeLevels_le 0 l hl
      have := length_levelBits_le run hv
      rw [List.length_append]
      omega

theorem length_codeLevels_pos : ∀ (run : Nat) (l : List Int), 1 ≤ (codeLevels run l).length
  | run, [] => by simp [codeLevels, ue_zero]
  | run, v :: l => by
    rw [codeLevels]
    split
    · exact length_codeLevels_pos (run + 1) l
    · rw [List.length_append]
      exact (length_codeLevels_pos 0 l).trans (Nat.le_add_left _ _)

theorem range_of_mem_zigzagLevels {b : Block} {v : Int} (h : v ∈ zigzagLevels b) :
    -32768 ≤ v ∧ v ≤ 32767 := by
  obtain ⟨k, -, rfl⟩ := List.mem_map.mp h
  exact elem_range b (zz k)

/-- Every block codes in 1 to 281 bytes (R201). -/
theorem length_pack_blockBits (b : Block) :
    1 ≤ (pack (blockBits b)).length ∧ (pack (blockBits b)).length ≤ 281 := by
  have hle := length_codeLevels_le 0 (zigzagLevels b) fun _ => range_of_mem_zigzagLevels
  have hpos := length_codeLevels_pos 0 (zigzagLevels b)
  rw [length_zigzagLevels] at hle
  rw [length_pack, blockBits]
  omega

/-- The levels of a block of one value, in zig-zag order. -/
theorem zigzagLevels_of_const {b : Block} {v : Int} (h : ∀ i, elem b i = v) :
    zigzagLevels b = List.replicate 64 v :=
  List.eq_replicate_iff.mpr ⟨length_zigzagLevels b, fun w hw => by
    obtain ⟨k, -, rfl⟩ := List.mem_map.mp hw
    exact h (zz k)⟩

theorem blockBits_of_zeros {b : Block} (h : ∀ i, elem b i = 0) : blockBits b = [true] := by
  rw [blockBits, zigzagLevels_of_const h, ← List.append_nil (List.replicate 64 0),
    codeLevels_zeros, codeLevels, ue_zero]

theorem length_codeLevels_min : ∀ n : Nat,
    (codeLevels 0 (List.replicate n (-32768))).length = 35 * n + 1
  | 0 => by simp [codeLevels, ue_zero]
  | n + 1 => by
    have hlevel : (levelBits 0 (-32768)).length = 35 := by decide
    rw [List.replicate_succ, codeLevels, if_neg (by decide), List.length_append, hlevel,
      length_codeLevels_min n]
    omega

/-- Settles O34: each position of the zig-zag order takes at most the 35 bits of the level -32768. -/
theorem blockCodeLengthBounds : Obligations.BlockCodeLengthBounds := by
  refine ⟨fun run v _ => length_levelBits run v, fun m _ hm => length_magnitude_le hm,
    fun b hb => ?_, length_pack_blockBits, fun b hb => ?_⟩
  · rw [blockBits_of_zeros hb]
    decide
  · have hlen : (blockBits b).length = 2241 := by
      rw [blockBits, zigzagLevels_of_const hb, length_codeLevels_min]
    exact ⟨hlen, by rw [length_pack, hlen]⟩

end Sys2Proof.Machine
end

section
/-! ENCB and ENCMV: the bytes an encode writes, its overflow, and the bytes it leaves alone
(43_entropy.md R195, R197, R199, R203). -/

namespace Sys2Proof.Machine

/-! ### Emitting bits -/

theorem emitBits_of_fits {s : State} {bits : List Bool} {z : Bool}
    (h : s.unit.bsp.toNat + (pack bits).length ≤ s.unit.bse.toNat) :
    s.emitBits bits z = s.endStore (streamCells s.unit.bsp (pack bits)) fun u =>
      (u.countBytes (pack bits).length z).advance := by
  simp only [State.emitBits, if_neg (not_lt.mpr h)]

theorem emitBits_of_overflow {s : State} {bits : List Bool} {z : Bool}
    (h : s.unit.bse.toNat < s.unit.bsp.toNat + (pack bits).length) :
    s.emitBits bits z
      = s.endCommand (.error (.raise .bsOverflow (BitVec.ofNat 32 (pack bits).length))) := by
  simp only [State.emitBits, if_pos h]

/-- Where bits that fit are stored, every byte outside the window's part they take up keeps its value,
whatever stops the storing and whatever races it loses. -/
theorem read_storeBytes_outside {s : State} {data : List Byte} {x : Nat} (hm : s.mem.wf = true)
    (hfit : s.unit.bsp.toNat + data.length ≤ s.unit.bse.toNat)
    (hx : x < s.unit.bsp.toNat ∨ s.unit.bsp.toNat + data.length ≤ x) :
    (s.storeBytes (streamCells s.unit.bsp data)).1.mem.read x = s.mem.read x := by
  have hbse := s.unit.bse.isLt
  obtain ⟨done, hsub, hmem⟩ := storeBytes_mem s (streamCells s.unit.bsp data)
  rw [hmem]
  refine read_writeCells_of_notMem hm fun c hc e => ?_
  obtain ⟨j, hj, hc⟩ := mem_streamCells (hsub.subset hc)
  rw [hc, toNat_streamAddr (by omega) hj] at e
  omega

/-- Where bits that fit are stored to writable bytes, each settled byte gets its value. -/
theorem read_storeBytes_of_fits {s : State} {data : List Byte} {j : Nat} (hm : s.mem.wf = true)
    (hfit : s.unit.bsp.toNat + data.length ≤ s.unit.bse.toNat)
    (hw : ∀ c ∈ streamCells s.unit.bsp data, s.Writable c.1) (hj : j < data.length)
    (hs : s.Settled (s.unit.bsp + BitVec.ofNat 32 j)) :
    (s.storeBytes (streamCells s.unit.bsp data)).1.mem.read (s.unit.bsp.toNat + j) = data[j] := by
  have hbse := s.unit.bse.isLt
  have hread := read_storeBytes_of_settled (tail := []) hw (by simp [State.StopsAt]) hs hm
  rw [List.append_nil, toNat_streamAddr (by omega) hj, read_streamCells hj hm (by omega)] at hread
  exact hread

/-- What a completed encode of a byte string leaves: the registers of R195, the string at BSP but where a
byte is not settled, every other byte as it was, and no byte less readable than before. -/
structure EncodeDone (s t : State) (data : List Byte) (z : Bool) : Prop where
  unit : t.unit = (s.unit.countBytes data.length z).advance.complete
  written : ∀ j (h : j < data.length), s.Settled (s.unit.bsp + BitVec.ofNat 32 j) →
    t.mem.read (s.unit.bsp.toNat + j) = data[j]
  outside : ∀ x, (x < s.unit.bsp.toNat ∨ s.unit.bsp.toNat + data.length ≤ x) →
    t.mem.read x = s.mem.read x
  readable : ∀ a, s.Readable a → t.Readable a

/-- A byte string whose length fits in a window is counted exactly. -/
theorem toNat_countBytes {u : UnitState} {n : Nat} {z : Bool} (h : u.bsp.toNat + n ≤ u.bse.toNat) :
    (u.countBytes n z).bsp.toNat = u.bsp.toNat + n ∧ (u.countBytes n z).acc.toNat = n := by
  have hbse := u.bse.isLt
  simp only [UnitState.countBytes_bsp, UnitState.countBytes_acc, BitVec.toNat_add,
    BitVec.toNat_ofNat]
  omega

theorem EncodeDone.bsp {s t : State} {data : List Byte} {z : Bool} (h : EncodeDone s t data z)
    (hfit : s.unit.bsp.toNat + data.length ≤ s.unit.bse.toNat) :
    t.unit.bsp.toNat = s.unit.bsp.toNat + data.length := by
  rw [h.unit, UnitState.complete_bsp, UnitState.advance_bsp, (toNat_countBytes hfit).1]

theorem EncodeDone.acc {s t : State} {data : List Byte} {z : Bool} (h : EncodeDone s t data z)
    (hfit : s.unit.bsp.toNat + data.length ≤ s.unit.bse.toNat) :
    t.unit.acc.toNat = data.length := by
  rw [h.unit, UnitState.complete_acc, UnitState.advance_acc, (toNat_countBytes hfit).2]

theorem EncodeDone.z {s t : State} {data : List Byte} {z : Bool} (h : EncodeDone s t data z) :
    t.unit.z = z := by
  simp [h.unit]

theorem EncodeDone.pc {s t : State} {data : List Byte} {z : Bool} (h : EncodeDone s t data z) :
    t.unit.pc = s.unit.pc + 4 := by
  simp [h.unit]

/-- An encode that fits a writable part of the window completes. -/
theorem emitBits_completes {s : State} {bits : List Bool} {z : Bool} (hm : s.mem.wf = true)
    (hfit : s.unit.bsp.toNat + (pack bits).length ≤ s.unit.bse.toNat)
    (hw : ∀ j < (pack bits).length, s.Writable (s.unit.bsp + BitVec.ofNat 32 j)) :
    ∃ t, s.emitBits bits z = .next t ∧ EncodeDone s t (pack bits) z := by
  have hcells : ∀ c ∈ streamCells s.unit.bsp (pack bits), s.Writable c.1 := fun c hc => by
    obtain ⟨j, hj, hc⟩ := mem_streamCells hc
    rw [hc]
    exact hw j hj
  refine ⟨_, (emitBits_of_fits hfit).trans (endStore_of_writable hcells), rfl,
    fun j hj => read_storeBytes_of_fits hm hfit hcells hj,
    fun x => read_storeBytes_outside hm hfit, fun a ⟨hplain, hsettled⟩ => ⟨hplain, ?_⟩⟩
  have hlater := settled_storeBytes_of_settled (cells := streamCells s.unit.bsp (pack bits)) hsettled
  have hself := (storeBytes_unit s (streamCells s.unit.bsp (pack bits))).2
  rw [State.Settled, State.staleAt, hself] at hlater
  exact hlater

/-! ### Encodes that complete -/

theorem exec_encb_of_valid {a : BReg} {s : State} (h : s.unit.bvalid[a] = true) :
    exec (.encb a) s = s.emitBits (blockBits s.unit.blocks[a]) (zOfBlock s.unit.blocks[a]) := by
  simp only [exec, execEncb, readBlock_of_valid h]

theorem exec_encmv (s : State) : exec .encmv s
    = s.emitBits (mvBits s.unit.dx.toInt s.unit.dy.toInt) (zOfOffset s.unit.dx s.unit.dy) := rfl

theorem zOfOffset_iff {dx dy : Half} : zOfOffset dx dy = true ↔ dx = 0 ∧ dy = 0 := by
  simp [zOfOffset]

/-- Settles O35: ENCB emits the block's code. -/
theorem encbWritesTheBlockCode : Obligations.EncbWritesTheBlockCode := by
  intro a s ha hm hfit hw
  obtain ⟨t, hnext, hdone⟩ := emitBits_completes hm hfit hw
  exact ⟨t, (exec_encb_of_valid ha).trans hnext, hdone.written, hdone.outside, hdone.bsp hfit,
    hdone.acc hfit, by rw [hdone.z, zOfBlock_iff], hdone.pc⟩

/-- Settles O36: ENCMV emits the offset's code, of at most 9 bytes. -/
theorem encmvWritesTheOffsetCode : Obligations.EncmvWritesTheOffsetCode := by
  intro s hm hfit hw
  obtain ⟨t, hnext, hdone⟩ := emitBits_completes hm hfit hw
  exact ⟨t, (exec_encmv s).trans hnext, hdone.written, hdone.outside, hdone.bsp hfit,
    hdone.acc hfit, (hdone.acc hfit).trans_le (length_pack_mvBits_le _ _),
    by rw [hdone.z, zOfOffset_iff], hdone.pc⟩

/-! ### Encodes in every outcome -/

/-- Settles O37: no code is too long for FAULT_INFO to hold its length. -/
theorem encodeOverflowWritesNothing : Obligations.EncodeOverflowWritesNothing := by
  intro s i data hi hover
  have hemit : ∃ bits z, exec i s = s.emitBits bits z ∧ data = pack bits ∧ data.length < 2 ^ 32 := by
    obtain ⟨a, rfl, ha, rfl⟩ | ⟨rfl, rfl⟩ := hi
    · exact ⟨_, _, exec_encb_of_valid ha, rfl,
        (length_pack_blockBits _).2.trans_lt (by decide)⟩
    · exact ⟨_, _, exec_encmv s, rfl, (length_pack_mvBits_le _ _).trans_lt (by decide)⟩
  obtain ⟨bits, z, hexec, rfl, hlen⟩ := hemit
  obtain ⟨t, hnext, hcode, hinfo, hrest⟩ :=
    faultsWith_of_endCommand (hexec.trans (emitBits_of_overflow hover))
  exact ⟨t, hnext, hcode, by rw [hinfo, BitVec.toNat_ofNat, Nat.mod_eq_of_lt hlen], hrest⟩

/-- Emitting bits changes no byte outside the window, in every outcome (R203). -/
theorem read_of_emitBits {s t : State} {bits : List Bool} {z : Bool} {x : Nat} (hm : s.mem.wf = true)
    (h : s.emitBits bits z = .next t) (hx : x < s.unit.bsp.toNat ∨ s.unit.bse.toNat ≤ x) :
    t.mem.read x = s.mem.read x := by
  rcases Nat.lt_or_ge s.unit.bse.toNat (s.unit.bsp.toNat + (pack bits).length) with hover | hfit
  · rw [emitBits_of_overflow hover] at h
    rw [(endCommand_keeps_memory h).1]
  · rw [emitBits_of_fits hfit, endStore_eq_endAfter] at h
    obtain ⟨m, st, rfl, ⟨u, -, -, rfl⟩ | ⟨code, info, rfl, -⟩⟩ := endAfter_next h
    all_goals exact read_storeBytes_outside hm hfit (by omega)

/-- Settles O38: an encode emits bits, or stops before it stores any. -/
theorem encodeStaysInTheWindow : Obligations.EncodeStaysInTheWindow := by
  rintro s t i (⟨a, rfl⟩ | rfl) hm h x hx
  · cases ha : s.unit.bvalid[a] with
    | true => exact read_of_emitBits hm ((exec_encb_of_valid ha).symm.trans h) hx
    | false =>
      simp only [exec, execEncb, readBlock_of_invalid ha] at h
      rw [(endCommand_keeps_memory h).1]
  · exact read_of_emitBits hm ((exec_encmv s).symm.trans h) hx

end Sys2Proof.Machine
end

section
/-! DECB and DECMV on codes: what they decode, the round trips, and that they accept nothing else
(43_entropy.md R198, R200, R204, R205). -/

namespace Sys2Proof.Machine

/-! ### Decoding a code -/

/-- The window starts with these bytes, all readable. -/
def State.WindowStarts (s : State) (data : List Byte) : Prop :=
  s.unit.bsp.toNat + data.length ≤ s.unit.bse.toNat
    ∧ ∀ j (h : j < data.length), s.Readable (s.unit.bsp + BitVec.ofNat 32 j)
      ∧ s.mem.read (s.unit.bsp.toNat + j) = data[j]

/-- The registers DECB leaves when it decoded a block from a number of bytes. -/
def UnitState.withBlock (u : UnitState) (d : BReg) (b : Block) (n : Nat) : UnitState :=
  ((u.setBlock d b).countBytes n (zOfBlock b)).advance

/-- The registers DECMV leaves when it decoded an offset from a number of bytes. -/
def UnitState.withOffset (u : UnitState) (x y : Int) (n : Nat) : UnitState :=
  { (u.countBytes n (zOfOffset (half16 x) (half16 y))).advance with dx := half16 x, dy := half16 y }

namespace UnitState

variable (u : UnitState) (d : BReg) (b : Block) (x y : Int) (n : Nat)

@[simp] theorem withBlock_blocks : (u.withBlock d b n).blocks = u.blocks.set d b := rfl
@[simp] theorem withBlock_bvalid : (u.withBlock d b n).bvalid = u.bvalid.set d true := rfl
@[simp] theorem withBlock_bsp : (u.withBlock d b n).bsp = u.bsp + BitVec.ofNat 32 n := rfl
@[simp] theorem withBlock_acc : (u.withBlock d b n).acc = BitVec.ofNat 32 n := rfl
@[simp] theorem withBlock_z : (u.withBlock d b n).z = zOfBlock b := rfl
@[simp] theorem withBlock_pc : (u.withBlock d b n).pc = u.pc + 4 := rfl

@[simp] theorem withOffset_dx : (u.withOffset x y n).dx = half16 x := rfl
@[simp] theorem withOffset_dy : (u.withOffset x y n).dy = half16 y := rfl
@[simp] theorem withOffset_bsp : (u.withOffset x y n).bsp = u.bsp + BitVec.ofNat 32 n := rfl
@[simp] theorem withOffset_acc : (u.withOffset x y n).acc = BitVec.ofNat 32 n := rfl
@[simp] theorem withOffset_z : (u.withOffset x y n).z = zOfOffset (half16 x) (half16 y) := rfl
@[simp] theorem withOffset_pc : (u.withOffset x y n).pc = u.pc + 4 := rfl

end UnitState

theorem exec_decb (d : BReg) (s : State) : exec (.decb d) s
    = s.endCommand (s.decodeBlock.map fun (r, n) => s.unit.withBlock d r n) := rfl

theorem exec_decmv (s : State) : exec .decmv s
    = s.endCommand (s.decodeOffset.map fun (x, y, n) => s.unit.withOffset x y n) := rfl

theorem exec_decb_of_windowStarts {s : State} {b : Block} (d : BReg)
    (h : s.WindowStarts (pack (blockBits b))) : ∃ t, exec (.decb d) s = .next t
      ∧ t.unit = (s.unit.withBlock d b (pack (blockBits b)).length).complete :=
  ⟨_, next_of_map (exec_decb d s) (decodeBlock_of_holds (holds_of_pack h.1 h.2)), rfl⟩

theorem exec_decmv_of_windowStarts {s : State} {x y : Half}
    (h : s.WindowStarts (pack (mvBits x.toInt y.toInt))) : ∃ t, exec .decmv s = .next t
      ∧ t.unit = (s.unit.withOffset x.toInt y.toInt (pack (mvBits x.toInt y.toInt)).length).complete :=
  ⟨_, next_of_map (exec_decmv s) (decodeOffset_of_holds (holds_of_pack h.1 h.2)), rfl⟩

/-- Settles O39: reading the block's code gives the block, and `withBlock` is what DECB then writes. -/
theorem decbDecodesTheBlockCode : Obligations.DecbDecodesTheBlockCode := by
  intro d s b hfit h
  obtain ⟨t, hnext, hunit⟩ := exec_decb_of_windowStarts d ⟨hfit, h⟩
  obtain ⟨hbsp, hacc⟩ := toNat_countBytes (z := zOfBlock b) hfit
  exact ⟨t, hnext, by simp [hunit], by simp [hunit], by rwa [hunit, UnitState.complete_bsp],
    by rwa [hunit, UnitState.complete_acc], by simp [hunit, zOfBlock_iff], by simp [hunit]⟩

/-- Settles O40: reading the offset's code gives the offset, and `withOffset` is what DECMV then writes. -/
theorem decmvDecodesTheOffsetCode : Obligations.DecmvDecodesTheOffsetCode := by
  intro s x y hfit h
  obtain ⟨t, hnext, hunit⟩ := exec_decmv_of_windowStarts (s := s) (x := x) (y := y) ⟨hfit, h⟩
  obtain ⟨hbsp, hacc⟩ := toNat_countBytes (z := zOfOffset x y) hfit
  exact ⟨t, hnext, by simp [hunit], by simp [hunit], by rwa [hunit, UnitState.complete_bsp],
    by rwa [hunit, UnitState.complete_acc], by simp [hunit, zOfOffset_iff], by simp [hunit]⟩

/-! ### Round trips -/

/-- After a completed encode into readable bytes, the window from the encode's start on starts with the
code. -/
theorem windowStarts_of_encodeDone {s t t₀ : State} {data : List Byte} {z : Bool}
    (hfit : s.unit.bsp.toNat + data.length ≤ s.unit.bse.toNat)
    (hread : ∀ j < data.length, s.Readable (s.unit.bsp + BitVec.ofNat 32 j))
    (h : EncodeDone s t data z) (ht₀ : t₀ = { t with unit := t₀.unit })
    (hbsp : t₀.unit.bsp = s.unit.bsp) (hbse : t₀.unit.bse = t.unit.bse) : t₀.WindowStarts data := by
  have hbse : t₀.unit.bse = s.unit.bse := by simp [hbse, h.unit]
  refine ⟨by rwa [hbsp, hbse], fun j hj => ?_⟩
  rw [hbsp, ht₀]
  exact ⟨h.readable _ (hread j hj), h.written j hj (hread j hj).2⟩

/-- Settles O41: the encode leaves its code in the window, and the decode reads it from the same start. -/
theorem encodeThenDecodeRoundTrip : Obligations.EncodeThenDecodeRoundTrip := by
  refine ⟨fun a d s ha hm hfit hread => ?_, fun s x y hm hfit hread => ?_⟩
  · obtain ⟨t, hnext, hdone⟩ :=
      emitBits_completes (z := zOfBlock s.unit.blocks[a]) hm hfit fun j hj =>
        writable_of_plain (hread j hj).1
    obtain ⟨t', hnext', hunit'⟩ := exec_decb_of_windowStarts d
      (windowStarts_of_encodeDone (t₀ := { t with unit := { t.unit with bsp := s.unit.bsp } })
        hfit hread hdone rfl rfl rfl)
    refine ⟨t, t', (exec_encb_of_valid ha).trans hnext, hnext', ?_⟩
    simp [hunit', hdone.unit]
  · obtain ⟨t, hnext, hdone⟩ :=
      emitBits_completes (z := zOfOffset s.unit.dx s.unit.dy) hm hfit fun j hj =>
        writable_of_plain (hread j hj).1
    obtain ⟨t', hnext', hunit'⟩ := exec_decmv_of_windowStarts
      (windowStarts_of_encodeDone
        (t₀ := { t with unit := { t.unit with bsp := s.unit.bsp, dx := x, dy := y } })
        hfit hread hdone rfl rfl rfl)
    refine ⟨t, t', (exec_encmv s).trans hnext, hnext', ?_⟩
    simp [hunit', hdone.unit]

/-! ### Accepting only codes -/

/-- A command that obtains a value and counted itself in CMDCNT obtained it. -/
theorem ok_of_cmdcnt {i : Instr} {s t : State} {α : Type} {x : Except Stop α} {f : α → UnitState}
    (hi : exec i s = s.endCommand (x.map f)) (h : exec i s = .next t)
    (hc : t.unit.cmdcnt = s.unit.cmdcnt + 1) : ∃ v, x = .ok v ∧ t.unit = (f v).complete := by
  rw [hi] at h
  obtain ⟨u, hu, rfl⟩ | ⟨code, info, -, rfl⟩ := endCommand_next h
  · cases x with
    | error e => cases hu
    | ok v => cases hu; exact ⟨v, rfl, rfl⟩
  · have hkeep : s.unit.cmdcnt = s.unit.cmdcnt + 1 := hc
    bv_omega

/-- Settles O42: a completed decode held the code and its padding, which is the packed code. -/
theorem decodeAcceptsOnlyCodes : Obligations.DecodeAcceptsOnlyCodes := by
  refine fun s t hsettled hc => ⟨fun d h => ?_, fun h => ?_⟩
  · obtain ⟨⟨b, n⟩, hdec, hunit⟩ := ok_of_cmdcnt (exec_decb d s) h hc
    obtain ⟨hholds, rfl⟩ := holds_of_decodeBlock hdec
    have hacc : t.unit.acc = BitVec.ofNat 32 (pack (blockBits b)).length := by simp [hunit]
    obtain rfl : t.unit.blocks[d] = b := by simp [hunit]
    have hlen := (length_pack_blockBits t.unit.blocks[d]).2
    refine ⟨?_, pack_of_holds hsettled hholds⟩
    rw [hacc, BitVec.toNat_ofNat, Nat.mod_eq_of_lt (by omega)]
  · obtain ⟨⟨x, y, n⟩, hdec, hunit⟩ := ok_of_cmdcnt (exec_decmv s) h hc
    obtain ⟨hholds, rfl, ⟨hx, hx'⟩, hy, hy'⟩ := holds_of_decodeOffset hdec
    have hdx : t.unit.dx = half16 x := by simp [hunit]
    have hdy : t.unit.dy = half16 y := by simp [hunit]
    have hacc : t.unit.acc = BitVec.ofNat 32 (pack (mvBits x y)).length := by simp [hunit]
    have hlen := length_pack_mvBits_le (half16 x) (half16 y)
    rw [hdx, hdy]
    rw [toInt_half16 hx hx', toInt_half16 hy hy'] at hlen ⊢
    refine ⟨?_, pack_of_holds hsettled hholds⟩
    rw [hacc, BitVec.toNat_ofNat, Nat.mod_eq_of_lt (by omega)]

end Sys2Proof.Machine
end

section
/-! Decodes that stop: at the bit at which their bits are no code, at the end of the window, at a byte whose
access is denied (43_entropy.md R196, R198, R200, R207). -/

namespace Sys2Proof.Machine

/-! ### What a read does with given bits -/

/-- The read `x` takes these bits from bit `j` on: it answers `r` where they are held, and a stop at one of
them is its own. -/
def State.Reads (s : State) {α : Type} (x : Except Stop α) (j : Nat) (bits : List Bool)
    (r : Except Stop α) : Prop :=
  (s.Holds j bits → x = r) ∧ ∀ e, s.CutIn j bits e → x = .error e

section
variable {s : State} {α β : Type} {x : Except Stop α} {f : α → Except Stop β} {j : Nat}
  {a b : List Bool}

/-- A read of no bits. -/
theorem reads_nil (s : State) (x : Except Stop α) (j : Nat) : s.Reads x j [] x :=
  ⟨fun _ => rfl, fun e h => absurd h (not_cutIn_nil s j e)⟩

/-- A read that answers, and the read after it. -/
theorem State.Reads.bind {v : α} {r : Except Stop β} (hx : s.Reads x j a (.ok v))
    (hf : s.Reads (f v) (j + a.length) b r) : s.Reads (x >>= f) j (a ++ b) r := by
  refine ⟨fun h => ?_, fun e h => ?_⟩
  · obtain ⟨ha, hb⟩ := holds_append.mp h
    rw [hx.1 ha]
    exact hf.1 hb
  · obtain ha | ⟨ha, hb⟩ := cutIn_append.mp h
    · rw [hx.2 e ha]
      rfl
    · rw [hx.1 ha]
      exact hf.2 e hb

/-- A read that answers, and what follows it without reading a bit. -/
theorem State.Reads.bind_ok {v : α} {r : Except Stop β} (hx : s.Reads x j a (.ok v)) (hf : f v = r) :
    s.Reads (x >>= f) j a r := by
  have h := hx.bind (reads_nil s (f v) (j + a.length))
  rwa [List.append_nil, hf] at h

/-- A read that finds its bits corrupt leaves nothing to what follows it. -/
theorem State.Reads.bind_corrupt {n : Nat} (hx : s.Reads x j a (corrupt n)) :
    s.Reads (x >>= f) j a (corrupt n) := by
  refine ⟨fun h => ?_, fun e h => ?_⟩
  · rw [hx.1 h]
    rfl
  · rw [hx.2 e h]
    rfl

end

theorem reads_readBit (s : State) (j : Nat) (b : Bool) : s.Reads (s.readBit j) j [b] (.ok b) :=
  ⟨fun h => (holds_cons.mp h).1, fun e h =>
    (cutIn_cons.mp h).elim id fun h => absurd h.2 (not_cutIn_nil s _ e)⟩

theorem reads_readUe {v : Nat} (hv : v + 1 < 2 ^ 17) (s : State) (j : Nat) :
    s.Reads (s.readUe j) j (ue v) (.ok (v, j + (ue v).length)) :=
  ⟨readUe_of_holds hv, fun _ => readUe_of_cutIn hv⟩

/-- The 17th zero of a number is corrupt (R196). -/
theorem reads_readUe_tooMany (s : State) (j : Nat) :
    s.Reads (s.readUe j) j (List.replicate 17 false) (corrupt (j + 17)) :=
  ⟨readUe_of_tooMany, fun _ => readUe_of_cutZeros⟩

/-- A 1 in the padding is corrupt (R196). -/
theorem reads_readPadding_one {z j : Nat} (h : badPadding j z) (s : State) :
    s.Reads (s.readPadding 7 j) j (List.replicate z false ++ [true]) (corrupt (j + (z + 1))) := by
  obtain ⟨hj, hz⟩ := h
  exact ⟨readPadding_of_one hj hz (by omega), fun _ => readPadding_of_cutIn hj hz (by omega)⟩

/-! ### Levels -/

/-- The rest of a round of the decode loop, at the zig-zag index of its level (R198). -/
def State.decodeLevelAt (s : State) (rounds i j : Nat) (r : Block) : Except Stop (Block × Nat) := do
  let (m, j) ← s.readUe j
  let neg ← s.readBit j
  if 32768 < m + 1 ∨ (m + 1 = 32768 ∧ neg = false) then corrupt (j + 1)
  else
    s.decodeLevels rounds (i + 1) (j + 1)
      (r.set (zz (Fin.ofNat 64 i)) (half16 (if neg then -((m + 1 : Nat) : Int) else (m + 1 : Nat))))

theorem decodeLevels_succ (s : State) (rounds k j : Nat) (r : Block) :
    s.decodeLevels (rounds + 1) k j r = s.readUe j >>= fun (r1, j) =>
      if r1 = 0 then .ok (r, j)
      else if 63 < k + (r1 - 1) then corrupt j
      else s.decodeLevelAt rounds (k + (r1 - 1)) j r := rfl

section
variable {s : State} {rounds k j : Nat} {r : Block} {tail : List Bool}
  {res : Except Stop (Block × Nat)}

/-- The end of block. -/
theorem reads_decodeLevels_end (s : State) (rounds k j : Nat) (r : Block) :
    s.Reads (s.decodeLevels (rounds + 1) k j r) j (ue 0) (.ok (r, j + (ue 0).length)) := by
  rw [decodeLevels_succ]
  exact (reads_readUe (by decide) s j).bind_ok (if_pos rfl)

/-- A run that stays within the block, and what its level then reads. -/
theorem reads_decodeLevels_run {run : Nat} (hrun : k + run ≤ 63)
    (h : s.Reads (s.decodeLevelAt rounds (k + run) (j + (ue (run + 1)).length) r)
      (j + (ue (run + 1)).length) tail res) :
    s.Reads (s.decodeLevels (rounds + 1) k j r) j (ue (run + 1) ++ tail) res := by
  rw [decodeLevels_succ]
  refine (reads_readUe (by omega) s j).bind ?_
  dsimp only
  rw [if_neg (by omega), Nat.add_sub_cancel, if_neg (by omega)]
  exact h

/-- A run past position 63 is corrupt (R198). -/
theorem reads_decodeLevels_past {r1 : Nat} (hpos : 1 ≤ r1) (hr : r1 + 1 < 2 ^ 17) (hpast : 64 < k + r1)
    (s : State) (rounds j : Nat) (r : Block) :
    s.Reads (s.decodeLevels (rounds + 1) k j r) j (ue r1) (corrupt (j + (ue r1).length)) := by
  rw [decodeLevels_succ]
  refine (reads_readUe hr s j).bind_ok ?_
  dsimp only
  rw [if_neg (by omega), if_pos (by omega)]

/-- A magnitude and its sign, and what the decode does with them. -/
theorem reads_decodeLevelAt {i m : Nat} {neg : Bool} (hm : m + 1 < 2 ^ 17)
    (h : s.Reads (if 32768 < m + 1 ∨ (m + 1 = 32768 ∧ neg = false)
        then corrupt (j + (ue m).length + 1)
        else s.decodeLevels rounds (i + 1) (j + (ue m).length + 1)
          (r.set (zz (Fin.ofNat 64 i))
            (half16 (if neg then -((m + 1 : Nat) : Int) else (m + 1 : Nat)))))
      (j + (ue m).length + 1) tail res) :
    s.Reads (s.decodeLevelAt rounds i j r) j (ue m ++ ([neg] ++ tail)) res :=
  (reads_readUe hm s j).bind ((reads_readBit s _ neg).bind h)

/-- A 17th zero in the magnitude is corrupt (R196). -/
theorem reads_decodeLevelAt_tooMany (s : State) (rounds i j : Nat) (r : Block) :
    s.Reads (s.decodeLevelAt rounds i j r) j (List.replicate 17 false) (corrupt (j + 17)) :=
  (reads_readUe_tooMany s j).bind_corrupt

/-- A level outside int16 is corrupt (R198). -/
theorem reads_decodeLevelAt_range {mag : Nat} {neg : Bool} (hlow : 32768 ≤ mag) (hhigh : mag < 2 ^ 17)
    (hneg : mag = 32768 → neg = false) (s : State) (rounds i j : Nat) (r : Block) :
    s.Reads (s.decodeLevelAt rounds i j r) j (ue (mag - 1) ++ [neg])
      (corrupt (j + (ue (mag - 1)).length + 1)) := by
  rw [← List.append_nil [neg]]
  refine reads_decodeLevelAt (by omega) ?_
  rw [if_pos (by
    rcases hlow.lt_or_eq with h | h
    · exact .inl (by omega)
    · exact .inr ⟨by omega, hneg h.symm⟩)]
  exact reads_nil ..

/-- One whole triple, and the rounds after it. -/
theorem reads_decodeLevels_triple {run : Nat} {v : Int} (hrun : k + run ≤ 63)
    (hv : v ≠ 0 ∧ -32768 ≤ v ∧ v ≤ 32767)
    (h : s.Reads (s.decodeLevels rounds (k + (run + 1)) (j + (levelBits run v).length)
        (r.set (zz (Fin.ofNat 64 (k + run))) (half16 v)))
      (j + (levelBits run v).length) tail res) :
    s.Reads (s.decodeLevels (rounds + 1) k j r) j (levelBits run v ++ tail) res := by
  obtain ⟨hne, hlow, hhigh⟩ := hv
  rw [length_levelBits] at h
  rw [levelBits, List.append_assoc, List.append_assoc]
  refine reads_decodeLevels_run hrun (reads_decodeLevelAt (by omega) ?_)
  have hmag : v.natAbs - 1 + 1 = v.natAbs := by omega
  have hlevel : (if decide (v < 0) = true then -(v.natAbs : Int) else (v.natAbs : Int)) = v := by
    simp only [decide_eq_true_eq]
    split <;> omega
  rw [hmag, hlevel, if_neg (by rw [decide_eq_false_iff_not]; omega)]
  simpa only [Nat.add_assoc] using h

end

/-- Legal triples, and what the decode does after them. -/
theorem reads_decodeLevels_triples {s : State} {tail : List Bool} {K J : Nat}
    {res : Block → Except Stop (Block × Nat)} (hK : K ≤ 64)
    (h : ∀ n r, s.Reads (s.decodeLevels (n + 1) K J r) J tail (res r)) :
    ∀ {l : List (Nat × Int)} {rounds k j : Nat} (r : Block),
      (∀ t ∈ l, t.2 ≠ 0 ∧ -32768 ≤ t.2 ∧ t.2 ≤ 32767) → l.length < rounds → k + tripleSpan l = K →
      j + (tripleBits l).length = J →
      ∃ r', s.Reads (s.decodeLevels rounds k j r) j (tripleBits l ++ tail) (res r')
  | [], rounds + 1, k, j, r, _, _, hk, hj => by
    obtain rfl : k = K := hk
    obtain rfl : j = J := hj
    exact ⟨r, h rounds r⟩
  | (run, v) :: l, rounds + 1, k, j, r, hl, hlen, hk, hj => by
    obtain ⟨hv, hl⟩ := List.forall_mem_cons.mp hl
    rw [tripleSpan, List.map_cons, List.sum_cons, ← tripleSpan] at hk
    rw [tripleBits, List.flatMap_cons, ← tripleBits] at hj ⊢
    rw [List.length_append] at hj
    dsimp only at hk hj hv
    obtain ⟨r', hr'⟩ := reads_decodeLevels_triples hK h (rounds := rounds) (k := k + (run + 1))
      (j := j + (levelBits run v).length) (r.set (zz (Fin.ofNat 64 (k + run))) (half16 v)) hl
      (by simpa using hlen) (by omega) (by omega)
    refine ⟨r', ?_⟩
    rw [List.append_assoc]
    exact reads_decodeLevels_triple (by omega) hv hr'

theorem length_le_tripleSpan (l : List (Nat × Int)) : l.length ≤ tripleSpan l := by
  have h := List.length_le_sum_of_one_le (l.map fun t => t.1 + 1) fun n hn => by
    obtain ⟨t, -, rfl⟩ := List.mem_map.mp hn
    exact Nat.le_add_left 1 t.1
  rwa [List.length_map] at h

/-- From the start of the window, legal triples and what the decode does after them. -/
theorem reads_decodeLevels_of_legal {s : State} {l : List (Nat × Int)} {tail : List Bool}
    {res : Block → Except Stop (Block × Nat)} (hl : legalTriples l)
    (h : ∀ n r, s.Reads (s.decodeLevels (n + 1) (tripleSpan l) (tripleBits l).length r)
      (tripleBits l).length tail (res r)) :
    ∃ r', s.Reads (s.decodeLevels 65 0 0 Block.zero) 0 (tripleBits l ++ tail) (res r') := by
  obtain ⟨hlevels, hspan⟩ := hl
  have hlen := length_le_tripleSpan l
  exact reads_decodeLevels_triples hspan h Block.zero hlevels (by omega) (Nat.zero_add _)
    (Nat.zero_add _)

/-! ### Blocks -/

theorem decodeBlock_eq (s : State) : s.decodeBlock
    = s.decodeLevels 65 0 0 Block.zero >>= fun (r, j) => s.readPadding 7 j >>= fun n => .ok (r, n) :=
  rfl

/-- After legal triples, bits that a round of the decode loop finds corrupt. -/
theorem reads_decodeBlock_of_legal {s : State} {l : List (Nat × Int)} {tail : List Bool}
    (hl : legalTriples l)
    (h : ∀ j n r, s.Reads (s.decodeLevels (n + 1) (tripleSpan l) j r) j tail
      (corrupt (j + tail.length))) :
    s.Reads s.decodeBlock 0 (tripleBits l ++ tail) (corrupt (tripleBits l ++ tail).length) := by
  obtain ⟨r', hr'⟩ := reads_decodeLevels_of_legal hl fun n r => h (tripleBits l).length n r
  rw [decodeBlock_eq, List.length_append]
  exact hr'.bind_corrupt

/-- Each of the five ways to be no block code is found at the last of its bits. -/
theorem reads_decodeBlock_of_corruptBlock {bits : List Bool} (h : corruptBlock bits) (s : State) :
    s.Reads s.decodeBlock 0 bits (corrupt bits.length) := by
  obtain ⟨l, hl, rfl | ⟨r1, hpos, hr1, hpast, rfl⟩ | ⟨run, hrun, rfl⟩
    | ⟨run, mag, neg, hrun, hlow, hhigh, hneg, rfl⟩ | ⟨z, hz, rfl⟩⟩ := h
  case inl => exact reads_decodeBlock_of_legal hl fun j n r => (reads_readUe_tooMany s j).bind_corrupt
  case inr.inl =>
    exact reads_decodeBlock_of_legal hl fun j n r => reads_decodeLevels_past hpos hr1 hpast s n j r
  case inr.inr.inl =>
    rw [List.append_assoc]
    refine reads_decodeBlock_of_legal hl fun j n r => reads_decodeLevels_run hrun ?_
    rw [List.length_append, List.length_replicate, ← Nat.add_assoc]
    exact reads_decodeLevelAt_tooMany ..
  case inr.inr.inr.inl =>
    rw [List.append_assoc, List.append_assoc]
    refine reads_decodeBlock_of_legal hl fun j n r => reads_decodeLevels_run hrun ?_
    rw [List.length_append, List.length_append, List.length_singleton, ← Nat.add_assoc,
      ← Nat.add_assoc]
    exact reads_decodeLevelAt_range hlow hhigh hneg ..
  case inr.inr.inr.inr =>
    obtain ⟨r', hr'⟩ := reads_decodeLevels_of_legal hl fun n r => reads_decodeLevels_end s n _ _ r
    rw [← List.length_append] at hr'
    rw [decodeBlock_eq, List.append_assoc, List.length_append (bs := List.replicate z false ++ [true])]
    refine hr'.bind ?_
    rw [Nat.zero_add]
    refine State.Reads.bind_corrupt ?_
    rw [List.length_append (as := List.replicate z false), List.length_replicate]
    exact reads_readPadding_one (by rwa [List.length_append, ue_zero]) s

/-- The triples of levels in zig-zag order after a number of zeros (R193). -/
def triplesOf : Nat → List Int → List (Nat × Int)
  | _, [] => []
  | run, v :: vs => if v = 0 then triplesOf (run + 1) vs else (run, v) :: triplesOf 0 vs

theorem codeLevels_eq_tripleBits : ∀ (run : Nat) (l : List Int),
    codeLevels run l = tripleBits (triplesOf run l) ++ ue 0
  | run, [] => rfl
  | run, v :: l => by
    rw [codeLevels, triplesOf]
    split
    · exact codeLevels_eq_tripleBits (run + 1) l
    · rw [codeLevels_eq_tripleBits 0 l, tripleBits, tripleBits, List.flatMap_cons, List.append_assoc]

theorem tripleSpan_triplesOf : ∀ (run : Nat) (l : List Int),
    tripleSpan (triplesOf run l) ≤ run + l.length
  | run, [] => by simp [triplesOf, tripleSpan]
  | run, v :: l => by
    rw [triplesOf, List.length_cons]
    split
    · have := tripleSpan_triplesOf (run + 1) l
      omega
    · have := tripleSpan_triplesOf 0 l
      rw [tripleSpan] at this ⊢
      rw [List.map_cons, List.sum_cons]
      omega

theorem mem_triplesOf {t : Nat × Int} : ∀ {run : Nat} {l : List Int}, t ∈ triplesOf run l →
    t.2 ≠ 0 ∧ t.2 ∈ l
  | run, v :: l, h => by
    rw [triplesOf] at h
    split at h
    · obtain ⟨hne, hmem⟩ := mem_triplesOf h
      exact ⟨hne, List.mem_cons_of_mem v hmem⟩
    · next hv =>
      rcases List.mem_cons.mp h with rfl | h
      · exact ⟨hv, List.mem_cons_self⟩
      · obtain ⟨hne, hmem⟩ := mem_triplesOf h
        exact ⟨hne, List.mem_cons_of_mem v hmem⟩

/-- The code of a block is legal triples and the end of block. -/
theorem blockBits_eq_tripleBits (b : Block) :
    ∃ l, legalTriples l ∧ blockBits b = tripleBits l ++ ue 0 := by
  have hspan := tripleSpan_triplesOf 0 (zigzagLevels b)
  rw [length_zigzagLevels, Nat.zero_add] at hspan
  refine ⟨triplesOf 0 (zigzagLevels b), ⟨fun t ht => ?_, hspan⟩, codeLevels_eq_tripleBits 0 _⟩
  obtain ⟨hne, hmem⟩ := mem_triplesOf ht
  exact ⟨hne, range_of_mem_zigzagLevels hmem⟩

/-- DECB stops where reading its bits stops. -/
theorem decodeBlock_of_cutIn {s : State} {bits : List Bool} {e : Stop} (h : blockStream bits)
    (hc : s.CutIn 0 bits e) : s.decodeBlock = .error e := by
  obtain ⟨b, rfl⟩ | h := h
  · obtain ⟨l, hl, hbits⟩ := blockBits_eq_tripleBits b
    obtain ⟨r, hr⟩ := reads_decodeLevels_of_legal hl fun n r => reads_decodeLevels_end s n _ _ r
    rw [hbits] at hc
    rw [decodeBlock_eq, hr.2 e hc]
    rfl
  · exact (reads_decodeBlock_of_corruptBlock h s).2 e hc

/-! ### Offsets -/

/-- Read one component of a motion offset and check that it is an int16 (R200). -/
def State.readComponent (s : State) (j : Nat) : Except Stop (Int × Nat) :=
  s.readSe j >>= fun (x, j) => checkInt16 x j >>= fun _ => .ok (x, j)

theorem decodeOffset_eq (s : State) : s.decodeOffset
    = s.readComponent 0 >>= fun (x, j) => s.readComponent j >>= fun (y, j) =>
      s.readPadding 7 j >>= fun n => .ok (x, y, n) := by
  simp only [State.decodeOffset, State.readComponent, bind_assoc]
  rfl

theorem checkInt16_of_range {x : Int} (h : -32768 ≤ x ∧ x ≤ 32767) (j : Nat) :
    checkInt16 x j = .ok () :=
  if_neg (by omega)

theorem checkInt16_of_not_range {x : Int} (h : x < -32768 ∨ 32767 < x) (j : Nat) :
    checkInt16 x j = corrupt j :=
  if_pos h

theorem reads_readComponent (s : State) (j : Nat) (x : Half) :
    s.Reads (s.readComponent j) j (se x.toInt) (.ok (x.toInt, j + (se x.toInt).length)) := by
  have hx := toInt_range x
  have hse : s.Reads (s.readSe j) j (se x.toInt) (.ok (x.toInt, j + (se x.toInt).length)) :=
    ⟨readSe_of_holds (by omega), fun _ => readSe_of_cutIn (by omega)⟩
  refine hse.bind_ok ?_
  dsimp only
  rw [checkInt16_of_range hx]
  rfl

/-- A 17th zero in a component is corrupt (R196). -/
theorem reads_readComponent_tooMany (s : State) (j : Nat) :
    s.Reads (s.readComponent j) j (List.replicate 17 false) (corrupt (j + 17)) :=
  (reads_readUe_tooMany s j).bind_corrupt.bind_corrupt

/-- A component outside int16 is corrupt (R200). -/
theorem reads_readComponent_range {m : Nat} (hm : m + 1 < 2 ^ 17) (h : ism m < -32768 ∨ 32767 < ism m)
    (s : State) (j : Nat) :
    s.Reads (s.readComponent j) j (ue m) (corrupt (j + (ue m).length)) := by
  refine ((reads_readUe hm s j).bind_ok rfl).bind_ok (v := (ism m, j + (ue m).length)) ?_
  dsimp only
  rw [checkInt16_of_not_range h]
  rfl

/-- After no component or after DX, bits that the next component is corrupt at. -/
theorem reads_decodeOffset_of_component {s : State} {x tail : List Bool}
    (hx : x = [] ∨ ∃ dx : Half, x = se dx.toInt)
    (h : ∀ j, s.Reads (s.readComponent j) j tail (corrupt (j + tail.length))) :
    s.Reads s.decodeOffset 0 (x ++ tail) (corrupt (x ++ tail).length) := by
  rw [decodeOffset_eq, List.length_append]
  obtain rfl | ⟨dx, rfl⟩ := hx
  · exact (h 0).bind_corrupt
  · refine (reads_readComponent s 0 dx).bind ?_
    rw [Nat.zero_add]
    exact (h _).bind_corrupt

/-- After both components, what the reading of the padding gives. -/
theorem reads_decodeOffset_of_mvBits {s : State} {dx dy : Half} {tail : List Bool}
    {r : Except Stop (Int × Int × Nat)}
    (h : s.Reads (s.readPadding 7 (mvBits dx.toInt dy.toInt).length >>= fun n =>
      .ok (dx.toInt, dy.toInt, n)) (mvBits dx.toInt dy.toInt).length tail r) :
    s.Reads s.decodeOffset 0 (mvBits dx.toInt dy.toInt ++ tail) r := by
  rw [mvBits, List.length_append] at h
  rw [decodeOffset_eq, mvBits, List.append_assoc]
  refine (reads_readComponent s 0 dx).bind ((reads_readComponent s _ dy).bind ?_)
  rw [Nat.zero_add]
  exact h

/-- Each way to be no motion code is found at the last of its bits. -/
theorem reads_decodeOffset_of_corruptOffset {bits : List Bool} (h : corruptOffset bits) (s : State) :
    s.Reads s.decodeOffset 0 bits (corrupt bits.length) := by
  obtain ⟨x, hx, rfl | ⟨m, hm, hrange, rfl⟩⟩ | ⟨dx, dy, z, hz, rfl⟩ := h
  case inl.inl => exact reads_decodeOffset_of_component hx fun j => reads_readComponent_tooMany s j
  case inl.inr =>
    exact reads_decodeOffset_of_component hx fun j => reads_readComponent_range hm hrange s j
  case inr =>
    rw [List.append_assoc, List.length_append]
    refine reads_decodeOffset_of_mvBits (State.Reads.bind_corrupt ?_)
    rw [List.length_append, List.length_replicate]
    exact reads_readPadding_one hz s

/-- DECMV stops where reading its bits stops. -/
theorem decodeOffset_of_cutIn {s : State} {bits : List Bool} {e : Stop} (h : offsetStream bits)
    (hc : s.CutIn 0 bits e) : s.decodeOffset = .error e := by
  obtain ⟨x, y, rfl⟩ | h := h
  · rw [← List.append_nil (mvBits x.toInt y.toInt)] at hc
    exact (reads_decodeOffset_of_mvBits (reads_nil ..)).2 e hc
  · exact (reads_decodeOffset_of_corruptOffset h s).2 e hc

end Sys2Proof.Machine
end

section
/-! The faults of DECB and DECMV: BS_CORRUPT, BS_TRUNCATED and BUS_ERROR (43_entropy.md R196, R207,
60_exceptions.md R252, R255). -/

namespace Sys2Proof.Machine

/-! ### Bits of the window -/

theorem streamAddr_eq (a : Word) (k : Nat) : BitVec.ofNat 32 (a.toNat + k) = a + BitVec.ofNat 32 k := by
  rw [BitVec.ofNat_add, BitVec.ofNat_toNat, BitVec.setWidth_eq]

/-- A bit of a byte inside the window is one of the byte read there. -/
theorem readBit_inside {s : State} {j : Nat} (h : s.unit.bsp.toNat + j / 8 < s.unit.bse.toNat) :
    s.readBit j = (s.readByte .stream (s.unit.bsp + BitVec.ofNat 32 (j / 8))).map fun cur =>
      cur.getLsbD (7 - j % 8) := by
  simp only [State.readBit, State.streamByte, if_neg (not_le.mpr h), streamAddr_eq]

/-- A bit at or beyond the window's end is not read (R196). -/
theorem readBit_outside {s : State} {j : Nat} (h : s.unit.bse.toNat ≤ s.unit.bsp.toNat + j / 8) :
    s.readBit j = .error (.raise .bsTruncated (BitVec.ofNat 32 j)) := by
  simp only [State.readBit, State.streamByte, if_pos h]
  rfl

/-- Reading a window that holds bits gives them. -/
theorem holds_of_windowHolds {s : State} {bits : List Bool} (h : windowHolds s bits) :
    s.Holds 0 bits := by
  obtain ⟨hfit, hbits⟩ := h
  intro i hi
  have hbse := s.unit.bse.isLt
  obtain ⟨hread, hbit⟩ := hbits i hi
  have haddr : (s.unit.bsp + BitVec.ofNat 32 (i / 8)).toNat = s.unit.bsp.toNat + i / 8 :=
    toNat_streamAddr (n := (bits.length + 7) / 8) (by omega) (by omega)
  rw [Nat.zero_add, readBit_inside (by omega), readByte_of_readable hread, haddr, ← hbit]
  rfl

/-- A stream whose held start is followed by a bit that is not read stops there. -/
theorem cutIn_of_holds {s : State} {bits rest : List Bool} {e : Stop} (hrest : rest ≠ [])
    (h : s.Holds 0 bits) (he : s.readBit bits.length = .error e) : s.CutIn 0 (bits ++ rest) e :=
  cutIn_append.mpr (.inr ⟨h, 0, List.length_pos_iff.mpr hrest, by simpa using holds_nil s _,
    by simpa using he⟩)

/-! ### Faults -/

theorem faultsWith_of_decodeBlock {s : State} {code : FaultCode} {info : Word} (d : BReg)
    (h : s.decodeBlock = .error (.raise code info)) : faultsWith s (.decb d) code info :=
  faultsWith_of_endCommand (by rw [exec_decb, h]; rfl)

theorem faultsWith_of_decodeOffset {s : State} {code : FaultCode} {info : Word}
    (h : s.decodeOffset = .error (.raise code info)) : faultsWith s .decmv code info :=
  faultsWith_of_endCommand (by rw [exec_decmv, h]; rfl)

/-- Where a bit after held ones is not read, a decode that still needs it takes the fault and does nothing
else. -/
theorem faultsWith_of_unread {s : State} {bits rest : List Bool} {code : FaultCode} {info : Word}
    (hrest : rest ≠ []) (h : s.Holds 0 bits)
    (he : s.readBit bits.length = .error (.raise code info)) :
    (blockStream (bits ++ rest) → ∀ d, faultsWith s (.decb d) code info)
      ∧ (offsetStream (bits ++ rest) → faultsWith s .decmv code info) :=
  have hcut := cutIn_of_holds hrest h he
  ⟨fun hb d => faultsWith_of_decodeBlock d (decodeBlock_of_cutIn hb hcut),
    fun ho => faultsWith_of_decodeOffset (decodeOffset_of_cutIn ho hcut)⟩

/-- Both decodes need a first bit. -/
theorem faultsWith_of_emptyWindow {s : State} {i : Instr} (hi : (∃ d, i = .decb d) ∨ i = .decmv)
    (h : s.unit.bse.toNat ≤ s.unit.bsp.toNat) : faultsWith s i .bsTruncated 0 := by
  have hread : s.readBit 0 = .error (.raise .bsTruncated 0) := readBit_outside (by omega)
  obtain ⟨d, rfl⟩ | rfl := hi
  · exact (faultsWith_of_unread (by decide) (holds_nil s 0) hread).1
      (.inl ⟨Block.zero, (blockBits_of_zeros elem_zero).symm⟩) d
  · exact (faultsWith_of_unread (by decide) (holds_nil s 0) hread).2
      (.inl ⟨0, 0, (show mvBits (0 : Half).toInt (0 : Half).toInt = [true, true] by decide).symm⟩)

/-- Settles O43: corrupt bits are read to the last one, and a stream the window cuts off to the window's
end. -/
theorem brokenCodesFault : Obligations.BrokenCodesFault := by
  refine ⟨fun s d bits hw hbits => ?_, fun s bits hw hbits => ?_,
    fun s bits rest hrest hw hend => ?_, fun s i hi hempty => faultsWith_of_emptyWindow hi hempty⟩
  · exact faultsWith_of_decodeBlock d
      ((reads_decodeBlock_of_corruptBlock hbits s).1 (holds_of_windowHolds hw))
  · exact faultsWith_of_decodeOffset
      ((reads_decodeOffset_of_corruptOffset hbits s).1 (holds_of_windowHolds hw))
  · exact faultsWith_of_unread hrest (holds_of_windowHolds hw) (readBit_outside (by omega))

/-- A command that obtains a value or stops, and did not count itself in CMDCNT, took the fault of the
stop. -/
theorem raise_of_cmdcnt {i : Instr} {s t : State} {α : Type} {x : Except Stop α} {f : α → UnitState}
    (hi : exec i s = s.endCommand (x.map f)) (h : exec i s = .next t)
    (hf : ∀ a, (f a).cmdcnt = s.unit.cmdcnt) (hc : t.unit.cmdcnt = s.unit.cmdcnt) :
    x = .error (.raise t.unit.fcode t.unit.faultInfo) := by
  rw [hi] at h
  obtain ⟨u, hu, rfl⟩ | ⟨code, info, hx, rfl⟩ := endCommand_next h
  · cases x with
    | error e => cases hu
    | ok v =>
      cases hu
      have hkeep : (f v).complete.cmdcnt = s.unit.cmdcnt := hc
      rw [UnitState.complete_cmdcnt, hf v] at hkeep
      bv_omega
  · cases x with
    | error e => cases hx; rfl
    | ok v => cases hx

/-- A decode stops with a bus error only at a byte inside the window. -/
theorem inside_of_decodeStop {s : State} {info : Word} (h : DecodeStop s (.raise .busError info)) :
    s.unit.bsp.toNat ≤ info.toNat ∧ info.toNat < s.unit.bse.toNat := by
  have hbse := s.unit.bse.isLt
  obtain ⟨j, hj⟩ | ⟨j, hj⟩ | ⟨j, hj, hdenied⟩ := h
  · cases hj
  · cases hj
  · obtain hinfo | ⟨why, hwhy⟩ := denies_cases hdenied
    · cases hinfo
      rw [BitVec.toNat_ofNat, Nat.mod_eq_of_lt (by omega)]
      omega
    · cases hwhy

/-- Settles O44: by what a decode can stop with, and by the first bit of the byte it cannot read. -/
theorem decodeReadsStayInTheWindow : Obligations.DecodeReadsStayInTheWindow := by
  refine ⟨fun s t i hi h hc hcode => inside_of_decodeStop ?_,
    fun s n bits rest hrest hlen hw hin hbus => ?_⟩
  · obtain ⟨d, rfl⟩ | rfl := hi
    · exact decodeBlock_error (hcode ▸ raise_of_cmdcnt (exec_decb d s) h (fun _ => rfl) hc)
    · exact decodeOffset_error (hcode ▸ raise_of_cmdcnt (exec_decmv s) h (fun _ => rfl) hc)
  · have hbyte : bits.length / 8 = n := by omega
    have hread : s.readBit bits.length = .error (.raise .busError (s.unit.bsp + BitVec.ofNat 32 n)) := by
      rw [readBit_inside (by omega), hbyte, readByte_of_denied (denies_of_not_busOK hbus)]
      rfl
    exact faultsWith_of_unread hrest (holds_of_windowHolds hw) hread

end Sys2Proof.Machine
end

section
/-! MOV, CLR and the residual commands SUB, ADDC and SAD (44_motion_residual.md R225 to R229). -/

namespace Sys2Proof.Machine

/-! ### MOV and CLR -/

/-- Settles O23: MOV writes its source block as it is, also when it is the destination, and CLR the zero
block. -/
theorem movCopiesAndClrZeroes : Obligations.MovCopiesAndClrZeroes := by
  refine fun d a s => ⟨fun ha => ?_, ?_⟩
  · obtain ⟨t, hnext, hvalid, hpc, hblock⟩ :=
      exec_writes_block (i := .mov d a) (s := s) (f := id) rfl ha
    exact ⟨t, hnext, hblock, hvalid, hpc⟩
  · exact ⟨_, next_of_ok (i := .clr d) rfl, by simp, by simp, by simp⟩

/-! ### Differences and sums -/

theorem elem_subBlock (a b : Block) (i : Fin 64) :
    elem (subBlock a b) i = sat16 (elem a i - elem b i) :=
  elem_tabulate_half16 (fun i => sat16 (elem a i - elem b i)) i (sat16_range _)

theorem elem_addClampBlock (a b : Block) (i : Fin 64) :
    elem (addClampBlock a b) i = clamp8 (elem a i + elem b i) := by
  have hrange := clamp8_range (elem a i + elem b i)
  exact elem_tabulate_half16 (fun i => clamp8 (elem a i + elem b i)) i (by omega)

/-- A command that computes a block from two valid sources and writes it to `d` completes. -/
theorem exec_combines_blocks {i : Instr} {s : State} {d a b : BReg} {f : Block → Block → Block}
    (h : exec i s = s.endCommand
      ((s.unit.readBlocks a b).map fun v => (s.unit.setBlock d (f v.1 v.2)).advance))
    (ha : s.unit.bvalid[a] = true) (hb : s.unit.bvalid[b] = true) :
    ∃ t, exec i s = .next t ∧ t.unit.blocks[d] = f s.unit.blocks[a] s.unit.blocks[b]
      ∧ t.unit.bvalid[d] = true ∧ t.unit.pc = s.unit.pc + 4 :=
  ⟨_, next_of_map h (readBlocks_of_valid ha hb), by simp, by simp, by simp⟩

/-- Settles O24: both sources are read before the destination is written. -/
theorem subSaturatesAndAddcClamps : Obligations.SubSaturatesAndAddcClamps := by
  intro d a b s ha hb
  obtain ⟨ts, hsub, hsblock, hsrest⟩ :=
    exec_combines_blocks (i := .sub d a b) (s := s) (f := subBlock) rfl ha hb
  obtain ⟨ta, hadd, hablock, harest⟩ :=
    exec_combines_blocks (i := .addc d a b) (s := s) (f := addClampBlock) rfl ha hb
  refine ⟨ts, ta, hsub, hadd, fun i => ?_, fun i => ?_,
    List.forall_mem_cons.mpr ⟨hsrest, List.forall_mem_singleton.mpr harest⟩⟩
  · rw [hsblock, elem_subBlock, sat16]
  · rw [hablock, elem_addClampBlock, clamp8]

/-! ### Sums of absolute differences -/

theorem sadBlock_eq (a b : Block) : (sadBlock a b : Int) = ∑ i : Fin 64, |elem a i - elem b i| := by
  simp only [sadBlock, sum64_eq, Nat.cast_sum, Int.natCast_natAbs]

/-- The largest sum, 64 differences of 65535 (R229). -/
theorem sadBlock_le (a b : Block) : sadBlock a b ≤ 4194240 := by
  have hterm : ∀ i ∈ Finset.univ, (elem a i - elem b i).natAbs ≤ 65535 := fun i _ => by
    have ha := elem_range a i
    have hb := elem_range b i
    omega
  rw [sadBlock, sum64_eq]
  exact Finset.sum_le_card_nsmul _ _ _ hterm

/-- ACC holds every sum (R36). -/
theorem toNat_ofNat_sadBlock (a b : Block) :
    (BitVec.ofNat 32 (sadBlock a b)).toNat = sadBlock a b := by
  rw [BitVec.toNat_ofNat, Nat.mod_eq_of_lt ((sadBlock_le a b).trans_lt (by decide))]

theorem zOfAcc_iff {acc : Word} : zOfAcc acc = true ↔ acc = 0 := beq_iff_eq

/-- Settles O25: the largest sum fits ACC, and Z is computed from what ACC gets. -/
theorem sadSumsDifferences : Obligations.SadSumsDifferences := by
  intro a b s ha hb
  refine ⟨_, next_of_map (i := .sad a b) rfl (readBlocks_of_valid ha hb), ?_, ?_, ?_, by simp⟩
  · rw [UnitState.complete_acc, toNat_ofNat_sadBlock, sadBlock_eq]
  · rw [UnitState.complete_acc, toNat_ofNat_sadBlock]
    exact sadBlock_le _ _
  · rw [UnitState.complete_acc, UnitState.complete_z, zOfAcc_iff]

end Sys2Proof.Machine
end

section
/-! What a motion search answers, by the outcome of its reads (44_motion_residual.md R230), and the windows that
lie outside their plane (R221). -/

namespace Sys2Proof.Machine

/-! ### The outcomes of a search -/

theorem search_of_outside {s : State} {ps : PlaneDesc} (pr : PlaneDesc) (radius : Nat)
    (h : ¬ ps.inBounds s.unit.x.toNat s.unit.y.toNat 16 = true) : s.search ps pr radius
      = .error (.raise .pixBounds (windowInfo s.unit.x.toNat s.unit.y.toNat)) := by
  simp only [State.search, if_neg h]

/-- A source window that cannot be read stops the search before any candidate. -/
theorem search_of_unread {s : State} {ps pr : PlaneDesc} {radius : Nat} {e : Stop}
    (hin : ps.inBounds s.unit.x.toNat s.unit.y.toNat 16 = true)
    (h : s.readWindow ps s.unit.x.toNat s.unit.y.toNat 16 .sample = .error e) :
    s.search ps pr radius = .error e := by
  simp only [State.search, if_pos hin, h]
  rfl

/-- With the source window read, the search gives what the candidates give, and PIX_BOUNDS where they give
nothing. -/
theorem search_of_read {s : State} {ps pr : PlaneDesc} {radius : Nat} {src : List Byte}
    (hin : ps.inBounds s.unit.x.toNat s.unit.y.toNat 16 = true)
    (h : s.readWindow ps s.unit.x.toNat s.unit.y.toNat 16 .sample = .ok src) :
    s.search ps pr radius = s.searchFrom src pr 0 (candidates radius) none >>= fun best =>
      best.elim (.error (.raise .pixBounds (windowInfo s.unit.x.toNat s.unit.y.toNat))) .ok := by
  simp only [State.search, if_pos hin, h]
  refine congrArg (s.searchFrom src pr 0 (candidates radius) none >>= ·) (funext fun best => ?_)
  cases best <;> rfl

/-- A search that raises a fault is the command's fault, and it writes no register. -/
theorem faultsWith_of_search {s : State} {ps pr : Plane} {radius : BitVec 6} {code : FaultCode}
    {info : Word}
    (h : s.search s.unit.pd[ps] s.unit.pd[pr] radius.toNat = .error (.raise code info)) :
    faultsWith s (.msrch ps pr radius) code info :=
  faultsWith_of_endCommand (by simp only [exec, execMsrch, h]; rfl)

/-! ### Windows outside their plane -/

theorem faultsWith_ldpx_of_outside {s : State} {d : BReg} {p : Plane} {m h : Bool} {x y : Int}
    (hmode : ¬ (h = true ∧ m = false)) (hpos : s.unit.loadPosition m h = (x, y))
    (hout : ¬ s.unit.pd[p].inBounds x y 8 = true) :
    faultsWith s (.ldpx d p m h) .pixBounds (windowInfo x y) := by
  have hillegal : ¬ (h && !m) = true := by simpa using hmode
  exact faultsWith_of_endCommand
    (by simp only [exec, execLdpx, if_neg hillegal, hpos, if_neg hout])

theorem faultsWith_stpx_of_outside {s : State} {a : BReg} {p : Plane}
    (ha : s.unit.bvalid[a] = true)
    (hout : ¬ s.unit.pd[p].inBounds s.unit.x.toNat s.unit.y.toNat 8 = true) :
    faultsWith s (.stpx a p) .pixBounds (windowInfo s.unit.x.toNat s.unit.y.toNat) :=
  faultsWith_of_endCommand (by simp only [exec, execStpx, readBlock_of_valid ha, if_neg hout])

/-- Settles O46: the three commands check their window before any access, and FAULT_INFO holds its
position. -/
theorem windowOutsidePlaneFaults : Obligations.WindowOutsidePlaneFaults := by
  intro s i p x y size hi hout
  rw [← inBounds_iff] at hout
  have hfault : faultsWith s i .pixBounds (windowInfo x y) := by
    obtain ⟨d, m, h, rfl, hmode, rfl, hx, hy⟩ | ⟨a, rfl, ha, rfl, rfl, rfl⟩
      | ⟨pr, r, rfl, rfl, rfl, rfl⟩ := hi
    · exact faultsWith_ldpx_of_outside hmode (by rw [loadPosition_eq _ hmode, hx, hy]) hout
    · exact faultsWith_stpx_of_outside ha hout
    · exact faultsWith_of_search (search_of_outside _ _ hout)
  obtain ⟨t, hnext, hcode, hinfo, hrest⟩ := hfault
  exact ⟨t, hnext, hcode, by rw [hinfo, toNat_windowInfo], hrest⟩

end Sys2Proof.Machine
end

section
/-! Stores that complete or meet a bad byte: STPX, and the first bytes that STPX, ENCB and ENCMV leave written
(44_motion_residual.md R224, 60_exceptions.md R258). -/

namespace Sys2Proof.Machine

/-! ### The cells STPX writes -/

/-- Cells written in raster order: the byte of element `i` stays where no later element has its address. -/
theorem read_writeCells_storeCell {m : Memory} {d : PlaneDesc} {x y : Half} {b : Block}
    {l : List (Fin 64)} {i : Fin 64} (hm : m.wf = true) (hl : l.Pairwise (· < ·)) (hi : i ∈ l)
    (hlast : ∀ j ∈ l, i < j → (storeCell d x y b j).1 ≠ (storeCell d x y b i).1) :
    (m.writeCells (l.map (storeCell d x y b))).read (storeCell d x y b i).1.toNat
      = (storeCell d x y b i).2 := by
  obtain ⟨before, after, rfl⟩ := List.append_of_mem hi
  obtain ⟨-, hafter, -⟩ := List.pairwise_append.mp hl
  rw [List.map_append, List.map_cons]
  refine read_writeCells_append _ hm (List.forall_mem_map.mpr fun j hj => ?_)
  exact hlast j (by simp [hj]) (List.rel_of_pairwise_cons hafter hj)

/-- The cells before element `k`'s are those of the elements before it, in raster order. -/
theorem storeCells_eq_append (d : PlaneDesc) (x y : Half) (b : Block) (k : Fin 64) :
    ∃ before after : List (Fin 64), before.Pairwise (· < ·) ∧ (∀ i, i ∈ before ↔ i < k)
      ∧ storeCells d x y b = before.map (storeCell d x y b)
        ++ storeCell d x y b k :: after.map (storeCell d x y b) := by
  obtain ⟨before, after, hsplit⟩ := List.append_of_mem (List.mem_finRange k)
  have hsorted := List.pairwise_lt_finRange 64
  rw [hsplit] at hsorted
  obtain ⟨hbefore, hafter, hlt⟩ := List.pairwise_append.mp hsorted
  refine ⟨before, after, hbefore, fun i => ⟨fun hi => hlt i hi k (by simp), fun hi => ?_⟩, ?_⟩
  · have hmem : i ∈ before ++ k :: after := hsplit ▸ List.mem_finRange i
    simp only [List.mem_append, List.mem_cons] at hmem
    obtain hmem | rfl | hmem := hmem
    · exact hmem
    · exact absurd hi (lt_irrefl _)
    · exact absurd hi (lt_asymm (List.rel_of_pairwise_cons hafter hmem))
  · rw [← List.map_cons, ← List.map_append, ← hsplit]
    rfl

/-- STPX of a valid register whose window is inside its plane stores the window's cells. -/
theorem exec_stpx_of_inBounds {s : State} {a : BReg} {p : Plane} (ha : s.unit.bvalid[a] = true)
    (hx : s.unit.x.toNat + 8 ≤ s.unit.pd[p].width.toNat)
    (hy : s.unit.y.toNat + 8 ≤ s.unit.pd[p].height.toNat) : exec (.stpx a p) s
      = s.endStore (storeCells s.unit.pd[p] s.unit.x s.unit.y s.unit.blocks[a]) UnitState.advance := by
  have hin : s.unit.pd[p].inBounds s.unit.x.toNat s.unit.y.toNat 8 = true :=
    inBounds_iff.mpr (by omega)
  simp only [exec, execStpx, readBlock_of_valid ha, if_pos hin]

/-- Settles O47: a settled byte ends as if all cells were written in order, and any other byte as if some
were. -/
theorem stpxStoresClampedSamples : Obligations.StpxStoresClampedSamples := by
  intro a p s addr ha hm haddr hx hy hw
  obtain rfl : addr = _ := funext haddr
  have hcells : ∀ c ∈ storeCells s.unit.pd[p] s.unit.x s.unit.y s.unit.blocks[a], s.Writable c.1 :=
    fun c hc => by
      obtain ⟨i, rfl⟩ := mem_storeCells.mp hc
      exact hw i i.isLt
  refine ⟨_, (exec_stpx_of_inBounds ha hx hy).trans (endStore_of_writable hcells), by simp,
    fun i hlast hs => ?_, fun x => ?_⟩
  · have hread := read_storeBytes_of_settled (tail := []) hcells (by simp [State.StopsAt]) hs hm
    rw [List.append_nil] at hread
    have hwrite := read_writeCells_storeCell (b := s.unit.blocks[a]) hm
      (List.pairwise_lt_finRange 64) (List.mem_finRange i) fun j _ => hlast j
    rw [← toNat_clamp8_byte]
    exact congrArg (fun v : Byte => (v.toNat : Int)) (hread.trans hwrite)
  · obtain ⟨done, hsub, hmem⟩ :=
      storeBytes_mem s (storeCells s.unit.pd[p] s.unit.x s.unit.y s.unit.blocks[a])
    dsimp only
    rw [hmem]
    obtain hkeep | ⟨c, hc, hcx, hread⟩ := read_writeCells_cases done x hm
    · exact .inl hkeep
    · obtain ⟨i, rfl⟩ := mem_storeCells.mp (hsub.subset hc)
      exact .inr ⟨i, hcx, by rw [hread]; exact toNat_clamp8_byte _⟩

/-! ### Stores that meet a bad byte -/

/-- What a store leaves that raises BUS_ERROR at address `a` after the cells before it: the fault's registers,
those cells in memory but where a byte is not settled, and every other byte as it was. -/
structure StoreStopped (s t : State) (cells : List (Word × Byte)) (a : Word) : Prop where
  unit : t.unit = s.unit.enterFault .busError a
  written : ∀ b, s.Settled b → t.mem.read b.toNat = (s.mem.writeCells cells).read b.toNat
  outside : ∀ x, (∀ c ∈ cells, c.1.toNat ≠ x) → t.mem.read x = s.mem.read x

theorem StoreStopped.fault {s t : State} {cells : List (Word × Byte)} {a : Word}
    (h : StoreStopped s t cells a) : t.unit.fcode = .busError ∧ t.unit.faultInfo = a
      ∧ t.unit.faultPc = s.unit.pc ∧ t.unit.fault = true ∧ t.unit.busy = false
      ∧ ∀ r : RegName, r ∉ faultRegs → r.same s.unit t.unit := by
  rw [h.unit]
  exact ⟨rfl, rfl, rfl, rfl, rfl, same_enterFault _ _ _⟩

/-- A store whose bytes before a bad one are writable stops there. -/
theorem endStore_of_busError {s : State} {cells cells' : List (Word × Byte)} {a : Word} {v : Byte}
    {regs : UnitState → UnitState} (hm : s.mem.wf = true) (hw : ∀ c ∈ cells, s.Writable c.1)
    (ha : s.busOK a = false) :
    ∃ t, s.endStore (cells ++ (a, v) :: cells') regs = .next t ∧ StoreStopped s t cells a := by
  have hdenied := deniesWrite_of_not_busOK ha
  have hstop : s.StopsAt ((a, v) :: cells') := by
    rintro c ⟨⟩
    simp [hdenied]
  obtain ⟨m, st, hnext, rfl, -⟩ := endStore_of_denied (v := v) (cells' := cells') (regs := regs)
    hw hdenied
  refine ⟨_, hnext, rfl, fun b hs => read_storeBytes_of_settled hw hstop hs hm, fun x hx => ?_⟩
  obtain ⟨done, hsub, hmem⟩ := storeBytes_mem_of_stopsAt hw hstop
  dsimp only
  rw [hmem]
  exact read_writeCells_of_notMem hm fun c hc => hx c (hsub.subset hc)

/-- STPX with element `k`'s byte the first bad one leaves exactly the bytes of the elements before it. -/
theorem exec_stpx_of_busError {s : State} {a : BReg} {p : Plane} {k : Fin 64}
    (ha : s.unit.bvalid[a] = true) (hm : s.mem.wf = true)
    (hx : s.unit.x.toNat + 8 ≤ s.unit.pd[p].width.toNat)
    (hy : s.unit.y.toNat + 8 ≤ s.unit.pd[p].height.toNat)
    (hbus : s.busOK (s.unit.pd[p].windowAddr s.unit.x.toNat s.unit.y.toNat 8 k) = false)
    (hw : ∀ i < k.val, s.Writable (s.unit.pd[p].windowAddr s.unit.x.toNat s.unit.y.toNat 8 i)) :
    ∃ t, ∃ before : List (Fin 64), exec (.stpx a p) s = .next t ∧ before.Pairwise (· < ·)
      ∧ (∀ i, i ∈ before ↔ i < k) ∧ StoreStopped s t
        (before.map (storeCell s.unit.pd[p] s.unit.x s.unit.y s.unit.blocks[a]))
        (s.unit.pd[p].windowAddr s.unit.x.toNat s.unit.y.toNat 8 k) := by
  obtain ⟨before, after, hsorted, hmem, hsplit⟩ :=
    storeCells_eq_append s.unit.pd[p] s.unit.x s.unit.y s.unit.blocks[a] k
  have hcells : ∀ c ∈ before.map (storeCell s.unit.pd[p] s.unit.x s.unit.y s.unit.blocks[a]),
      s.Writable c.1 := List.forall_mem_map.mpr fun i hi => hw i ((hmem i).mp hi)
  rw [exec_stpx_of_inBounds ha hx hy, hsplit]
  obtain ⟨t, hnext, hstop⟩ := endStore_of_busError hm hcells hbus
  exact ⟨t, before, hnext, hsorted, hmem, hstop⟩

/-- A byte string in memory is its first bytes and then the rest, from the address after them. -/
theorem streamCells_append : ∀ (l l' : List Byte) (a : Word),
    streamCells a (l ++ l') = streamCells a l ++ streamCells (a + BitVec.ofNat 32 l.length) l'
  | [], l', a => by simp [streamCells]
  | b :: l, l', a => by
    have haddr : a + 1 + BitVec.ofNat 32 l.length = a + BitVec.ofNat 32 (l.length + 1) := by
      rw [BitVec.ofNat_add]
      ac_rfl
    rw [List.cons_append, streamCells, streamCells_append l l', haddr]
    rfl

/-- The cells of a byte string before byte `m`, that byte's, and those after it. -/
theorem streamCells_split {data : List Byte} {m : Nat} (a : Word) (h : m < data.length) :
    ∃ after, streamCells a data
      = streamCells a (data.take m) ++ (a + BitVec.ofNat 32 m, data[m]) :: after := by
  have hdata : data = data.take m ++ data[m] :: data.drop (m + 1) := by
    rw [← List.drop_eq_getElem_cons h, List.take_append_drop]
  refine ⟨streamCells (a + BitVec.ofNat 32 m + 1) (data.drop (m + 1)), ?_⟩
  conv_lhs => rw [hdata, streamCells_append, List.length_take_of_le h.le]
  rfl

/-- An encode that fits, with byte `m` of its code the first bad one, leaves exactly the bytes before it. -/
theorem emitBits_of_busError {s : State} {bits : List Bool} {z : Bool} {m : Nat}
    (hm : s.mem.wf = true) (hfit : s.unit.bsp.toNat + (pack bits).length ≤ s.unit.bse.toNat)
    (hlt : m < (pack bits).length) (hbus : s.busOK (s.unit.bsp + BitVec.ofNat 32 m) = false)
    (hw : ∀ j < m, s.Writable (s.unit.bsp + BitVec.ofNat 32 j)) :
    ∃ t, s.emitBits bits z = .next t ∧ StoreStopped s t (streamCells s.unit.bsp ((pack bits).take m))
      (s.unit.bsp + BitVec.ofNat 32 m) := by
  obtain ⟨after, hsplit⟩ := streamCells_split s.unit.bsp hlt
  rw [emitBits_of_fits hfit, hsplit]
  refine endStore_of_busError hm (fun c hc => ?_) hbus
  obtain ⟨j, hj, hc⟩ := mem_streamCells hc
  rw [hc]
  exact hw j (hj.trans_le (List.length_take_le m _))

/-- Settles O48: the cells before the bad byte are those of the elements before it, or the first bytes of the
code. -/
theorem storeBusErrorKeepsThePrefix : Obligations.StoreBusErrorKeepsThePrefix := by
  refine ⟨fun a p s addr k ha hm haddr hx hy hbus hw => ?_, fun s i data m hi hm hfit hlt hbus hw => ?_⟩
  · obtain rfl : addr = _ := funext haddr
    obtain ⟨t, before, hnext, hsorted, hmem, hstop⟩ := exec_stpx_of_busError ha hm hx hy hbus hw
    obtain ⟨hcode, hinfo, hpc, hfault, hbusy, hframe⟩ := hstop.fault
    refine ⟨t, hnext, hcode, hinfo, hpc, hfault, hbusy, hframe, fun i hi hlast hs => ?_, fun x hx => ?_⟩
    · have hwrite := read_writeCells_storeCell (b := s.unit.blocks[a]) hm hsorted
        ((hmem i).mpr hi) fun j hj hij => hlast j hij ((hmem j).mp hj)
      rw [hstop.written _ hs, ← toNat_clamp8_byte]
      exact congrArg (fun v : Byte => (v.toNat : Int)) hwrite
    · exact hstop.outside x (List.forall_mem_map.mpr fun i hi => hx i ((hmem i).mp hi))
  · have hemit : ∃ bits z, exec i s = s.emitBits bits z ∧ data = pack bits := by
      obtain ⟨a, rfl, ha, rfl⟩ | ⟨rfl, rfl⟩ := hi
      · exact ⟨_, _, exec_encb_of_valid ha, rfl⟩
      · exact ⟨_, _, exec_encmv s, rfl⟩
    obtain ⟨bits, z, hexec, rfl⟩ := hemit
    obtain ⟨t, hnext, hstop⟩ := emitBits_of_busError (z := z) hm hfit hlt hbus hw
    obtain ⟨hcode, hinfo, hpc, hfault, hbusy, hframe⟩ := hstop.fault
    have hbse := s.unit.bse.isLt
    have hlen : ((pack bits).take m).length = m := List.length_take_of_le hlt.le
    refine ⟨t, hexec.trans hnext, hcode, hinfo, hpc, hfault, hbusy, hframe,
      fun j hj hjm hs => ?_, fun x hx => hstop.outside x fun c hc hcx => ?_⟩
    · rw [← toNat_streamAddr (by omega) hj, hstop.written _ hs, toNat_streamAddr (by omega) hj,
        read_streamCells (by omega) hm (by omega), List.getElem_take]
    · obtain ⟨j, hj, hc⟩ := mem_streamCells hc
      rw [hc, toNat_streamAddr (n := m) (by omega) (by omega)] at hcx
      omega

/-! ### Copying a window -/

/-- Without an effective motion offset LDPX loads at (X, Y). -/
theorem loadPosition_of_no_offset {u : UnitState} {m h : Bool} (hmode : ¬ (h = true ∧ m = false))
    (hoff : m = true → u.dx = 0 ∧ u.dy = 0) : u.loadPosition m h = (↑u.x.toNat, ↑u.y.toNat) := by
  rw [loadPosition_eq u hmode]
  cases m with
  | false => simp
  | true =>
    obtain ⟨hdx, hdy⟩ := hoff rfl
    simp [hdx, hdy]

/-- LDPX at (X, Y) of a window of readable bytes writes the samples to its block register, and keeps the
position and the planes. -/
theorem exec_ldpx_of_readable {s : State} {d : BReg} {p : Plane} {m h : Bool}
    (hmode : ¬ (h = true ∧ m = false)) (hoff : m = true → s.unit.dx = 0 ∧ s.unit.dy = 0)
    (hx : s.unit.x.toNat + 8 ≤ s.unit.pd[p].width.toNat)
    (hy : s.unit.y.toNat + 8 ≤ s.unit.pd[p].height.toNat)
    (hread : ∀ i < 64, s.Readable (s.unit.pd[p].windowAddr s.unit.x.toNat s.unit.y.toNat 8 i)) :
    ∃ u n, exec (.ldpx d p m h) s = .next { s with unit := u, draws := n } ∧ u.bvalid[d] = true
      ∧ u.x = s.unit.x ∧ u.y = s.unit.y ∧ u.pd = s.unit.pd ∧ ∀ i : Fin 64, elem u.blocks[d] i
        = (s.mem.read (s.unit.pd[p].windowAddr s.unit.x.toNat s.unit.y.toNat 8 i).toNat).toNat := by
  have hin : s.unit.pd[p].inBounds s.unit.x.toNat s.unit.y.toNat 8 = true :=
    inBounds_iff.mpr (by omega)
  refine ⟨_, _, next_of_map
    (exec_ldpx_of_inBounds hmode (loadPosition_of_no_offset hmode hoff) hin)
    (readWindow_of_readable (size := 8) hread), by simp, by simp, by simp, by simp, fun i => ?_⟩
  rw [UnitState.complete_blocks, UnitState.advance_blocks, UnitState.setBlock_blocks, blocks_set_self]
  exact elem_blockOfSamples (fun i => s.mem.read _) i

/-- Settles O51: a loaded sample is a byte, which the clamp of STPX keeps. -/
theorem skipCopiesTheWindow : Obligations.SkipCopiesTheWindow := by
  intro d p q m h s src dst hm hoff hmode hsrc hdst hpx hpy hqx hqy hread hstore hne
  obtain rfl : src = _ := funext hsrc
  obtain ⟨u, n, hload, hvalid, hx, hy, hpd, hblock⟩ :=
    exec_ldpx_of_readable (d := d) hmode hoff hpx hpy hread
  obtain ⟨t', hstored, -, hwritten, -⟩ :=
    stpxStoresClampedSamples d q { s with unit := u, draws := n } dst hvalid hm
      (by simpa only [hx, hy, hpd] using hdst) (by simpa only [hx, hpd] using hqx)
      (by simpa only [hy, hpd] using hqy) fun i hi => (hstore i hi).1
  refine ⟨_, t', hload, hstored, fun i hi => BitVec.eq_of_toNat_eq ?_⟩
  have hbyte := hwritten ⟨i, hi⟩ (fun j hj => hne j j.isLt i hi (Nat.ne_of_gt hj)) (hstore i hi).2
  have hlt := (s.mem.read (s.unit.pd[p].windowAddr s.unit.x.toNat s.unit.y.toNat 8 i).toNat).isLt
  rw [hblock] at hbyte
  dsimp only at hbyte
  omega

end Sys2Proof.Machine
end

section
/-! The motion search MSRCH: the candidates that fit, the best of them, and the faults of its reads
(44_motion_residual.md R230). -/

namespace Sys2Proof.Machine

/-! ### Candidates in bounds -/

/-- The candidates of a search that are in bounds, in order. -/
def State.fitting (s : State) (pr : PlaneDesc) (radius : Nat) : List (Int × Int) :=
  (candidates radius).filter (offsetFits s pr)

theorem mem_fitting {s : State} {pr : Plane} {radius : Nat} {c : Int × Int} :
    c ∈ s.fitting s.unit.pd[pr] radius ↔ isCandidate s pr radius c.1 c.2 := by
  rw [State.fitting, List.mem_filter, mem_candidates, offsetFits, inBounds_iff]
  simp only [isCandidate, and_assoc, Nat.cast_ofNat]

/-- DX and DY hold every offset of a search (R34). -/
theorem toInt_half16_of_isCandidate {s : State} {pr : Plane} {radius : BitVec 6} {dx dy : Int}
    (h : isCandidate s pr radius.toNat dx dy) :
    (half16 dx).toInt = dx ∧ (half16 dy).toInt = dy := by
  obtain ⟨hx, hx', hy, hy', -⟩ := h
  have hradius := radius.isLt
  exact ⟨toInt_half16 (by omega) (by omega), toInt_half16 (by omega) (by omega)⟩

theorem fitting_sorted (s : State) (pr : PlaneDesc) (radius : Nat) :
    (s.fitting pr radius).Pairwise fun a b => comesBefore a.1 a.2 b.1 b.2 :=
  (candidates_sorted radius).filter _

theorem comesBefore_asymm {dx dy dx' dy' : Int} (h : comesBefore dx dy dx' dy') :
    ¬ comesBefore dx' dy' dx dy := by
  unfold comesBefore at h ⊢
  omega

theorem comesBefore_irrefl (dx dy : Int) : ¬ comesBefore dx dy dx dy :=
  fun h => comesBefore_asymm h h

/-! ### The best candidate -/

/-- What the search keeps over evaluated offsets: one whose sum is less than those before it and at most those
after it. -/
theorem bestOf_map_spec {f : Int × Int → Found} {l : List (Int × Int)} (hl : l ≠ []) :
    ∃ before c after, l = before ++ c :: after ∧ bestOf none (l.map f) = some (f c)
      ∧ (∀ b ∈ before, (f c).sad < (f b).sad) ∧ ∀ b ∈ after, (f c).sad ≤ (f b).sad := by
  obtain ⟨a, l, rfl⟩ := List.exists_cons_of_ne_nil hl
  obtain ⟨g, hg, before, after, hsplit, hbefore, hafter⟩ := bestOf_spec (l.map f) (f a)
  rw [← List.map_cons] at hsplit
  obtain ⟨before, rest, hl, rfl, hrest⟩ := List.map_eq_append_iff.mp hsplit
  obtain ⟨c, after, rfl, rfl, rfl⟩ := List.map_eq_cons_iff.mp hrest
  exact ⟨before, c, after, hl, hg, fun b hb => hbefore _ (List.mem_map_of_mem hb),
    fun b hb => hafter _ (List.mem_map_of_mem hb)⟩

/-- With every byte readable and a candidate in bounds, the search finds a candidate of least sum, and no
candidate before it has that sum. -/
theorem search_of_readable {s : State} {ps pr : PlaneDesc} {radius : Nat} {src : List Byte}
    (hin : ps.inBounds s.unit.x.toNat s.unit.y.toNat 16 = true)
    (hsrc : s.readWindow ps s.unit.x.toNat s.unit.y.toNat 16 .sample = .ok src)
    (hread : ∀ c ∈ s.fitting pr radius, ∀ i < 16 * 16, s.Readable
      (pr.windowAddr (s.unit.x.toNat + c.1) (s.unit.y.toNat + c.2) 16 i))
    (hsome : s.fitting pr radius ≠ []) :
    ∃ c ∈ s.fitting pr radius, s.search ps pr radius = .ok (foundAt s src pr c)
      ∧ ∀ b ∈ s.fitting pr radius, (foundAt s src pr c).sad ≤ (foundAt s src pr b).sad
        ∧ ((foundAt s src pr b).sad = (foundAt s src pr c).sad →
          ¬ comesBefore b.1 b.2 c.1 c.2) := by
  have hsorted := fitting_sorted s pr radius
  obtain ⟨before, c, after, hsplit, hbest, hbefore, hafter⟩ :=
    bestOf_map_spec (f := foundAt s src pr) hsome
  have hsearch : s.search ps pr radius = .ok (foundAt s src pr c) := by
    rw [search_of_read hin hsrc,
      searchFrom_eq fun c hc hf => hread c (List.mem_filter.mpr ⟨hc, hf⟩)]
    rw [State.fitting] at hbest
    rw [hbest]
    rfl
  rw [hsplit] at hsorted ⊢
  obtain ⟨-, hfrom, -⟩ := List.pairwise_append.mp hsorted
  refine ⟨c, by simp, hsearch, fun b hb => ?_⟩
  simp only [List.mem_append, List.mem_cons] at hb
  obtain hb | rfl | hb := hb
  · exact ⟨(hbefore b hb).le, fun heq => absurd heq (hbefore b hb).ne'⟩
  · exact ⟨le_rfl, fun _ => comesBefore_irrefl _ _⟩
  · exact ⟨hafter b hb, fun _ => comesBefore_asymm (List.rel_of_pairwise_cons hfrom hb)⟩

/-! ### Sums of windows -/

/-- The source window's samples, as memory holds them. -/
def State.sourceSamples (s : State) (ps : PlaneDesc) : List Byte :=
  (List.range (16 * 16)).map fun i =>
    s.mem.read (ps.windowAddr s.unit.x.toNat s.unit.y.toNat 16 i).toNat

/-- An evaluated candidate's sum is the sum of absolute differences of the two windows. -/
theorem sad_foundAt (s : State) (ps pr : Plane) (c : Int × Int) :
    ((foundAt s (s.sourceSamples s.unit.pd[ps]) s.unit.pd[pr] c).sad : Int)
      = windowSad s ps pr c.1 c.2 := by
  simp only [foundAt, State.sourceSamples, windowSad, sadSamples_map, sum_map_range, Nat.cast_sum,
    Int.natCast_natAbs]

/-- ACC holds every sum of two windows (R36). -/
theorem toNat_ofNat_sad_foundAt (s : State) (ps pr : PlaneDesc) (c : Int × Int) :
    (BitVec.ofNat 32 (foundAt s (s.sourceSamples ps) pr c).sad).toNat
      = (foundAt s (s.sourceSamples ps) pr c).sad := by
  have hle : (foundAt s (s.sourceSamples ps) pr c).sad ≤ 255 * (s.sourceSamples ps).length :=
    sadSamples_le _ _
  have hlen : (s.sourceSamples ps).length = 256 := by simp [State.sourceSamples]
  rw [BitVec.toNat_ofNat, Nat.mod_eq_of_lt (by omega)]

/-- MSRCH whose search finds an offset writes it, and its sum to ACC. -/
theorem exec_msrch_of_found {s : State} {ps pr : Plane} {radius : BitVec 6} {f : Found}
    (h : s.search s.unit.pd[ps] s.unit.pd[pr] radius.toNat = .ok f) :
    ∃ t, exec (.msrch ps pr radius) s = .next t ∧ t.unit.pc = s.unit.pc + 4
      ∧ t.unit.dx = half16 f.dx ∧ t.unit.dy = half16 f.dy ∧ t.unit.acc = BitVec.ofNat 32 f.sad
      ∧ (t.unit.z = true ↔ t.unit.acc = 0) :=
  ⟨_, next_of_map rfl h, by simp, by simp, by simp, by simp, by simp [zOfAcc_iff]⟩

/-- Settles O49: offsets and sums fit their registers, and the search finds the earliest candidate of least
sum. -/
theorem msrchFindsTheBestOffset : Obligations.MsrchFindsTheBestOffset := by
  rintro ps pr radius s hx hy hsrc hread ⟨dx, dy, hcand⟩
  have hin : s.unit.pd[ps].inBounds s.unit.x.toNat s.unit.y.toNat 16 = true :=
    inBounds_iff.mpr (by omega)
  obtain ⟨c, hmem, hsearch, hbest⟩ := search_of_readable hin
    (readWindow_of_readable (size := 16) hsrc)
    (fun c hc => hread c.1 c.2 (mem_fitting.mp hc))
    (List.ne_nil_of_mem (mem_fitting (c := (dx, dy)).mpr hcand))
  obtain ⟨t, hnext, hpc, hdx, hdy, hacc, hz⟩ := exec_msrch_of_found hsearch
  have hc := mem_fitting.mp hmem
  obtain ⟨hfitx, hfity⟩ := toInt_half16_of_isCandidate hc
  have htdx : t.unit.dx.toInt = c.1 := (congrArg BitVec.toInt hdx).trans hfitx
  have htdy : t.unit.dy.toInt = c.2 := (congrArg BitVec.toInt hdy).trans hfity
  refine ⟨t, hnext, hpc, ?_, ?_, hz, fun dx dy hcand => ?_⟩
  · rwa [htdx, htdy]
  · rw [hacc, htdx, htdy, ← sad_foundAt]
    exact congrArg Nat.cast (toNat_ofNat_sad_foundAt s _ _ c)
  · obtain ⟨hle, hfirst⟩ := hbest (dx, dy) (mem_fitting.mpr hcand)
    rw [htdx, htdy, ← sad_foundAt, ← sad_foundAt s ps pr (dx, dy)]
    exact ⟨Nat.cast_le.mpr hle, fun heq => hfirst (Nat.cast_inj.mp heq)⟩

/-! ### Faults -/

theorem windowInfo_of_position (x y : Half) : windowInfo x.toNat y.toNat = y ++ x := by
  simp [windowInfo]

/-- A candidate's window with a bad byte stops the search, when the windows of the candidates before it can
be read. -/
theorem searchFrom_of_bad_candidate {s : State} {pr : Plane} {radius k : Nat} {dx dy : Int}
    {src : List Byte} {e : Stop} (hcand : isCandidate s pr radius dx dy) (hk : k < 256)
    (he : s.denies (s.unit.pd[pr].windowAddr (s.unit.x.toNat + dx) (s.unit.y.toNat + dy) 16 k)
      = some e)
    (hp : ∀ i < k,
      s.Plain (s.unit.pd[pr].windowAddr (s.unit.x.toNat + dx) (s.unit.y.toNat + dy) 16 i))
    (hbefore : ∀ dx' dy', isCandidate s pr radius dx' dy' → comesBefore dx' dy' dx dy →
      ∀ i < 256,
        s.Plain (s.unit.pd[pr].windowAddr (s.unit.x.toNat + dx') (s.unit.y.toNat + dy') 16 i)) :
    s.searchFrom src s.unit.pd[pr] 0 (candidates radius) none = .error e := by
  obtain ⟨hmem, hfits⟩ := List.mem_filter.mp (mem_fitting (c := (dx, dy)).mpr hcand)
  obtain ⟨before, after, hsplit⟩ := List.append_of_mem hmem
  have hsorted := candidates_sorted radius
  rw [hsplit] at hsorted ⊢
  obtain ⟨-, -, hcomes⟩ := List.pairwise_append.mp hsorted
  refine searchFrom_of_denied hfits hk he hp fun b hb hfits' => ?_
  have hcand' : isCandidate s pr radius b.1 b.2 :=
    mem_fitting.mp (List.mem_filter.mpr ⟨by simp [hsplit, hb], hfits'⟩)
  exact hbefore b.1 b.2 hcand' (hcomes b hb (dx, dy) (by simp))

/-- With no candidate in bounds the search reads no window of the reference plane. -/
theorem searchFrom_of_no_candidate {s : State} {pr : Plane} {radius : Nat} (src : List Byte)
    (h : ∀ dx dy, ¬ isCandidate s pr radius dx dy) :
    s.searchFrom src s.unit.pd[pr] 0 (candidates radius) none = .ok none :=
  searchFrom_of_none fun c hc => Bool.eq_false_iff.mpr fun hf =>
    h c.1 c.2 (mem_fitting.mp (List.mem_filter.mpr ⟨hc, hf⟩))

/-- Settles O50: the reads of a search are in order, and no register is written before its end. -/
theorem msrchFaultsWriteNothing : Obligations.MsrchFaultsWriteNothing := by
  intro ps pr radius s src win hx hy hsrc hwin
  obtain rfl : src = _ := funext hsrc
  obtain rfl : win = _ := funext fun dx => funext fun dy => funext (hwin dx dy)
  have hin : s.unit.pd[ps].inBounds s.unit.x.toNat s.unit.y.toNat 16 = true :=
    inBounds_iff.mpr (by omega)
  refine ⟨fun k hk hbus hplain => ?_, fun hplain => ?_⟩
  · exact faultsWith_of_search (search_of_unread hin
      (readWindow_of_denied (size := 16) hk (denies_of_not_busOK hbus) hplain))
  · obtain ⟨bytes, hread⟩ := readWindow_of_plain (size := 16) (t := .sample) hplain
    refine ⟨fun dx dy k hk hcand hbus hp hbefore => ?_, fun hnone => ?_⟩
    · refine faultsWith_of_search ?_
      rw [search_of_read hin hread,
        searchFrom_of_bad_candidate hcand hk (denies_of_not_busOK hbus) hp hbefore]
      rfl
    · refine faultsWith_of_search ?_
      rw [search_of_read hin hread, searchFrom_of_no_candidate bytes hnone, ← windowInfo_of_position]
      rfl

end Sys2Proof.Machine
end

section
/-! Fault entry (60_exceptions.md R250 to R260): the fetch that meets a bad byte (R252), the commands whose
source block is not valid (R253), and that nothing but an access outside the model stops the machine. -/

namespace Sys2Proof.Machine

/-! ### Fetch -/

/-- Settles O7: the bytes before the bad one can be read, so the fetch stops at it and the step takes its
fault. -/
theorem fetchBusErrorNamesFirstByte : Obligations.FetchBusErrorNamesFirstByte := by
  intro s k hagenda hbusy hk hbus hplain
  have hfetch := fetch_of_denied hk (denies_of_not_busOK hbus) hplain
  have hstep := step_of_no_event hagenda
  rw [unitStep_of_fetch_error hbusy hfetch, endCommand_raise] at hstep
  exact ⟨_, hstep, rfl, rfl, rfl, rfl, rfl, same_enterFault _ _ _, rfl⟩

/-! ### Going on -/

/-- An idle unit waits for START (R275). -/
theorem unitStep_of_idle {s : State} (h : s.unit.busy = false) : s.unitStep = .next s := by
  simp [State.unitStep, h]

/-- Where nothing is refused, a command completes or faults. -/
theorem goesOn_exec_of_nothingRefused {s : State} (hs : s.NothingRefused) (i : Instr) :
    goesOn (exec i s) := by
  by_contra hstops
  obtain ⟨a, why, hdenied⟩ := exec_stops hstops
  cases denies_of_nothingRefused hs hdenied

/-- Every word goes on: it runs its command, or it is illegal. -/
theorem goesOn_runWord_of_nothingRefused {s : State} (hs : s.NothingRefused) (w : Word) :
    goesOn (s.runWord w) := by
  by_cases hlegal : ∃ i, decodeWord w = .ok i
  · obtain ⟨i, hdecode⟩ := hlegal
    rw [runWord_of_decode hdecode]
    exact goesOn_exec_of_nothingRefused hs i
  · rw [runWord_of_illegal (not_exists.mp hlegal)]
    exact ⟨_, endCommand_raise ..⟩

/-- A unit's step goes on: it is idle, its fetch raises BUS_ERROR, or it runs the word fetched. -/
theorem goesOn_unitStep_of_nothingRefused {s : State} (hs : s.NothingRefused) :
    goesOn s.unitStep := by
  cases hbusy : s.unit.busy with
  | false => exact ⟨s, unitStep_of_idle hbusy⟩
  | true =>
    cases hfetch : s.fetch with
    | error e =>
      obtain ⟨a, hdenied⟩ := fetch_error hfetch
      obtain rfl := denies_of_nothingRefused hs hdenied
      rw [unitStep_of_fetch_error hbusy hfetch]
      exact ⟨_, endCommand_raise ..⟩
    | ok w =>
      rw [unitStep_of_fetch hbusy hfetch]
      exact goesOn_runWord_of_nothingRefused hs w

/-- Settles O8: with no event pending the step is the selected unit's. -/
theorem everyStepGoesOn : Obligations.EveryStepGoesOn := by
  intro s hagenda
  rw [step_of_no_event hagenda]
  exact ⟨unitStep_of_idle, goesOn_unitStep_of_nothingRefused⟩

/-! ### Invalid sources -/

/-- Of two sources the first is checked first (R253). -/
theorem readBlocks_of_invalid_first {u : UnitState} {a : BReg} (b : BReg)
    (ha : u.bvalid[a] = false) :
    u.readBlocks a b = .error (.raise .uninitBlock (BitVec.ofNat 32 a.val)) := by
  simp only [UnitState.readBlocks, readBlock_of_invalid ha]

theorem readBlocks_of_invalid_second {u : UnitState} {a b : BReg} (ha : u.bvalid[a] = true)
    (hb : u.bvalid[b] = false) :
    u.readBlocks a b = .error (.raise .uninitBlock (BitVec.ofNat 32 b.val)) := by
  simp only [UnitState.readBlocks, readBlock_of_valid ha, readBlock_of_invalid hb]

/-- A command whose operands cannot be read ends with what stopped the reading. -/
theorem exec_of_map_error {i : Instr} {s : State} {α : Type} {x : Except Stop α}
    {f : α → UnitState} {e : Stop} (h : exec i s = s.endCommand (x.map f)) (hx : x = .error e) :
    exec i s = s.endCommand (.error e) := by rw [h, hx]; rfl

/-- Every command with the one source `a` reads it before anything else. -/
theorem exec_of_readBlock_error {s : State} {a d : BReg} {p : Plane} {t : Table} {c : Bool}
    {i : Instr} {e : Stop}
    (hi : i ∈ [.mov d a, .fdct d a, .idct d a c, .quant d a t, .dequant d a t, .encb a, .stpx a p])
    (h : s.unit.readBlock a = .error e) : exec i s = s.endCommand (.error e) := by
  simp only [List.mem_cons, List.not_mem_nil, or_false] at hi
  obtain rfl | rfl | rfl | rfl | rfl | rfl | rfl := hi
  iterate 5
    · exact exec_of_map_error rfl h
  · simp only [exec, execEncb, h]
  · simp only [exec, execStpx, h]

/-- Every command with the two sources `a` and `b` reads them before anything else. -/
theorem exec_of_readBlocks_error {s : State} {a b d : BReg} {i : Instr} {e : Stop}
    (hi : i ∈ [.sub d a b, .addc d a b, .sad a b]) (h : s.unit.readBlocks a b = .error e) :
    exec i s = s.endCommand (.error e) := by
  simp only [List.mem_cons, List.not_mem_nil, or_false] at hi
  obtain rfl | rfl | rfl := hi <;> exact exec_of_map_error rfl h

/-- FAULT_INFO holds a block register's number. -/
theorem toNat_ofNat_breg (n : BReg) : (BitVec.ofNat 32 n.val).toNat = n.val :=
  Nat.mod_eq_of_lt (n.isLt.trans (by decide))

/-- Settles O22: the read of the first invalid source stops the command. -/
theorem invalidSourceFaults : Obligations.InvalidSourceFaults := by
  intro s a b d p t c n i h
  have hexec : exec i s = s.endCommand (.error (.raise .uninitBlock (BitVec.ofNat 32 n.val))) := by
    obtain ⟨hi, ha, rfl⟩ | ⟨hi, ⟨ha, rfl⟩ | ⟨ha, hb, rfl⟩⟩ := h
    · exact exec_of_readBlock_error hi (readBlock_of_invalid ha)
    · exact exec_of_readBlocks_error hi (readBlocks_of_invalid_first b ha)
    · exact exec_of_readBlocks_error hi (readBlocks_of_invalid_second ha hb)
  obtain ⟨s', hnext, hcode, hinfo, hpc, hfault, hbusy, hmem, hframe⟩ :=
    faultsWith_of_endCommand hexec
  exact ⟨s', hnext, hcode, hinfo ▸ toNat_ofNat_breg n, hpc, hfault, hbusy, hframe, hmem⟩

end Sys2Proof.Machine
end

section
/-! Reset and the start protocol (70_reset_and_hazards.md R290 to R294): the host's writes of CTRL, and the
steps that reset a unit. -/

namespace Sys2Proof.Machine

/-! ### The start protocol -/

theorem start_of_idle {u : UnitState} (hb : u.busy = false) (hf : u.fault = false) :
    u.start = { u with done := false, busy := true } := by
  simp [UnitState.start, hb, hf]

theorem start_of_ignored {u : UnitState} (h : u.busy = true ∨ u.fault = true) : u.start = u :=
  if_pos ((Bool.or_eq_true ..).mpr h)

/-- Handling START changes at most BUSY and DONE. -/
theorem start_eq (u : UnitState) : ∃ busy done, u.start = { u with busy := busy, done := done } := by
  unfold UnitState.start
  split
  · exact ⟨u.busy, u.done, rfl⟩
  · exact ⟨true, false, rfl⟩

/-- Without SRST, IE and SSTEP are written first and then START is handled. -/
theorem writeCtrl_of_no_srst {u : UnitState} {v : Word} (hsrst : v.getLsbD 1 = false) :
    u.writeCtrl v
      = if v.getLsbD 0 then ({ u with ie := v.getLsbD 2, sstep := v.getLsbD 3 } : UnitState).start
        else { u with ie := v.getLsbD 2, sstep := v.getLsbD 3 } :=
  if_neg (by rw [hsrst]; exact Bool.false_ne_true)

/-- START starts a unit that is idle and without a fault. -/
theorem writeCtrl_of_start {u : UnitState} {v : Word} (hsrst : v.getLsbD 1 = false)
    (hstart : v.getLsbD 0 = true) (hb : u.busy = false) (hf : u.fault = false) :
    u.writeCtrl v
      = { u with ie := v.getLsbD 2, sstep := v.getLsbD 3, done := false, busy := true } := by
  rw [writeCtrl_of_no_srst hsrst, if_pos hstart]
  exact start_of_idle hb hf

/-- Without START, and on a unit that ignores it, only IE and SSTEP are written. -/
theorem writeCtrl_of_start_ignored {u : UnitState} {v : Word} (hsrst : v.getLsbD 1 = false)
    (h : v.getLsbD 0 = false ∨ u.busy = true ∨ u.fault = true) :
    u.writeCtrl v = { u with ie := v.getLsbD 2, sstep := v.getLsbD 3 } := by
  rw [writeCtrl_of_no_srst hsrst]
  split
  next hstart => exact start_of_ignored (h.resolve_left (ne_false_of_eq_true hstart))
  next => rfl

/-- Without SRST a write of CTRL sets IE and SSTEP and changes at most BUSY and DONE beside. -/
theorem writeCtrl_eq {u : UnitState} {v : Word} (hsrst : v.getLsbD 1 = false) : ∃ busy done,
    u.writeCtrl v
      = { u with ie := v.getLsbD 2, sstep := v.getLsbD 3, busy := busy, done := done } := by
  rw [writeCtrl_of_no_srst hsrst]
  split
  · exact start_eq _
  · exact ⟨u.busy, u.done, rfl⟩

theorem same_writeCtrl {u : UnitState} {v : Word} (hsrst : v.getLsbD 1 = false) (r : RegName)
    (h : r ∉ [RegName.ie, .sstep, .busy, .done]) : r.same u (u.writeCtrl v) := by
  obtain ⟨busy, done, heq⟩ := writeCtrl_eq (u := u) hsrst
  rw [heq]
  cases r with
  | ie | sstep | busy | done => exact absurd (by decide) h
  | lc n => cases n <;> rfl
  | _ => rfl

/-- Settles O54: START starts the unit or is ignored, and IE, SSTEP and the frame are the same in both cases. -/
theorem startProtocol : Obligations.StartProtocol := by
  intro u v hsrst
  dsimp only
  rw [mmioWrite_ctrl]
  obtain ⟨busy, done, heq⟩ := writeCtrl_eq (u := u) hsrst
  refine ⟨by rw [heq], by rw [heq], fun hstart hb hf => ?_, fun hignored => ?_,
    fun r hr => same_writeCtrl hsrst r hr⟩
  · rw [writeCtrl_of_start hsrst hstart hb hf]
    exact ⟨rfl, rfl⟩
  · rw [writeCtrl_of_start_ignored hsrst hignored]
    exact ⟨rfl, rfl⟩

/-! ### Resets -/

theorem exists_select {s : State} {k : Nat} (hs : s.self ≤ s.others.length) (hk : k < s.nUnits) :
    ∃ v, s.select k = some v := by
  have hlen : k < s.units.length := by rwa [length_units hs]
  simp [State.select, List.getElem?_eq_getElem hlen]

theorem hardwareReset_eq {s v : State} {k : Nat} (hv : s.select k = some v) :
    s.hardwareReset k = .next { v with unit := UnitState.reset } := by
  simp only [State.hardwareReset, hv]

/-- A write with SRST set at CTRL's offset 0x008 puts the unit, selected for it, in the reset state; only the
races may change beside. -/
theorem hostWrite_of_srst {s v : State} {k addr : Nat} {w : Word} (ha : addr % 4 = 0)
    (hw : w.getLsbD 1 = true) (hk : unitAtHostAddr addr 0 s.plat.mmioBase = some (k, 8))
    (hv : s.select k = some v) :
    ∃ r, s.hostWrite addr 4 w = .next { v with unit := UnitState.reset, races := r } := by
  have hctrl : v.unit.mmioWrite w (mmioReg 8) = UnitState.reset := writeCtrl_of_srst v.unit hw
  rw [← hctrl]
  exact hostWrite_eq w ha hk hv

/-- Settles O55: both events reset the unit they select, and selecting it changes no unit. -/
theorem resetByHost : Obligations.ResetByHost := by
  refine ⟨fun u v hv => writeCtrl_of_srst u hv, fun s k addr w rest hs hk hagenda => ?_⟩
  obtain ⟨v, hv⟩ := exists_select (s := { s with agenda := rest }) hs hk
  obtain ⟨r, hstep⟩ : ∃ r, step s = .next { v with unit := UnitState.reset, races := r } := by
    obtain hreset | ⟨hwrite, ha, hw, haddr⟩ := hagenda
    · exact ⟨v.races, (step_of_event hreset).trans (hardwareReset_eq hv)⟩
    · rw [step_of_event hwrite]
      exact hostWrite_of_srst ha hw haddr hv
  obtain ⟨hself, hunits, hn, hmem, hrest⟩ := select_for_event hs hv
  refine ⟨_, hstep, hself, rfl, hmem, hrest, hn, fun j hj => ?_⟩
  rw [← hunits]
  exact units_of_ne (s := { v with races := r }) _ (hself ▸ hj)

end Sys2Proof.Machine
end
